-- ==== Sys2Proof/Word.lean ====
section
/-! DEFINITION. The word and byte types of the core (00_scope.md R6, R7): every value is an unsigned bit
vector of a stated width. -/

namespace Sys2Proof

/-- A *word*: 32 bits, unsigned (R6 `W`, R7). -/
abbrev Word := BitVec 32

/-- A byte of the password or the salt (20_memory.md R40, R41). -/
abbrev Byte := BitVec 8

end Sys2Proof
end

