-- ==== Sys2Proof/Syntax.lean ====
section
/-! DEFINITION. The encoded things of the core: one constructor of `Instr` per row of the opcode table
(30_encoding.md R50, R52, R54, R60), and the names of the sequencer's codes (R52, R54, R55). -/

namespace Sys2Proof

/-- The rows of the opcode table: the two bus transactions (format `BUS`), the eight commands (format `CMD`),
the ten micro-operations (format `UOP`). Only the bus transactions carry operands (30_encoding.md R56); the
`wdata` bits of a read are ignored by the core (R50) and are no part of the term. -/
inductive Instr where
  /-- `RD addr`: a cycle with `sel=1, wr=0` (44_host_commands.md R111, R112). -/
  | rd (addr : BitVec 10)
  /-- `WR addr, wdata`: a cycle with `sel=1, wr=1` (R113). -/
  | wr (addr : BitVec 10) (wdata : Word)
  /-- `NOP` (R116). -/
  | nop
  /-- `INIT` (R117). -/
  | init
  /-- `ENCIPHER` (R118). -/
  | encipher
  /-- `KEY_PW` (R119). -/
  | keyPw
  /-- `KEY_SALT` (R120). -/
  | keySalt
  /-- `EKSKEY` (R121). -/
  | ekskey
  /-- `CRYPT` (R122). -/
  | crypt
  /-- `ABORT` (R123). -/
  | abort
  /-- `U_IDLE` (43_costloop.md R105). -/
  | uIdle
  /-- `U_INIT` (R95). -/
  | uInit
  /-- `U_XORP` (42_keyschedule.md R80). -/
  | uXorp
  /-- `U_SALT` (R81). -/
  | uSalt
  /-- `U_ROUND` (41_feistel.md R73). -/
  | uRound
  /-- `U_ST0` (42_keyschedule.md R84). -/
  | uSt0
  /-- `U_ST1` (R85). -/
  | uSt1
  /-- `U_CLOAD` (43_costloop.md R98). -/
  | uCload
  /-- `U_BLD` (R99). -/
  | uBld
  /-- `U_BST` (R100). -/
  | uBst
deriving DecidableEq, Repr

/-- The ten values of `phase` (30_encoding.md R54); R53 (d) allows an enumeration. -/
inductive Phase where
  | idle | init | xorp | salt | round | st0 | st1 | cload | bld | bst
deriving DecidableEq, Repr

/-- The four values of `sched`, the kind of schedule run in progress (30_encoding.md R55). -/
inductive SchedKind where
  | none | eks | kpw | ksalt
deriving DecidableEq, Repr

/-- The values of `op`: the most recently accepted command, or none after reset and `ABORT`
(10_state.md R24). -/
inductive CmdOp where
  | none | init | encipher | keyPw | keySalt | ekskey | crypt
deriving DecidableEq, Repr

/-- The six error flags (60_exceptions.md R130). -/
inductive ErrFlag where
  | op | busy | cost | keylen | seq | addr
deriving DecidableEq, Repr

/-- The registers of the host register map (20_memory.md R36). -/
inductive Reg where
  | id | ctrl | status | ien | cost | keylen
  | salt (i : Fin 4)
  | lr0 | lr1
  | ctext (i : Fin 6)
  | key (i : Fin 18)
deriving DecidableEq, Repr

/-- What the host drives on the input ports in one cycle (20_memory.md R37). -/
structure PortIn where
  /-- synchronous reset, active high -/
  rst : Bool
  /-- the cycle carries a transaction -/
  sel : Bool
  /-- write (meaningful when `sel`) -/
  wr : Bool
  /-- byte address -/
  addr : BitVec 10
  /-- write datum -/
  wdata : Word
deriving DecidableEq, Repr

/-- What the core drives on the output ports in one cycle (20_memory.md R37). -/
structure PortOut where
  rdata : Word
  irq : Bool
deriving DecidableEq, Repr

end Sys2Proof
end

