-- ==== Sys2Proof/WellFormed.lean ====
section
/-! DEFINITION. Which terms of `Instr` are canonical. Every operand value of a bus transaction is legal
(a bad address is refused with a flag, not ill-formed), so there is one check: a write of a well-formed
command word to `CTRL` IS that command (30_encoding.md R60, two-level decoding), and is written with the
command's constructor. -/

namespace Sys2Proof

/-- The byte address of `CTRL` (20_memory.md R36). -/
abbrev ctrlAddr : BitVec 10 := 0x004#10

/-- 30_encoding.md R51: the command word is well-formed when `zero = wdata[31:4] = 0` and
`opc = wdata[3:0] <= 7`. -/
def wellFormedCommandWord (wdata : Word) : Bool :=
  wdata.extractLsb' 4 28 == 0#28 && decide ((wdata.extractLsb' 0 4).toNat ≤ 7)

/-- Why a term is not canonical. -/
inductive IllFormed where
  /-- a `WR CTRL` of a well-formed command word, which is a command -/
  | commandWrittenAsBusWrite
deriving DecidableEq, Repr

/-- The check, by name. -/
def illFormed : Instr → Option IllFormed
  | .wr addr wdata =>
    if addr = ctrlAddr ∧ wellFormedCommandWord wdata = true then some .commandWrittenAsBusWrite else none
  | .rd _ | .nop | .init | .encipher | .keyPw | .keySalt | .ekskey | .crypt | .abort
  | .uIdle | .uInit | .uXorp | .uSalt | .uRound | .uSt0 | .uSt1 | .uCload | .uBld | .uBst => none

/-- The term passes every check. -/
abbrev Instr.wellFormed (i : Instr) : Prop := illFormed i = none

end Sys2Proof
end

