-- ==== Sys2Proof/Decode.lean ====
section
/-! DEFINITION. The decoder and the encoder of the three formats (30_encoding.md R50 to R55, R58, R60). -/

namespace Sys2Proof

/-! ## Encoded things -/

/-- A value of one of the three formats (30_encoding.md R50). -/
inductive Encoded where
  /-- format `BUS`: `{wr, addr[9:0], wdata[31:0]}` -/
  | bus (w : BitVec 43)
  /-- format `CMD`: the datum of a write to `CTRL` -/
  | cmd (w : BitVec 32)
  /-- format `UOP`: the value of `phase` -/
  | uop (w : BitVec 4)
deriving DecidableEq, Repr

/-- Why a value decodes to nothing. -/
inductive DecodeError where
  /-- a command word that is not well-formed: illegal, `E_OP` (30_encoding.md R51, R52) -/
  | illegalCommand (w : BitVec 32)
  /-- a `phase` code 10 to 15: unreachable (30_encoding.md R53 (d)) -/
  | unreachablePhase (w : BitVec 4)
deriving DecidableEq, Repr

/-! ## Codes of the sequencer's registers -/

/-- The `phase` codes of 30_encoding.md R54. -/
def phaseCode : Phase → BitVec 4
  | .idle => 0 | .init => 1 | .xorp => 2 | .salt => 3 | .round => 4
  | .st0 => 5 | .st1 => 6 | .cload => 7 | .bld => 8 | .bst => 9

/-- The phase of a code; codes 10 to 15 have none (30_encoding.md R53 (d)). -/
def phaseOfCode (w : BitVec 4) : Option Phase :=
  match w.toNat with
  | 0 => some .idle | 1 => some .init | 2 => some .xorp | 3 => some .salt | 4 => some .round
  | 5 => some .st0 | 6 => some .st1 | 7 => some .cload | 8 => some .bld | 9 => some .bst
  | _ => none

/-- The micro-operation a phase selects (30_encoding.md R54). -/
def phaseInstr : Phase → Instr
  | .idle => .uIdle | .init => .uInit | .xorp => .uXorp | .salt => .uSalt | .round => .uRound
  | .st0 => .uSt0 | .st1 => .uSt1 | .cload => .uCload | .bld => .uBld | .bst => .uBst

/-- The `sched` codes of 30_encoding.md R55. -/
def schedCode : SchedKind → BitVec 2
  | .none => 0 | .eks => 1 | .kpw => 2 | .ksalt => 3

/-- The codes of `op` (10_state.md R24, 30_encoding.md R52). -/
def opCode : CmdOp → BitVec 4
  | .none => 0 | .init => 1 | .encipher => 2 | .keyPw => 3 | .keySalt => 4 | .ekskey => 5 | .crypt => 6

/-! ## The decoder -/

/-- Format `BUS` (30_encoding.md R50, R60): bit 42 selects, `addr` is bits 41:32, `wdata` bits 31:0. -/
def decodeBus (w : BitVec 43) : Instr :=
  if w.extractLsb' 42 1 = 1#1 then .wr (w.extractLsb' 32 10) (w.extractLsb' 0 32)
  else .rd (w.extractLsb' 32 10)

/-- Format `CMD` (30_encoding.md R51, R52): `zero` must be 0 and `opc` at most 7. -/
def decodeCmd (w : BitVec 32) : Except DecodeError Instr :=
  if wellFormedCommandWord w = true then
    match (w.extractLsb' 0 4).toNat with
    | 0 => .ok .nop
    | 1 => .ok .init
    | 2 => .ok .encipher
    | 3 => .ok .keyPw
    | 4 => .ok .keySalt
    | 5 => .ok .ekskey
    | 6 => .ok .crypt
    | 7 => .ok .abort
    | _ => .error (.illegalCommand w)
  else .error (.illegalCommand w)

/-- Format `UOP` (30_encoding.md R54). -/
def decodeUop (w : BitVec 4) : Except DecodeError Instr :=
  match phaseOfCode w with
  | some p => .ok (phaseInstr p)
  | none => .error (.unreachablePhase w)

/-- The decoder of one encoded thing, first level (30_encoding.md R60). -/
def decode : Encoded → Except DecodeError Instr
  | .bus w => .ok (decodeBus w)
  | .cmd w => decodeCmd w
  | .uop w => decodeUop w

/-- Two-level decoding of a bus transaction (30_encoding.md R60): a `WR` of `CTRL` whose datum is a
well-formed command word is that command. -/
def decodeAccess (w : BitVec 43) : Instr :=
  match decodeBus w with
  | .wr addr wdata =>
    if addr = ctrlAddr then
      match decodeCmd wdata with
      | .ok c => c
      | .error _ => .wr addr wdata
    else .wr addr wdata
  | i => i

/-! ## The encoder -/

/-- The 43-bit word of a bus transaction (30_encoding.md R50, R58). -/
def busWord (wr : Bool) (addr : BitVec 10) (wdata : Word) : BitVec 43 :=
  BitVec.ofBool wr ++ addr ++ wdata

/-- The words of each instruction in the format of its row (30_encoding.md R52, R54, R58). -/
def encode : Instr → Encoded
  | .rd addr => .bus (busWord false addr 0)
  | .wr addr wdata => .bus (busWord true addr wdata)
  | .nop => .cmd 0 | .init => .cmd 1 | .encipher => .cmd 2 | .keyPw => .cmd 3
  | .keySalt => .cmd 4 | .ekskey => .cmd 5 | .crypt => .cmd 6 | .abort => .cmd 7
  | .uIdle => .uop 0 | .uInit => .uop 1 | .uXorp => .uop 2 | .uSalt => .uop 3 | .uRound => .uop 4
  | .uSt0 => .uop 5 | .uSt1 => .uop 6 | .uCload => .uop 7 | .uBld => .uop 8 | .uBst => .uop 9

/-- How the host presents a host instruction on the bus (30_encoding.md R58: `CMD X` is `WR CTRL, opc(X)`);
a micro-operation is never presented. -/
def accessWord (i : Instr) : Option (BitVec 43) :=
  match encode i with
  | .bus w => some w
  | .cmd w => some (busWord true ctrlAddr w)
  | .uop _ => none

/-- The port inputs of a cycle that carries the 43-bit transaction `w` (30_encoding.md R50). -/
def portOfAccess (w : BitVec 43) : PortIn where
  rst := false
  sel := true
  wr := w.getLsbD 42
  addr := w.extractLsb' 32 10
  wdata := w.extractLsb' 0 32

/-- A cycle in which the host does nothing (30_encoding.md R58, `IDLE`). -/
def portIdle : PortIn where
  rst := false
  sel := false
  wr := false
  addr := 0
  wdata := 0

/-- The host's instruction of a cycle: none when `sel = 0` (44_host_commands.md R110 (5)). -/
def fetchHost (inp : PortIn) : Option Instr :=
  if inp.sel then some (decodeAccess (busWord inp.wr inp.addr inp.wdata)) else none

/-! ## The opcode table's numbering -/

/-- The format a row of `nbits` bits (in whole bytes) belongs to, with its value: 8 bits `UOP`, up to 32
bits `CMD`, up to 48 bits `BUS` (30_encoding.md R50, R60; log 12). Bits above the format's width must be 0. -/
def tableEncoded (nbits w : Nat) : Option Encoded :=
  if nbits ≤ 8 then if w < 2 ^ 4 then some (.uop (BitVec.ofNat 4 w)) else none
  else if nbits ≤ 32 then if w < 2 ^ 32 then some (.cmd (BitVec.ofNat 32 w)) else none
  else if nbits ≤ 48 then if w < 2 ^ 43 then some (.bus (BitVec.ofNat 43 w)) else none
  else none

/-- The instruction the decoder reads from the bits `w` of an opcode-table row of `nbits` bits. -/
def decodeTableWord (nbits w : Nat) : Option Instr :=
  match tableEncoded nbits w with
  | some e =>
    match decode e with
    | .ok i => some i
    | .error _ => none
  | none => none

/-! ## The opcode table itself -/

/-- A row of the opcode table (30_encoding.md R60): a value `x` of the format is the row's when
`x &&& mask = pattern`. -/
structure TableRow where
  width : Nat
  pattern : Nat
  mask : Nat
deriving DecidableEq, Repr

/-- The row of each instruction. -/
def tableRow : Instr → TableRow
  | .rd _ => ⟨43, 0x00000000000, 0x40000000000⟩
  | .wr _ _ => ⟨43, 0x40000000000, 0x40000000000⟩
  | .nop => ⟨32, 0, 0xFFFFFFFF⟩
  | .init => ⟨32, 1, 0xFFFFFFFF⟩
  | .encipher => ⟨32, 2, 0xFFFFFFFF⟩
  | .keyPw => ⟨32, 3, 0xFFFFFFFF⟩
  | .keySalt => ⟨32, 4, 0xFFFFFFFF⟩
  | .ekskey => ⟨32, 5, 0xFFFFFFFF⟩
  | .crypt => ⟨32, 6, 0xFFFFFFFF⟩
  | .abort => ⟨32, 7, 0xFFFFFFFF⟩
  | .uIdle => ⟨4, 0, 0xF⟩
  | .uInit => ⟨4, 1, 0xF⟩
  | .uXorp => ⟨4, 2, 0xF⟩
  | .uSalt => ⟨4, 3, 0xF⟩
  | .uRound => ⟨4, 4, 0xF⟩
  | .uSt0 => ⟨4, 5, 0xF⟩
  | .uSt1 => ⟨4, 6, 0xF⟩
  | .uCload => ⟨4, 7, 0xF⟩
  | .uBld => ⟨4, 8, 0xF⟩
  | .uBst => ⟨4, 9, 0xF⟩

/-- The width and the value of an encoded thing. -/
def encodedNat : Encoded → Nat × Nat
  | .bus w => (43, w.toNat)
  | .cmd w => (32, w.toNat)
  | .uop w => (4, w.toNat)

/-- Row match of 30_encoding.md R60. -/
def rowMatches (row : TableRow) (e : Encoded) : Bool :=
  (encodedNat e).1 == row.width && ((encodedNat e).2 &&& row.mask) == row.pattern

end Sys2Proof
end

