-- ==== Sys2Proof/Config.lean ====
section
/-! DEFINITION. What the spec leaves to an implementation, or leaves free: constants without a body, so that
no proof can use a value of them. The numbers the spec does fix (00_scope.md R6) stand where they are used. -/

namespace Sys2Proof

/-- DESIGN CHOICE (log 3). The free values of the words of `P` and `S` while nothing of the current schedule
has been written to them (10_state.md R29, 93_implementation_defined.md U1: *any value*). `epoch` counts how
often the contents became unspecified; `k` is the index of the word in the flat view `PS` (10_state.md R12). -/
opaque Config.unspecifiedWord : (epoch k : Nat) → Word

/-- The clock frequency `FCLK`, left OPEN by 00_scope.md R6 and 92_eei_decisions.md D2; nothing in the model
depends on it (log 13). -/
opaque Config.fclk : Nat

end Sys2Proof
end

