-- ==== Sys2Proof/Machine/State.lean ====
section
/-! DEFINITION. The architectural state of the core (10_state.md R10), its value after reset (R27), and the
reasons a step can stop. -/

namespace Sys2Proof.Machine

/-- The P-array: 18 words (10_state.md R12). -/
abbrev PArray := Vector Word 18

/-- One S-box bank: 256 words (10_state.md R13). -/
abbrev SBank := Vector Word 256

/-- The four S-boxes (10_state.md R13). -/
abbrev SBoxes := Vector SBank 4

/-- The contents of `P` and `S` together (00_scope.md, glossary: *schedule*). -/
structure Schedule where
  p : PArray
  sbox : SBoxes
deriving DecidableEq, Repr

/-- A block: the pair `(L, R)` of words (10_state.md R11). -/
structure Block where
  l : Word
  r : Word
deriving DecidableEq, Repr

/-- The state of the core: the rows of 10_state.md R10, in the table's order, then three fields of the model's
own (`epoch`, `inputs`, `out`; logs 1, 3, 8). -/
structure State where
  /-- `L`, the left half of the block (R11) -/
  l : Word
  /-- `R`, the right half of the block (R11) -/
  r : Word
  /-- `P[0..17]` (R12) -/
  p : PArray
  /-- `S[0..3][0..255]` (R13) -/
  sbox : SBoxes
  /-- `CTEXT[0..5]` (R14) -/
  ctext : Vector Word 6
  /-- `KEY[0..17]` (R15) -/
  key : Vector Word 18
  /-- `SALT[0..3]` (R16) -/
  salt : Vector Word 4
  /-- `COST` (R17) -/
  cost : Word
  /-- `KEYLEN` (R18) -/
  keylen : Word
  /-- `IEN.DONE` (R19) -/
  ien : Bool
  /-- `BUSY` (R21) -/
  busy : Bool
  /-- `DONE` (R21) -/
  done : Bool
  /-- `PSV`: `P` and `S` hold a complete schedule (R21) -/
  psv : Bool
  /-- `E_OP` (R22, 60_exceptions.md R131) -/
  eOp : Bool
  /-- `E_BUSY` (R132) -/
  eBusy : Bool
  /-- `E_COST` (R133) -/
  eCost : Bool
  /-- `E_KEYLEN` (R134) -/
  eKeylen : Bool
  /-- `E_SEQ` (R135) -/
  eSeq : Bool
  /-- `E_ADDR` (R136) -/
  eAddr : Bool
  /-- `op`, the most recently accepted command (R24) -/
  op : CmdOp
  /-- `phase`, the sequencer's state (R24) -/
  phase : Phase
  /-- `sched`, the kind of the schedule run in progress (R24) -/
  sched : SchedKind
  /-- index into `PS` (R25) -/
  widx : BitVec 11
  /-- number of the round the next `U_ROUND` performs (R25) -/
  rnd : BitVec 5
  /-- byte offset of the next key word (R25) -/
  koff : BitVec 7
  /-- index of the next salt word (R25) -/
  sidx : BitVec 2
  /-- main-loop iterations still to complete (R25) -/
  iter : BitVec 32
  /-- pass over `CTEXT` in progress (R25) -/
  pass : BitVec 6
  /-- pair of `CTEXT` words in progress (R25) -/
  chunk : BitVec 2
  /-- the MODEL's own: how often the contents of `P`, `S` became unspecified (log 3) -/
  epoch : Nat
  /-- the MODEL's own: the port inputs of the coming cycles, the next one first (log 1) -/
  inputs : List PortIn
  /-- the MODEL's own: the output ports of the cycle just ended (log 8) -/
  out : PortOut
deriving DecidableEq, Repr

/-- Reasons the MODEL stops. The hardware never does (00_scope.md R9, 44_host_commands.md R110); each of
these stands for a state that no run from reset reaches, in which a micro-operation would use a value outside
the range 10_state.md R25 gives its counter (log 6). All are safe: the model stops where the spec says nothing. -/
inductive Fault where
  /-- Raised by `U_INIT`, `U_XORP`, `U_ST0`, `U_ST1`: `widx` is beyond the last word of the array addressed
  (20_memory.md R35). Safe. -/
  | scheduleIndex
  /-- Raised by `U_ROUND`: `rnd` is outside 1..16, where `RoundStep` is not defined (41_feistel.md R72). Safe. -/
  | roundNumber
  /-- Raised by `U_BLD`, `U_BST`: `chunk` is 3, beyond the last pair of `CTEXT` (43_costloop.md R99). Safe. -/
  | chunkNumber
  /-- Raised by `U_XORP` when it needs a key word and `KEYLEN` is outside 1..72, where `KeyWord` is not defined
  (40_wordstream.md R65, R66). Safe. -/
  | keyLength
deriving DecidableEq, Repr

/-- Reasons the model has no meaning for an instruction. -/
inductive Refusal where
  /-- Raised by `exec` alone, for an instruction without a meaning; every instruction has one, so nothing
  raises it. Safe. -/
  | notModelled (mnemonic : String)
deriving DecidableEq, Repr

/-- The contents of the P-array when they are unspecified for the `epoch`-th time (R29, log 3). -/
@[irreducible] def unspecifiedP (epoch : Nat) : PArray :=
  Vector.ofFn fun i => Config.unspecifiedWord epoch i.val

/-- The contents of the S-boxes when they are unspecified for the `epoch`-th time (R29, log 3). -/
@[irreducible] def unspecifiedS (epoch : Nat) : SBoxes :=
  Vector.ofFn fun b => Vector.ofFn fun j => Config.unspecifiedWord epoch (18 + 256 * b.val + j.val)

/-- The machine right after reset (10_state.md R27): every register, flag and counter 0, `P` and `S` without
a specified value (R29). -/
def State.reset : State where
  l := 0
  r := 0
  p := unspecifiedP 0
  sbox := unspecifiedS 0
  ctext := Vector.replicate 6 0
  key := Vector.replicate 18 0
  salt := Vector.replicate 4 0
  cost := 0
  keylen := 0
  ien := false
  busy := false
  done := false
  psv := false
  eOp := false
  eBusy := false
  eCost := false
  eKeylen := false
  eSeq := false
  eAddr := false
  op := .none
  phase := .idle
  sched := .none
  widx := 0
  rnd := 0
  koff := 0
  sidx := 0
  iter := 0
  pass := 0
  chunk := 0
  epoch := 0
  inputs := []
  out := ⟨0, false⟩

end Sys2Proof.Machine
end

