-- ==== Sys2Proof/Machine/Flags.lean ====
section
/-! DEFINITION. The flags: `STATUS` (10_state.md R20), raising an error flag (60_exceptions.md R130), clearing
flags (44_host_commands.md R124) and the interrupt line (60_exceptions.md R138). -/

namespace Sys2Proof.Machine

/-- `raise E_X` (60_exceptions.md R130): set the sticky flag and change nothing else. This is the whole of
this hardware's exception entry (R139); every refused or ignored access goes through it. -/
def raise (e : ErrFlag) (st : State) : State :=
  match e with
  | .op => { st with eOp := true }
  | .busy => { st with eBusy := true }
  | .cost => { st with eCost := true }
  | .keylen => { st with eKeylen := true }
  | .seq => { st with eSeq := true }
  | .addr => { st with eAddr := true }

/-- The read value of `STATUS` (10_state.md R20, 44_host_commands.md R111):
`{0[11:0], op[3:0], 0[1:0], E_ADDR, E_SEQ, E_KEYLEN, E_COST, E_BUSY, E_OP, ph[3:0], 0, PSV, DONE, BUSY}`. -/
def statusWord (st : State) : Word :=
  let ph := if st.busy then phaseCode st.phase else 0#4
  0#12 ++ opCode st.op ++ 0#2 ++ BitVec.ofBool st.eAddr ++ BitVec.ofBool st.eSeq ++ BitVec.ofBool st.eKeylen
    ++ BitVec.ofBool st.eCost ++ BitVec.ofBool st.eBusy ++ BitVec.ofBool st.eOp ++ ph ++ 0#1
    ++ BitVec.ofBool st.psv ++ BitVec.ofBool st.done ++ BitVec.ofBool st.busy

/-- A write to `STATUS` (44_host_commands.md R124): each of `DONE` and the six error flags whose written bit
is 1 becomes 0. There is no return from an error other than this (60_exceptions.md R140). That `Finish` at the
same edge wins over clearing `DONE` comes from the order of the two parts in `step` (log 5). -/
def writeOnesToClear (wdata : Word) (st : State) : State :=
  { st with
    done := st.done && !wdata.getLsbD 1
    eOp := st.eOp && !wdata.getLsbD 8
    eBusy := st.eBusy && !wdata.getLsbD 9
    eCost := st.eCost && !wdata.getLsbD 10
    eKeylen := st.eKeylen && !wdata.getLsbD 11
    eSeq := st.eSeq && !wdata.getLsbD 12
    eAddr := st.eAddr && !wdata.getLsbD 13 }

/-- The interrupt line, a combinational function of two state bits (60_exceptions.md R138). -/
def irqLine (st : State) : Bool := st.ien && st.done

end Sys2Proof.Machine
end

