-- ==== Sys2Proof/Machine/Operands.lean ====
section
/-! DEFINITION. Operand assembly: the register map of the bus (20_memory.md R36, R39), bytes of words (R40,
R41), the word stream (40_wordstream.md R65 to R67), and the ranges checked at dispatch (44_host_commands.md
R114). -/

namespace Sys2Proof.Machine

/-! ## The register map -/

/-- The register at a byte address; none for a misaligned (20_memory.md R39) or reserved (R36) one. -/
def regAt (addr : BitVec 10) : Option Reg :=
  let a := addr.toNat
  if a % 4 ≠ 0 then none
  else if a = 0x000 then some .id
  else if a = 0x004 then some .ctrl
  else if a = 0x008 then some .status
  else if a = 0x00C then some .ien
  else if a = 0x010 then some .cost
  else if a = 0x014 then some .keylen
  else if h : 0x020 ≤ a ∧ a ≤ 0x02C then some (.salt ⟨(a - 0x020) / 4, by omega⟩)
  else if a = 0x030 then some .lr0
  else if a = 0x034 then some .lr1
  else if h : 0x040 ≤ a ∧ a ≤ 0x054 then some (.ctext ⟨(a - 0x040) / 4, by omega⟩)
  else if h : 0x080 ≤ a ∧ a ≤ 0x0C4 then some (.key ⟨(a - 0x080) / 4, by omega⟩)
  else none

/-- The byte address of a register (20_memory.md R36). -/
def regAddr : Reg → BitVec 10
  | .id => 0x000 | .ctrl => 0x004 | .status => 0x008 | .ien => 0x00C | .cost => 0x010 | .keylen => 0x014
  | .salt i => BitVec.ofNat 10 (0x020 + 4 * i.val)
  | .lr0 => 0x030 | .lr1 => 0x034
  | .ctext i => BitVec.ofNat 10 (0x040 + 4 * i.val)
  | .key i => BitVec.ofNat 10 (0x080 + 4 * i.val)

/-! ## Bytes of words, big-endian -/

/-- Byte `n` of a word, `w[31-8n : 24-8n]`; byte 0 is the most significant (20_memory.md R40). -/
def byteOf (w : Word) (n : Fin 4) : Byte := w.extractLsb' (24 - 8 * n.val) 8

/-- Four bytes packed big-endian (20_memory.md R40, 40_wordstream.md R65). -/
def packBytes (b0 b1 b2 b3 : Byte) : Word := b0 ++ b1 ++ b2 ++ b3

/-- `KeyByte(k)` for `0 <= k <= 71` (20_memory.md R41). -/
def keyByte (key : Vector Word 18) (k : Fin 72) : Byte :=
  byteOf key[k.val / 4] ⟨k.val % 4, by omega⟩

/-- Salt byte `m` (20_memory.md R40). -/
def saltByte (salt : Vector Word 4) (m : Fin 16) : Byte :=
  byteOf salt[m.val / 4] ⟨m.val % 4, by omega⟩

/-- The key byte string `kb[0 .. n-1]`, `n` at most 72 (40_wordstream.md R66). -/
def keyString (key : Vector Word 18) (n : Nat) : List Byte :=
  ((List.finRange 72).map (keyByte key)).take n

/-- The sixteen salt bytes `sb[0..15]` (40_wordstream.md R67). -/
def saltString (salt : Vector Word 4) : List Byte :=
  (List.finRange 16).map (saltByte salt)

/-! ## The word stream -/

/-- `StreamWord(b, n, off)` with `n` the length of `b` (40_wordstream.md R65). The domain is `b` not empty;
there every index is within `b` and the default of `getD` is not used (`streamWord_eq`, log 15). -/
def streamWord (b : List Byte) (off : Nat) : Word :=
  packBytes (b.getD (off % b.length) 0) (b.getD ((off + 1) % b.length) 0)
    (b.getD ((off + 2) % b.length) 0) (b.getD ((off + 3) % b.length) 0)

/-- `1 <= KEYLEN <= 72`, unsigned (44_host_commands.md R114). -/
def keylenLegal (st : State) : Bool := decide (1 ≤ st.keylen.toNat ∧ st.keylen.toNat ≤ 72)

/-- `4 <= COST <= 31`, unsigned (44_host_commands.md R114). -/
def costLegal (st : State) : Bool := decide (4 ≤ st.cost.toNat ∧ st.cost.toNat ≤ 31)

/-- `KeyWord` (40_wordstream.md R66), defined for a legal `KEYLEN`. -/
def keyWord (st : State) : Option Word :=
  if keylenLegal st = true then some (streamWord (keyString st.key st.keylen.toNat) st.koff.toNat) else none

/-- `SALT[i]` for the 2-bit index `i` (40_wordstream.md R67). -/
def saltWord (st : State) (i : BitVec 2) : Word := st.salt[i.toNat]'(i.isLt)

/-- The operand of `U_XORP` (42_keyschedule.md R80): `SALT[sidx]` for kind `SCH_KSALT`, else `KeyWord`. -/
def xorpOperand (st : State) : Option Word :=
  if st.sched = .ksalt then some (saltWord st st.sidx) else keyWord st

/-- `koff <- (koff + 4) mod KEYLEN` (40_wordstream.md R66). -/
def nextKoff (st : State) : BitVec 7 := BitVec.ofNat 7 ((st.koff.toNat + 4) % st.keylen.toNat)

/-- The iteration count `1 << COST[4:0]` (43_costloop.md R97). -/
def iterationCount (st : State) : BitVec 32 := 1#32 <<< st.cost.extractLsb' 0 5

end Sys2Proof.Machine
end

