-- ==== Sys2Proof/Machine/Ops.lean ====
section
/-! DEFINITION. The named operations the meanings share: the flat view `PS`, the groups of assignments
`StartSched`, `EndSched`, `Finish`, command dispatch and acceptance, and the parts of a clock cycle that are no
instruction. Taking and clearing an error are `raise` and `writeOnesToClear` in Flags.lean. -/

namespace Sys2Proof.Machine

/-! ## The flat view `PS` (10_state.md R12) -/

/-- The contents of `P` and `S` of a state. -/
def State.schedule (st : State) : Schedule := ⟨st.p, st.sbox⟩

/-- `PS[k]` (10_state.md R12). -/
def psRead (ps : Schedule) (k : Fin 1042) : Word :=
  if h : k.val < 18 then ps.p[k.val]
  else (ps.sbox[(k.val - 18) / 256])[(k.val - 18) % 256]

/-- `PS[k] <- v` (10_state.md R12). -/
def psWrite (ps : Schedule) (k : Fin 1042) (v : Word) : Schedule :=
  if h : k.val < 18 then { ps with p := ps.p.set k.val v }
  else
    { ps with
      sbox := ps.sbox.set ((k.val - 18) / 256) ((ps.sbox[(k.val - 18) / 256]).set ((k.val - 18) % 256) v) }

/-- `PS[k] <- v` on the state. -/
def storeWord (k : Fin 1042) (v : Word) (st : State) : State :=
  let ps := psWrite st.schedule k v
  { st with p := ps.p, sbox := ps.sbox }

/-- `PSV <- 0`: from here the contents of `P` and `S` are unspecified (10_state.md R29,
93_implementation_defined.md U1), so every word takes a fresh free value (log 3, log 4). -/
def loseSchedule (st : State) : State :=
  { st with
    psv := false
    epoch := st.epoch + 1
    p := unspecifiedP (st.epoch + 1)
    sbox := unspecifiedS (st.epoch + 1) }

/-! ## Sequencer groups -/

/-- `StartSched(kind)` (42_keyschedule.md R83). -/
def startSched (kind : SchedKind) (st : State) : State :=
  { st with sched := kind, widx := 0, koff := 0, sidx := 0, phase := .xorp }

/-- The phase in which the next block of a run begins: `PH_SALT` in a run of kind `SCH_EKS`, else `PH_ROUND`
(42_keyschedule.md R80, R85). -/
def blockPhase (kind : SchedKind) : Phase := if kind = .eks then .salt else .round

/-- `Finish` (43_costloop.md R104). -/
def finish (st : State) : State :=
  { st with busy := false, done := true, phase := .idle, sched := .none }

/-- `EndSched` (43_costloop.md R96). The combinations of `op` and `sched` that R96 says do not occur assign
nothing (log 7). -/
def endSched (st : State) : State :=
  match st.op with
  | .keyPw => finish st
  | .keySalt => finish st
  | .ekskey => finish st
  | .crypt =>
    match st.sched with
    | .eks => startSched .kpw { st with iter := iterationCount st }
    | .kpw => startSched .ksalt st
    | .ksalt =>
      if st.iter = 1 then { st with iter := 0, sched := .none, phase := .cload }
      else startSched .kpw { st with iter := st.iter - 1 }
    | .none => st
  | .none => st
  | .init => st
  | .encipher => st

/-! ## Commands -/

/-- Which preconditions a command has (44_host_commands.md R114 step 5). -/
structure Needs where
  /-- `need_ps` -/
  ps : Bool
  /-- `need_key` -/
  key : Bool
  /-- `need_cost` -/
  cost : Bool
deriving DecidableEq, Repr

/-- `bad_seq` of 44_host_commands.md R114. -/
def badSeq (n : Needs) (st : State) : Bool := n.ps && !st.psv

/-- `bad_len` of 44_host_commands.md R114. -/
def badLen (n : Needs) (st : State) : Bool := n.key && !keylenLegal st

/-- `bad_cost` of 44_host_commands.md R114. -/
def badCost (n : Needs) (st : State) : Bool := n.cost && !costLegal st

/-- The refusal of a command whose preconditions fail: all the flags that apply, at the same edge
(44_host_commands.md R114 step 5). -/
def refuseCommand (n : Needs) (st : State) : State :=
  { st with
    eSeq := st.eSeq || badSeq n st
    eKeylen := st.eKeylen || badLen n st
    eCost := st.eCost || badCost n st }

/-- Steps 4 to 6 of the dispatch of a command (44_host_commands.md R114): refused while busy, refused when a
precondition fails, else `start`. -/
def dispatch (n : Needs) (start : State → State) (st : State) : State :=
  if st.busy then raise .busy st
  else if badSeq n st || badLen n st || badCost n st then refuseCommand n st
  else start st

/-- What the acceptance of every command in 1..6 assigns (44_host_commands.md R115). -/
def accept (c : CmdOp) (st : State) : State :=
  { st with busy := true, done := false, op := c }

/-- What the acceptance of `INIT` and `CRYPT` assigns besides (44_host_commands.md R115). -/
def startInit (st : State) : State :=
  { loseSchedule st with widx := 0, sched := .none, phase := .init }

/-- What the acceptance of `ENCIPHER` assigns besides (44_host_commands.md R115). -/
def startEncipher (st : State) : State :=
  { st with sched := .none, rnd := 1, phase := .round }

/-! ## Parts of a clock cycle (44_host_commands.md R110) -/

/-- The port inputs of the coming cycle: the next of the host's list, or `rst = 0`, `sel = 0` (log 1). -/
def currentPorts (st : State) : PortIn := st.inputs.headD portIdle

/-- The start of a cycle: the inputs of this cycle are taken off the list, `irq` is driven from the pre-edge
state and `rdata` is 0 unless a read drives it (R110 (1), 20_memory.md R37). -/
def beginCycle (st : State) : State :=
  { st with inputs := st.inputs.tail, out := ⟨0, irqLine st⟩ }

/-- The edge that ends a cycle with `rst = 1` (70_reset_and_hazards.md R145): the reset state; the contents of
`P` and `S` are unspecified (R146). The host's further inputs and the outputs of this cycle are no state of the
core and stay. -/
def resetCycle (st : State) : State :=
  { State.reset with
    epoch := st.epoch + 1
    p := unspecifiedP (st.epoch + 1)
    sbox := unspecifiedS (st.epoch + 1)
    inputs := st.inputs
    out := st.out }

/-- The micro-operation of the cycle (30_encoding.md R54): the one `phase` selects while `BUSY = 1`, else
`U_IDLE`. -/
def fetchEngine (st : State) : Instr := if st.busy then phaseInstr st.phase else .uIdle

/-- A state in which the engine is about to perform the micro-operation of phase `ph`, set as the sequencer
itself sets it when it enters that phase (44_host_commands.md R115; 42_keyschedule.md R80, R81, R83;
43_costloop.md R95 to R99): the way a `UOP` value is put where `step` fetches it (log 2). -/
def selectPhase (ph : Phase) (st : State) : State :=
  match ph with
  | .idle => { st with busy := false, phase := .idle, sched := .none }
  | .init => { st with busy := true, done := false, op := .init, phase := .init, sched := .none, psv := false, widx := 0 }
  | .xorp => { startSched .ksalt st with busy := true, done := false, op := .keySalt, psv := true }
  | .salt =>
    { st with busy := true, done := false, op := .ekskey, phase := .salt, sched := .eks, psv := true, widx := 0, sidx := 0 }
  | .round => { startEncipher st with busy := true, done := false, op := .encipher, psv := true }
  | .st0 => { st with busy := true, done := false, op := .keySalt, phase := .st0, sched := .ksalt, psv := true, widx := 0 }
  | .st1 => { st with busy := true, done := false, op := .keySalt, phase := .st1, sched := .ksalt, psv := true, widx := 0 }
  | .cload => { st with busy := true, done := false, op := .crypt, phase := .cload, sched := .none, psv := true }
  | .bld => { st with busy := true, done := false, op := .crypt, phase := .bld, sched := .none, psv := true, pass := 0, chunk := 0 }
  | .bst => { st with busy := true, done := false, op := .crypt, phase := .bst, sched := .none, psv := true, pass := 0, chunk := 0 }

end Sys2Proof.Machine
end

