-- ==== Sys2Proof/Machine/Commands.lean ====
section
/-! DEFINITION. The eight commands: the effect, at its own edge, of the `CTRL` write that is the command
(44_host_commands.md R114 to R123). What a command computes is done by the micro-operations of the cycles that
follow. -/

namespace Sys2Proof.Machine

/-- NOP (44_host_commands.md R116): nothing, also while busy. -/
def execNop (st : State) : Host.Outcome State Fault Refusal := .next st

/-- INIT (44_host_commands.md R117, R115): no precondition but `BUSY = 0`. -/
def execInit (st : State) : Host.Outcome State Fault Refusal :=
  .next (dispatch ⟨false, false, false⟩ (fun s => startInit (accept .init s)) st)

/-- ENCIPHER (R118, R115): needs `PSV = 1`. -/
def execEncipher (st : State) : Host.Outcome State Fault Refusal :=
  .next (dispatch ⟨true, false, false⟩ (fun s => startEncipher (accept .encipher s)) st)

/-- KEY_PW (R119, R115): needs `PSV = 1` and a legal `KEYLEN`. -/
def execKeyPw (st : State) : Host.Outcome State Fault Refusal :=
  .next (dispatch ⟨true, true, false⟩ (fun s => startSched .kpw (accept .keyPw s)) st)

/-- KEY_SALT (R120, R115): needs `PSV = 1`. -/
def execKeySalt (st : State) : Host.Outcome State Fault Refusal :=
  .next (dispatch ⟨true, false, false⟩ (fun s => startSched .ksalt (accept .keySalt s)) st)

/-- EKSKEY (R121, R115): needs `PSV = 1` and a legal `KEYLEN`. -/
def execEkskey (st : State) : Host.Outcome State Fault Refusal :=
  .next (dispatch ⟨true, true, false⟩ (fun s => startSched .eks (accept .ekskey s)) st)

/-- CRYPT (R122, R115): needs a legal `KEYLEN` and a legal `COST`. -/
def execCrypt (st : State) : Host.Outcome State Fault Refusal :=
  .next (dispatch ⟨false, true, true⟩ (fun s => startInit (accept .crypt s)) st)

/-- ABORT (R123): accepted in every state. `P` and `S` become unspecified (log 4). -/
def execAbort (st : State) : Host.Outcome State Fault Refusal :=
  .next { loseSchedule st with
    busy := false, done := false
    l := 0, r := 0, ctext := Vector.replicate 6 0
    op := .none, phase := .idle, sched := .none
    widx := 0, rnd := 0, koff := 0, sidx := 0, iter := 0, pass := 0, chunk := 0 }

end Sys2Proof.Machine
end

