-- ==== Sys2Proof/Machine/Bus.lean ====
section
/-! DEFINITION. The two bus transactions (44_host_commands.md R111 to R114, R124). -/

namespace Sys2Proof.Machine

/-- The value of a register that reads as 0 while a command runs (44_host_commands.md R111). -/
def hiddenWhileBusy (st : State) (w : Word) : Word := if st.busy then 0 else w

/-- The value a read of a mapped register returns (44_host_commands.md R111). -/
def readReg (st : State) : Reg → Word
  | .id => 0x42463136
  | .ctrl => 0
  | .status => statusWord st
  | .ien => BitVec.setWidth 32 (BitVec.ofBool st.ien)
  | .cost => st.cost
  | .keylen => st.keylen
  | .salt i => st.salt[i.val]
  | .lr0 => hiddenWhileBusy st st.l
  | .lr1 => hiddenWhileBusy st st.r
  | .ctext i => hiddenWhileBusy st st.ctext[i.val]
  | .key _ => 0

/-- `ReadValue(s, addr)` (44_host_commands.md R111). -/
def readValue (st : State) (addr : BitVec 10) : Word :=
  match regAt addr with
  | some reg => readReg st reg
  | none => 0

/-- RD addr: `rdata` carries `ReadValue` (R111, log 8); a misaligned or reserved address raises `E_ADDR`, every
other read assigns nothing (R112). -/
def execRd (addr : BitVec 10) (st : State) : Host.Outcome State Fault Refusal :=
  let st1 := { st with out := { st.out with rdata := readValue st addr } }
  match regAt addr with
  | some _ => .next st1
  | none => .next (raise .addr st1)

/-- A write to an operand register (44_host_commands.md R113): ignored with `E_BUSY` while a command runs, else
`store`. -/
def writeOperand (store : State → State) (st : State) : State :=
  if st.busy then raise .busy st else store st

/-- A write to `CTRL` (44_host_commands.md R114): an illegal word raises `E_OP` and does nothing else; a
well-formed one is the command. -/
def writeCtrl (wdata : Word) (st : State) : Host.Outcome State Fault Refusal :=
  match decodeCmd wdata with
  | .ok .nop => execNop st
  | .ok .init => execInit st
  | .ok .encipher => execEncipher st
  | .ok .keyPw => execKeyPw st
  | .ok .keySalt => execKeySalt st
  | .ok .ekskey => execEkskey st
  | .ok .crypt => execCrypt st
  | .ok .abort => execAbort st
  | .ok (.rd _) | .ok (.wr _ _) | .ok .uIdle | .ok .uInit | .ok .uXorp | .ok .uSalt | .ok .uRound
  | .ok .uSt0 | .ok .uSt1 | .ok .uCload | .ok .uBld | .ok .uBst
  | .error _ => .next (raise .op st)

/-- WR addr, wdata (44_host_commands.md R113). -/
def execWr (addr : BitVec 10) (wdata : Word) (st : State) : Host.Outcome State Fault Refusal :=
  match regAt addr with
  | none => .next (raise .addr st)
  | some .id => .next (raise .addr st)
  | some (.ctext _) => .next (raise .addr st)
  | some .ctrl => writeCtrl wdata st
  | some .status => .next (writeOnesToClear wdata st)
  | some .ien => .next { st with ien := wdata.getLsbD 0 }
  | some .cost => .next (writeOperand (fun s => { s with cost := wdata }) st)
  | some .keylen => .next (writeOperand (fun s => { s with keylen := wdata }) st)
  | some (.salt i) => .next (writeOperand (fun s => { s with salt := s.salt.set i.val wdata }) st)
  | some .lr0 => .next (writeOperand (fun s => { s with l := wdata }) st)
  | some .lr1 => .next (writeOperand (fun s => { s with r := wdata }) st)
  | some (.key i) => .next (writeOperand (fun s => { s with key := s.key.set i.val wdata }) st)

end Sys2Proof.Machine
end

