-- ==== Sys2Proof/Machine/Cipher.lean ====
section
/-! DEFINITION. The Feistel round function datapath (41_feistel.md): `F`, `RoundStep`, `Encipher`, and the
micro-operation `U_ROUND`. -/

namespace Sys2Proof.Machine

/-- A word of an S-box bank, indexed by one byte (41_feistel.md R70). -/
def bankRead (bank : SBank) (i : BitVec 8) : Word := bank[i.toNat]'(i.isLt)

/-- `F(x, S)` (41_feistel.md R70): `((S[0][a] + S[1][b]) ^ S[2][c]) + S[3][d]`, `a` the most significant
byte of `x`. -/
def feistelF (x : Word) (s : SBoxes) : Word :=
  ((bankRead s[0] (byteOf x 0) + bankRead s[1] (byteOf x 1)) ^^^ bankRead s[2] (byteOf x 2))
    + bankRead s[3] (byteOf x 3)

/-- `RoundStep(rnd, L, R, P, S)` for `1 <= rnd <= 16`, by its four cases (41_feistel.md R72). The index type
is that of `P`; 0 and 17 are outside the domain and nothing applies the function there (log 15). -/
def roundStep (rnd : Fin 18) (b : Block) (ps : Schedule) : Block :=
  if rnd.val = 1 then
    let l0 := b.l ^^^ ps.p[0]
    ⟨l0, b.r ^^^ feistelF l0 ps.sbox ^^^ ps.p[1]⟩
  else if rnd.val = 16 then
    let l16 := b.l ^^^ feistelF b.r ps.sbox ^^^ ps.p[16]
    ⟨b.r ^^^ ps.p[17], l16⟩
  else if rnd.val % 2 = 1 then
    ⟨b.l, b.r ^^^ feistelF b.l ps.sbox ^^^ ps.p[rnd.val]⟩
  else
    ⟨b.l ^^^ feistelF b.r ps.sbox ^^^ ps.p[rnd.val], b.r⟩

/-- The first `n` of the sixteen round steps (41_feistel.md R74). -/
def encipherRounds (n : Nat) (hn : n ≤ 16) (b : Block) (ps : Schedule) : Block :=
  Nat.fold n (fun i hi b => roundStep ⟨i + 1, by omega⟩ b ps) b

/-- `Encipher(L0, R0, P, S)`: the sixteen round steps in order (41_feistel.md R74). -/
def encipher (b : Block) (ps : Schedule) : Block := encipherRounds 16 (by omega) b ps

/-- U_ROUND (41_feistel.md R73). Outside 1..16 `RoundStep` is not defined; `rnd` never is there in this phase
(log 6). -/
def execURound (st : State) : Host.Outcome State Fault Refusal :=
  if h : 1 ≤ st.rnd.toNat ∧ st.rnd.toNat ≤ 16 then
    let b := roundStep ⟨st.rnd.toNat, by omega⟩ ⟨st.l, st.r⟩ st.schedule
    let st1 := { st with l := b.l, r := b.r }
    if st.rnd.toNat < 16 then .next { st1 with rnd := st.rnd + 1 }
    else if st.sched ≠ .none then .next { st1 with phase := .st0 }
    else if st.op = .encipher then .next (finish st1)
    else .next { st1 with phase := .bst }
  else .fault .roundNumber

end Sys2Proof.Machine
end

