-- ==== Sys2Proof/Machine/KeySchedule.lean ====
section
/-! DEFINITION. The key-schedule engine (42_keyschedule.md): `Key`, `EksKey`, and the micro-operations
`U_XORP`, `U_SALT`, `U_ST0`, `U_ST1`. -/

namespace Sys2Proof.Machine

/-! ## The functions -/

/-- Stage 1 of `Key` and `EksKey`: word `i` of the stream is XORed into `P[i]`, for the first `n` words
(42_keyschedule.md R86). -/
def xorPass (n : Nat) (hn : n ≤ 18) (w : Nat → Word) (ps : Schedule) : Schedule :=
  { ps with p := Nat.fold n (fun i hi p => p.set i (p[i] ^^^ w i)) ps.p }

/-- One block of stage 2 (42_keyschedule.md R86, R87): what is done to the block before enciphering (`mix`),
`Encipher` with the schedule as it is at that moment, and the two stores `PS[2m]`, `PS[2m+1]`. -/
def fillBlock (mix : Nat → Block → Block) (m : Nat) (hm : m < 521) (acc : Block × Schedule) : Block × Schedule :=
  let b := encipher (mix m acc.1) acc.2
  (b, psWrite (psWrite acc.2 ⟨2 * m, by omega⟩ b.l) ⟨2 * m + 1, by omega⟩ b.r)

/-- The first `n` blocks of stage 2, from the all-zero block (42_keyschedule.md R86). -/
def fill (n : Nat) (hn : n ≤ 521) (mix : Nat → Block → Block) (ps : Schedule) : Block × Schedule :=
  Nat.fold n (fun m hm acc => fillBlock mix m (by omega) acc) (⟨0, 0⟩, ps)

/-- The salt words XORed into the block before encipherment `m` (42_keyschedule.md R87). -/
def saltMix (salt : Vector Word 4) (m : Nat) (b : Block) : Block :=
  ⟨b.l ^^^ salt[(2 * m) % 4], b.r ^^^ salt[(2 * m + 1) % 4]⟩

/-- `Key(data, n, P, S)` with `n` the length of `data`, at least 1 (42_keyschedule.md R86). -/
def keyFn (data : List Byte) (ps : Schedule) : Schedule :=
  (fill 521 (by omega) (fun _ b => b) (xorPass 18 (by omega) (fun i => streamWord data (4 * i)) ps)).2

/-- `EksKey(content, n, salt, P, S)` with `n` the length of `content`, at least 1 (42_keyschedule.md R87). -/
def eksKeyFn (content : List Byte) (salt : Vector Word 4) (ps : Schedule) : Schedule :=
  (fill 521 (by omega) (saltMix salt) (xorPass 18 (by omega) (fun i => streamWord content (4 * i)) ps)).2

/-! ## The micro-operations -/

/-- U_XORP (42_keyschedule.md R80). -/
def execUXorp (st : State) : Host.Outcome State Fault Refusal :=
  if h : st.widx.toNat < 18 then
    match xorpOperand st with
    | none => .fault .keyLength
    | some w =>
      let st1 := { st with
        p := st.p.set st.widx.toNat (st.p[st.widx.toNat] ^^^ w)
        koff := if st.sched = SchedKind.ksalt then st.koff else nextKoff st }
      if st.widx.toNat < 17 then
        .next { st1 with
          widx := st.widx + 1
          sidx := if st.sched = SchedKind.ksalt then st.sidx + 1 else st.sidx }
      else
        .next { st1 with
          widx := 0, sidx := 0, l := 0, r := 0, rnd := 1
          phase := blockPhase st.sched }
  else .fault .scheduleIndex

/-- U_SALT (42_keyschedule.md R81). The 2-bit `sidx` wraps modulo 4. -/
def execUSalt (st : State) : Host.Outcome State Fault Refusal :=
  .next { st with
    l := st.l ^^^ saltWord st st.sidx
    r := st.r ^^^ saltWord st (st.sidx + 1)
    sidx := st.sidx + 2
    rnd := 1
    phase := .round }

/-- U_ST0 (42_keyschedule.md R84). -/
def execUSt0 (st : State) : Host.Outcome State Fault Refusal :=
  if h : st.widx.toNat < 1042 then
    .next { storeWord ⟨st.widx.toNat, h⟩ st.l st with phase := .st1 }
  else .fault .scheduleIndex

/-- U_ST1 (42_keyschedule.md R85), with `EndSched` after the last block. -/
def execUSt1 (st : State) : Host.Outcome State Fault Refusal :=
  if h : st.widx.toNat + 1 < 1042 then
    let st1 := storeWord ⟨st.widx.toNat + 1, h⟩ st.r st
    if st.widx.toNat < 1040 then
      .next { st1 with
        widx := st.widx + 2
        rnd := 1
        phase := blockPhase st.sched }
    else .next (endSched st1)
  else .fault .scheduleIndex

end Sys2Proof.Machine
end

