-- ==== Sys2Proof/Machine/Rom.lean ====
section
/-! DEFINITION. The constant store (15_constants.md). One numeral per row of the spec's tables, its words
separated by underscores as the columns are, the word of column `+0` in the most significant place. -/

namespace Sys2Proof.Machine

/-- Word `col` (from the left) of a table row of `cols` words written as one numeral. -/
def tableWord (cols row col : Nat) : Word :=
  BitVec.ofNat 32 (row >>> (32 * (cols - 1 - col)))

/-- `P_ORIG[0..17]`, rows of six words (R31). -/
def pOrigRows : List Nat := [
  0x243f6a88_85a308d3_13198a2e_03707344_a4093822_299f31d0,
  0x082efa98_ec4e6c89_452821e6_38d01377_be5466cf_34e90c6c,
  0xc0ac29b7_c97c50dd_3f84d5b5_b5470917_9216d5d9_8979fb1b]

/-- `S_ORIG[0][0..127]`, rows of eight words (R32). -/
def sOrig0RowsLow : List Nat := [
  0xd1310ba6_98dfb5ac_2ffd72db_d01adfb7_b8e1afed_6a267e96_ba7c9045_f12c7f99,
  0x24a19947_b3916cf7_0801f2e2_858efc16_636920d8_71574e69_a458fea3_f4933d7e,
  0x0d95748f_728eb658_718bcd58_82154aee_7b54a41d_c25a59b5_9c30d539_2af26013,
  0xc5d1b023_286085f0_ca417918_b8db38ef_8e79dcb0_603a180e_6c9e0e8b_b01e8a3e,
  0xd71577c1_bd314b27_78af2fda_55605c60_e65525f3_aa55ab94_57489862_63e81440,
  0x55ca396a_2aab10b6_b4cc5c34_1141e8ce_a15486af_7c72e993_b3ee1411_636fbc2a,
  0x2ba9c55d_741831f6_ce5c3e16_9b87931e_afd6ba33_6c24cf5c_7a325381_28958677,
  0x3b8f4898_6b4bb9af_c4bfe81b_66282193_61d809cc_fb21a991_487cac60_5dec8032,
  0xef845d5d_e98575b1_dc262302_eb651b88_23893e81_d396acc5_0f6d6ff3_83f44239,
  0x2e0b4482_a4842004_69c8f04a_9e1f9b5e_21c66842_f6e96c9a_670c9c61_abd388f0,
  0x6a51a0d2_d8542f68_960fa728_ab5133a3_6eef0b6c_137a3be4_ba3bf050_7efb2a98,
  0xa1f1651d_39af0176_66ca593e_82430e88_8cee8619_456f9fb4_7d84a5c3_3b8b5ebe,
  0xe06f75d8_85c12073_401a449f_56c16aa6_4ed3aa62_363f7706_1bfedf72_429b023d,
  0x37d0d724_d00a1248_db0fead3_49f1c09b_075372c9_80991b7b_25d479d8_f6e8def7,
  0xe3fe501a_b6794c3b_976ce0bd_04c006ba_c1a94fb6_409f60c4_5e5c9ec2_196a2463,
  0x68fb6faf_3e6c53b5_1339b2eb_3b52ec6f_6dfc511f_9b30952c_cc814544_af5ebd09]

/-- `S_ORIG[0][128..255]` (R32). -/
def sOrig0RowsHigh : List Nat := [
  0xbee3d004_de334afd_660f2807_192e4bb3_c0cba857_45c8740f_d20b5f39_b9d3fbdb,
  0x5579c0bd_1a60320a_d6a100c6_402c7279_679f25fe_fb1fa3cc_8ea5e9f8_db3222f8,
  0x3c7516df_fd616b15_2f501ec8_ad0552ab_323db5fa_fd238760_53317b48_3e00df82,
  0x9e5c57bb_ca6f8ca0_1a87562e_df1769db_d542a8f6_287effc3_ac6732c6_8c4f5573,
  0x695b27b0_bbca58c8_e1ffa35d_b8f011a0_10fa3d98_fd2183b8_4afcb56c_2dd1d35b,
  0x9a53e479_b6f84565_d28e49bc_4bfb9790_e1ddf2da_a4cb7e33_62fb1341_cee4c6e8,
  0xef20cada_36774c01_d07e9efe_2bf11fb4_95dbda4d_ae909198_eaad8e71_6b93d5a0,
  0xd08ed1d0_afc725e0_8e3c5b2f_8e7594b7_8ff6e2fb_f2122b64_8888b812_900df01c,
  0x4fad5ea0_688fc31c_d1cff191_b3a8c1ad_2f2f2218_be0e1777_ea752dfe_8b021fa1,
  0xe5a0cc0f_b56f74e8_18acf3d6_ce89e299_b4a84fe0_fd13e0b7_7cc43b81_d2ada8d9,
  0x165fa266_80957705_93cc7314_211a1477_e6ad2065_77b5fa86_c75442f5_fb9d35cf,
  0xebcdaf0c_7b3e89a0_d6411bd3_ae1e7e49_00250e2d_2071b35e_226800bb_57b8e0af,
  0x2464369b_f009b91e_5563911d_59dfa6aa_78c14389_d95a537f_207d5ba2_02e5b9c5,
  0x83260376_6295cfa9_11c81968_4e734a41_b3472dca_7b14a94a_1b510052_9a532915,
  0xd60f573f_bc9bc6e4_2b60a476_81e67400_08ba6fb5_571be91f_f296ec6b_2a0dd915,
  0xb6636521_e7b9f9b6_ff34052e_c5855664_53b02d5d_a99f8fa1_08ba4799_6e85076a]

/-- `S_ORIG[1][0..127]`, rows of eight words (R32). -/
def sOrig1RowsLow : List Nat := [
  0x4b7a70e9_b5b32944_db75092e_c4192623_ad6ea6b0_49a7df7d_9cee60b8_8fedb266,
  0xecaa8c71_699a17ff_5664526c_c2b19ee1_193602a5_75094c29_a0591340_e4183a3e,
  0x3f54989a_5b429d65_6b8fe4d6_99f73fd6_a1d29c07_efe830f5_4d2d38e6_f0255dc1,
  0x4cdd2086_8470eb26_6382e9c6_021ecc5e_09686b3f_3ebaefc9_3c971814_6b6a70a1,
  0x687f3584_52a0e286_b79c5305_aa500737_3e07841c_7fdeae5c_8e7d44ec_5716f2b8,
  0xb03ada37_f0500c0d_f01c1f04_0200b3ff_ae0cf51a_3cb574b2_25837a58_dc0921bd,
  0xd19113f9_7ca92ff6_94324773_22f54701_3ae5e581_37c2dadc_c8b57634_9af3dda7,
  0xa9446146_0fd0030e_ecc8c73e_a4751e41_e238cd99_3bea0e2f_3280bba1_183eb331,
  0x4e548b38_4f6db908_6f420d03_f60a04bf_2cb81290_24977c79_5679b072_bcaf89af,
  0xde9a771f_d9930810_b38bae12_dccf3f2e_5512721f_2e6b7124_501adde6_9f84cd87,
  0x7a584718_7408da17_bc9f9abc_e94b7d8c_ec7aec3a_db851dfa_63094366_c464c3d2,
  0xef1c1847_3215d908_dd433b37_24c2ba16_12a14d43_2a65c451_50940002_133ae4dd,
  0x71dff89e_10314e55_81ac77d6_5f11199b_043556f1_d7a3c76b_3c11183b_5924a509,
  0xf28fe6ed_97f1fbfa_9ebabf2c_1e153c6e_86e34570_eae96fb1_860e5e0a_5a3e2ab3,
  0x771fe71c_4e3d06fa_2965dcb9_99e71d0f_803e89d6_5266c825_2e4cc978_9c10b36a,
  0xc6150eba_94e2ea78_a5fc3c53_1e0a2df4_f2f74ea7_361d2b3d_1939260f_19c27960]

/-- `S_ORIG[1][128..255]` (R32). -/
def sOrig1RowsHigh : List Nat := [
  0x5223a708_f71312b6_ebadfe6e_eac31f66_e3bc4595_a67bc883_b17f37d1_018cff28,
  0xc332ddef_be6c5aa5_65582185_68ab9802_eecea50f_db2f953b_2aef7dad_5b6e2f84,
  0x1521b628_29076170_ecdd4775_619f1510_13cca830_eb61bd96_0334fe1e_aa0363cf,
  0xb5735c90_4c70a239_d59e9e0b_cbaade14_eecc86bc_60622ca7_9cab5cab_b2f3846e,
  0x648b1eaf_19bdf0ca_a02369b9_655abb50_40685a32_3c2ab4b3_319ee9d5_c021b8f7,
  0x9b540b19_875fa099_95f7997e_623d7da8_f837889a_97e32d77_11ed935f_16681281,
  0x0e358829_c7e61fd6_96dedfa1_7858ba99_57f584a5_1b227263_9b83c3ff_1ac24696,
  0xcdb30aeb_532e3054_8fd948e4_6dbc3128_58ebf2ef_34c6ffea_fe28ed61_ee7c3c73,
  0x5d4a14d9_e864b7e3_42105d14_203e13e0_45eee2b6_a3aaabea_db6c4f15_facb4fd0,
  0xc742f442_ef6abbb5_654f3b1d_41cd2105_d81e799e_86854dc7_e44b476a_3d816250,
  0xcf62a1f2_5b8d2646_fc8883a0_c1c7b6a3_7f1524c3_69cb7492_47848a0b_5692b285,
  0x095bbf00_ad19489d_1462b174_23820e00_58428d2a_0c55f5ea_1dadf43e_233f7061,
  0x3372f092_8d937e41_d65fecf1_6c223bdb_7cde3759_cbee7460_4085f2a7_ce77326e,
  0xa6078084_19f8509e_e8efd855_61d99735_a969a7aa_c50c06c2_5a04abfc_800bcadc,
  0x9e447a2e_c3453484_fdd56705_0e1e9ec9_db73dbd3_105588cd_675fda79_e3674340,
  0xc5c43465_713e38d8_3d28f89e_f16dff20_153e21e7_8fb03d4a_e6e39f2b_db83adf7]

/-- `S_ORIG[2][0..127]`, rows of eight words (R32). -/
def sOrig2RowsLow : List Nat := [
  0xe93d5a68_948140f7_f64c261c_94692934_411520f7_7602d4f7_bcf46b2e_d4a20068,
  0xd4082471_3320f46a_43b7d4b7_500061af_1e39f62e_97244546_14214f74_bf8b8840,
  0x4d95fc1d_96b591af_70f4ddd3_66a02f45_bfbc09ec_03bd9785_7fac6dd0_31cb8504,
  0x96eb27b3_55fd3941_da2547e6_abca0a9a_28507825_530429f4_0a2c86da_e9b66dfb,
  0x68dc1462_d7486900_680ec0a4_27a18dee_4f3ffea2_e887ad8c_b58ce006_7af4d6b6,
  0xaace1e7c_d3375fec_ce78a399_406b2a42_20fe9e35_d9f385b9_ee39d7ab_3b124e8b,
  0x1dc9faf7_4b6d1856_26a36631_eae397b2_3a6efa74_dd5b4332_6841e7f7_ca7820fb,
  0xfb0af54e_d8feb397_454056ac_ba489527_55533a3a_20838d87_fe6ba9b7_d096954b,
  0x55a867bc_a1159a58_cca92963_99e1db33_a62a4a56_3f3125f9_5ef47e1c_9029317c,
  0xfdf8e802_04272f70_80bb155c_05282ce3_95c11548_e4c66d22_48c1133f_c70f86dc,
  0x07f9c9ee_41041f0f_404779a4_5d886e17_325f51eb_d59bc0d1_f2bcc18f_41113564,
  0x257b7834_602a9c60_dff8e8a3_1f636c1b_0e12b4c2_02e1329e_af664fd1_cad18115,
  0x6b2395e0_333e92e1_3b240b62_eebeb922_85b2a20e_e6ba0d99_de720c8c_2da2f728,
  0xd0127845_95b794fd_647d0862_e7ccf5f0_5449a36f_877d48fa_c39dfd27_f33e8d1e,
  0x0a476341_992eff74_3a6f6eab_f4f8fd37_a812dc60_a1ebddf8_991be14c_db6e6b0d,
  0xc67b5510_6d672c37_2765d43b_dcd0e804_f1290dc7_cc00ffa3_b5390f92_690fed0b]

/-- `S_ORIG[2][128..255]` (R32). -/
def sOrig2RowsHigh : List Nat := [
  0x667b9ffb_cedb7d9c_a091cf0b_d9155ea3_bb132f88_515bad24_7b9479bf_763bd6eb,
  0x37392eb3_cc115979_8026e297_f42e312d_6842ada7_c66a2b3b_12754ccc_782ef11c,
  0x6a124237_b79251e7_06a1bbe6_4bfb6350_1a6b1018_11caedfa_3d25bdd8_e2e1c3c9,
  0x44421659_0a121386_d90cec6e_d5abea2a_64af674e_da86a85f_bebfe988_64e4c3fe,
  0x9dbc8057_f0f7c086_60787bf8_6003604d_d1fd8346_f6381fb0_7745ae04_d736fccc,
  0x83426b33_f01eab71_b0804187_3c005e5f_77a057be_bde8ae24_55464299_bf582e61,
  0x4e58f48f_f2ddfda2_f474ef38_8789bdc2_5366f9c3_c8b38e74_b475f255_46fcd9b9,
  0x7aeb2661_8b1ddf84_846a0e79_915f95e2_466e598e_20b45770_8cd55591_c902de4c,
  0xb90bace1_bb8205d0_11a86248_7574a99e_b77f19b6_e0a9dc09_662d09a1_c4324633,
  0xe85a1f02_09f0be8c_4a99a025_1d6efe10_1ab93d1d_0ba5a4df_a186f20f_2868f169,
  0xdcb7da83_573906fe_a1e2ce9b_4fcd7f52_50115e01_a70683fa_a002b5c4_0de6d027,
  0x9af88c27_773f8641_c3604c06_61a806b5_f0177a28_c0f586e0_006058aa_30dc7d62,
  0x11e69ed7_2338ea63_53c2dd94_c2c21634_bbcbee56_90bcb6de_ebfc7da1_ce591d76,
  0x6f05e409_4b7c0188_39720a3d_7c927c24_86e3725f_724d9db9_1ac15bb4_d39eb8fc,
  0xed545578_08fca5b5_d83d7cd3_4dad0fc4_1e50ef5e_b161e6f8_a28514d9_6c51133c,
  0x6fd5c7e7_56e14ec4_362abfce_ddc6c837_d79a3234_92638212_670efa8e_406000e0]

/-- `S_ORIG[3][0..127]`, rows of eight words (R32). -/
def sOrig3RowsLow : List Nat := [
  0x3a39ce37_d3faf5cf_abc27737_5ac52d1b_5cb0679e_4fa33742_d3822740_99bc9bbe,
  0xd5118e9d_bf0f7315_d62d1c7e_c700c47b_b78c1b6b_21a19045_b26eb1be_6a366eb4,
  0x5748ab2f_bc946e79_c6a376d2_6549c2c8_530ff8ee_468dde7d_d5730a1d_4cd04dc6,
  0x2939bbdb_a9ba4650_ac9526e8_be5ee304_a1fad5f0_6a2d519a_63ef8ce2_9a86ee22,
  0xc089c2b8_43242ef6_a51e03aa_9cf2d0a4_83c061ba_9be96a4d_8fe51550_ba645bd6,
  0x2826a2f9_a73a3ae1_4ba99586_ef5562e9_c72fefd3_f752f7da_3f046f69_77fa0a59,
  0x80e4a915_87b08601_9b09e6ad_3b3ee593_e990fd5a_9e34d797_2cf0b7d9_022b8b51,
  0x96d5ac3a_017da67d_d1cf3ed6_7c7d2d28_1f9f25cf_adf2b89b_5ad6b472_5a88f54c,
  0xe029ac71_e019a5e6_47b0acfd_ed93fa9b_e8d3c48d_283b57cc_f8d56629_79132e28,
  0x785f0191_ed756055_f7960e44_e3d35e8c_15056dd4_88f46dba_03a16125_0564f0bd,
  0xc3eb9e15_3c9057a2_97271aec_a93a072a_1b3f6d9b_1e6321f5_f59c66fb_26dcf319,
  0x7533d928_b155fdf5_03563482_8aba3cbb_28517711_c20ad9f8_abcc5167_ccad925f,
  0x4de81751_3830dc8e_379d5862_9320f991_ea7a90c2_fb3e7bce_5121ce64_774fbe32,
  0xa8b6e37e_c3293d46_48de5369_6413e680_a2ae0810_dd6db224_69852dfd_09072166,
  0xb39a460a_6445c0dd_586cdecf_1c20c8ae_5bbef7dd_1b588d40_ccd2017f_6bb4e3bb,
  0xdda26a7e_3a59ff45_3e350a44_bcb4cdd5_72eacea8_fa6484bb_8d6612ae_bf3c6f47]

/-- `S_ORIG[3][128..255]` (R32). -/
def sOrig3RowsHigh : List Nat := [
  0xd29be463_542f5d9e_aec2771b_f64e6370_740e0d8d_e75b1357_f8721671_af537d5d,
  0x4040cb08_4eb4e2cc_34d2466a_0115af84_e1b00428_95983a1d_06b89fb4_ce6ea048,
  0x6f3f3b82_3520ab82_011a1d4b_277227f8_611560b1_e7933fdc_bb3a792b_344525bd,
  0xa08839e1_51ce794b_2f32c9b7_a01fbac9_e01cc87e_bcc7d1f6_cf0111c3_a1e8aac7,
  0x1a908749_d44fbd9a_d0dadecb_d50ada38_0339c32a_c6913667_8df9317c_e0b12b4f,
  0xf79e59b7_43f5bb3a_f2d519ff_27d9459c_bf97222c_15e6fc2a_0f91fc71_9b941525,
  0xfae59361_ceb69ceb_c2a86459_12baa8d1_b6c1075e_e3056a0c_10d25065_cb03a442,
  0xe0ec6e0e_1698db3b_4c98a0be_3278e964_9f1f9532_e0d392df_d3a0342b_8971f21e,
  0x1b0a7441_4ba3348c_c5be7120_c37632d8_df359f8d_9b992f2e_e60b6f47_0fe3f11d,
  0xe54cda54_1edad891_ce6279cf_cd3e7e6f_1618b166_fd2c1d05_848fd2c5_f6fb2299,
  0xf523f357_a6327623_93a83531_56cccd02_acf08162_5a75ebb5_6e163697_88d273cc,
  0xde966292_81b949d0_4c50901b_71c65614_e6c6c7bd_327a140a_45e1d006_c3f27b9a,
  0xc9aa53fd_62a80f00_bb25bfe2_35bdd2f6_71126905_b2040222_b6cbcf7c_cd769c2b,
  0x53113ec0_1640e3d3_38abbd60_2547adf0_ba38209c_f746ce76_77afa1c5_20756060,
  0x85cbfe4e_8ae88dd8_7aaaf9b0_4cf9aa7e_1948c25c_02fb8a8c_01c36ae4_d6ebe1f9,
  0x90d4f869_a65cdea0_3f09252d_c208e69f_b74e6132_ce77e25b_578fdfe3_3ac372e6]

/-- `P_ORIG[i]` (R31). -/
def pOrigWord (i : Fin 18) : Word := tableWord 6 (pOrigRows.getD (i.val / 6) 0) (i.val % 6)

/-- The rows of `S_ORIG[b]` (R32). -/
def sOrigRows (b : Fin 4) : List Nat :=
  match b with
  | 0 => sOrig0RowsLow ++ sOrig0RowsHigh
  | 1 => sOrig1RowsLow ++ sOrig1RowsHigh
  | 2 => sOrig2RowsLow ++ sOrig2RowsHigh
  | 3 => sOrig3RowsLow ++ sOrig3RowsHigh

/-- `S_ORIG[b][j]` (R32). -/
def sOrigWord (b : Fin 4) (j : Fin 256) : Word := tableWord 8 ((sOrigRows b).getD (j.val / 8) 0) (j.val % 8)

/-- `ROM[k]`, in the flat order of `PS` (R30): the P-array, then the four S-boxes. -/
def romWord (k : Fin 1042) : Word :=
  if h : k.val < 18 then pOrigWord ⟨k.val, h⟩
  else sOrigWord ⟨(k.val - 18) / 256, by omega⟩ ⟨(k.val - 18) % 256, by omega⟩

/-- `P_ORIG` (R31). -/
def pOrig : PArray := Vector.ofFn pOrigWord

/-- `S_ORIG` (R32). -/
def sOrig : SBoxes := Vector.ofFn fun b => Vector.ofFn fun j => sOrigWord b j

/-- The initial schedule `(P_ORIG, S_ORIG)` (R30). -/
def scheduleOrig : Schedule := ⟨pOrig, sOrig⟩

/-- `C_ORIG[0..5]`, "OrpheanBeholderScryDoubt" packed big-endian (R33). -/
def cOrig : Vector Word 6 :=
  #v[0x4f727068#32, 0x65616e42#32, 0x65686f6c#32, 0x64657253#32, 0x63727944#32, 0x6f756274#32]

end Sys2Proof.Machine
end

