-- ==== Sys2Proof/Machine/CostLoop.lean ====
section
/-! DEFINITION. The cost-loop controller (43_costloop.md): `Crypt`, and the micro-operations `U_INIT`,
`U_CLOAD`, `U_BLD`, `U_BST`, `U_IDLE`. -/

namespace Sys2Proof.Machine

/-! ## The function -/

/-- Step 4 for one chunk `c`: `(C[2c], C[2c+1]) = Encipher(C[2c], C[2c+1], P, S)` (43_costloop.md R101). -/
def encryptChunk (ps : Schedule) (c : Fin 3) (ct : Vector Word 6) : Vector Word 6 :=
  let b := encipher ⟨ct[2 * c.val], ct[2 * c.val + 1]⟩ ps
  (ct.set (2 * c.val) b.l).set (2 * c.val + 1) b.r

/-- One pass of step 4: chunks 0, 1, 2 in order (43_costloop.md R101). -/
def encryptPass (ps : Schedule) (ct : Vector Word 6) : Vector Word 6 :=
  encryptChunk ps 2 (encryptChunk ps 1 (encryptChunk ps 0 ct))

/-- One repetition of step 3: the password run first, then the salt run (43_costloop.md R101). -/
def costStep (pw : List Byte) (salt : Vector Word 4) (ps : Schedule) : Schedule :=
  keyFn (saltString salt) (keyFn pw ps)

/-- The schedule after steps 1 to 3 of `Crypt` (43_costloop.md R101). -/
def cryptSchedule (pw : List Byte) (salt : Vector Word 4) (cost : Nat) : Schedule :=
  (costStep pw salt)^[2 ^ cost] (eksKeyFn pw salt scheduleOrig)

/-- `Crypt(pw, n, salt, cost)` with `n` the length of `pw`, at least 1 (43_costloop.md R101). -/
def cryptFn (pw : List Byte) (salt : Vector Word 4) (cost : Nat) : Vector Word 6 :=
  (encryptPass (cryptSchedule pw salt cost))^[64] cOrig

/-- The 24-byte serialisation of the result (43_costloop.md R103, 20_memory.md R40). -/
def ctextBytes (ct : Vector Word 6) : List Byte :=
  (List.finRange 24).map fun m => byteOf ct[m.val / 4] ⟨m.val % 4, by omega⟩

/-! ## The micro-operations -/

/-- U_IDLE (43_costloop.md R105): nothing. -/
def execUIdle (st : State) : Host.Outcome State Fault Refusal := .next st

/-- What follows the last `U_INIT` (43_costloop.md R95); with any other `op`, which does not occur, nothing
more is assigned (log 7). -/
def endInit (st : State) : State :=
  match st.op with
  | .init => finish st
  | .crypt => startSched .eks st
  | .none => st
  | .encipher => st
  | .keyPw => st
  | .keySalt => st
  | .ekskey => st

/-- U_INIT (43_costloop.md R95). -/
def execUInit (st : State) : Host.Outcome State Fault Refusal :=
  if h : st.widx.toNat < 1042 then
    let st1 := storeWord ⟨st.widx.toNat, h⟩ (romWord ⟨st.widx.toNat, h⟩) st
    if st.widx.toNat < 1041 then .next { st1 with widx := st.widx + 1 }
    else .next (endInit { st1 with psv := true })
  else .fault .scheduleIndex

/-- U_CLOAD (43_costloop.md R98). -/
def execUCload (st : State) : Host.Outcome State Fault Refusal :=
  .next { st with ctext := cOrig, pass := 0, chunk := 0, phase := .bld }

/-- U_BLD (43_costloop.md R99). -/
def execUBld (st : State) : Host.Outcome State Fault Refusal :=
  if h : st.chunk.toNat < 3 then
    .next { st with
      l := st.ctext[2 * st.chunk.toNat]
      r := st.ctext[2 * st.chunk.toNat + 1]
      rnd := 1
      phase := .round }
  else .fault .chunkNumber

/-- U_BST (43_costloop.md R100). -/
def execUBst (st : State) : Host.Outcome State Fault Refusal :=
  if h : st.chunk.toNat < 3 then
    let st1 := { st with
      ctext := (st.ctext.set (2 * st.chunk.toNat) st.l).set (2 * st.chunk.toNat + 1) st.r }
    if st.chunk.toNat < 2 then .next { st1 with chunk := st.chunk + 1, phase := .bld }
    else if st.pass.toNat < 63 then .next { st1 with chunk := 0, pass := st.pass + 1, phase := .bld }
    else .next (finish st1)
  else .fault .chunkNumber

end Sys2Proof.Machine
end

