-- ==== Sys2Proof/Machine/Dispatch.lean ====
section
/-! DEFINITION. One arm per row of the opcode table. -/

namespace Sys2Proof.Machine

def exec (i : Instr) (s : State) : Host.Outcome State Fault Refusal :=
  match i with
  | .rd addr => Sys2Proof.Machine.execRd addr s
  | .wr addr wdata => Sys2Proof.Machine.execWr addr wdata s
  | .nop => Sys2Proof.Machine.execNop s
  | .init => Sys2Proof.Machine.execInit s
  | .encipher => Sys2Proof.Machine.execEncipher s
  | .keyPw => Sys2Proof.Machine.execKeyPw s
  | .keySalt => Sys2Proof.Machine.execKeySalt s
  | .ekskey => Sys2Proof.Machine.execEkskey s
  | .crypt => Sys2Proof.Machine.execCrypt s
  | .abort => Sys2Proof.Machine.execAbort s
  | .uIdle => Sys2Proof.Machine.execUIdle s
  | .uInit => Sys2Proof.Machine.execUInit s
  | .uXorp => Sys2Proof.Machine.execUXorp s
  | .uSalt => Sys2Proof.Machine.execUSalt s
  | .uRound => Sys2Proof.Machine.execURound s
  | .uSt0 => Sys2Proof.Machine.execUSt0 s
  | .uSt1 => Sys2Proof.Machine.execUSt1 s
  | .uCload => Sys2Proof.Machine.execUCload s
  | .uBld => Sys2Proof.Machine.execUBld s
  | .uBst => Sys2Proof.Machine.execUBst s

end Sys2Proof.Machine
end

