-- ==== Sys2Proof/Machine/Step.lean ====
section
/-! DEFINITION. One clock cycle (44_host_commands.md R110), and where the next instruction is fetched. -/

namespace Sys2Proof.Machine

/-- The engine part of a cycle, after the host part has run: the micro-operation the PRE-EDGE state `pre`
selects, suppressed in the cycle of an `ABORT` (R110 (3), (4)). -/
def engineAfter (pre : State) (h : Instr) (o : Host.Outcome State Fault Refusal) :
    Host.Outcome State Fault Refusal :=
  match o with
  | .next st1 => if h = .abort then .next st1 else exec (fetchEngine pre) st1
  | .fault f => .fault f
  | .refused r => .refused r

/-- `Step` (44_host_commands.md R110). The host part is applied before the engine part; since the two assign
disjoint elements and neither reads what the other assigns, but for `ABORT` (which suppresses the engine part)
and `DONE` (where `Finish` wins), this is the simultaneous update of R110 (log 5). -/
def step (st : State) : Host.Outcome State Fault Refusal :=
  if (currentPorts st).rst then .next (resetCycle (beginCycle st))
  else
    match fetchHost (currentPorts st) with
    | none => exec (fetchEngine st) (beginCycle st)
    | some h => engineAfter st h (exec h (beginCycle st))

/-- `st` with the instruction whose bits are `w` put where `step` fetches next (log 2): a bus transaction or a
command is what the host presents in the next cycle; a micro-operation is what `phase` selects while the host
does nothing. -/
def State.withFetchWord (st : State) (nbits w : Nat) : State :=
  match tableEncoded nbits w with
  | some (.bus b) => { st with inputs := portOfAccess b :: st.inputs }
  | some (.cmd c) => { st with inputs := portOfAccess (busWord true ctrlAddr c) :: st.inputs }
  | some (.uop u) =>
    match phaseOfCode u with
    | some ph => { selectPhase ph st with inputs := portIdle :: st.inputs }
    | none => st
  | none => st

end Sys2Proof.Machine
end

