-- ==== Sys2Proof/Safety.lean ====
section
/-! DEFINITION. The terms the claims use: the sequencer's invariant (10_state.md R24, R25 and the derived notes
of the micro-operation rules), the transition table (43_costloop.md R108), what the host may present, and the
relations between two states that the two-run claims compare. -/

namespace Sys2Proof.Machine

/-! ## The host's inputs -/

/-- `abort_now` of 44_host_commands.md R110 (3). -/
def abortNow (inp : PortIn) : Prop :=
  inp.sel = true ∧ inp.wr = true ∧ inp.addr = 0x004#10 ∧ inp.wdata = 0x00000007#32

/-- The cycle neither resets nor aborts. -/
def undisturbed (inp : PortIn) : Prop := inp.rst = false ∧ ¬ abortNow inp

/-- The addresses of 20_memory.md R36 that are reserved, and the misaligned ones of R39. -/
def reservedOrMisaligned (addr : BitVec 10) : Prop :=
  addr.toNat % 4 ≠ 0
    ∨ addr.toNat = 0x018 ∨ addr.toNat = 0x01C ∨ addr.toNat = 0x038 ∨ addr.toNat = 0x03C
    ∨ (0x058 ≤ addr.toNat ∧ addr.toNat ≤ 0x07C) ∨ 0x0C8 ≤ addr.toNat

/-- The operand registers of 44_host_commands.md R113: `COST`, `KEYLEN`, `SALTi`, `LR0`, `LR1`, `KEYi`. -/
def operandAddress (addr : BitVec 10) : Prop :=
  addr.toNat % 4 = 0
    ∧ (addr.toNat = 0x010 ∨ addr.toNat = 0x014 ∨ (0x020 ≤ addr.toNat ∧ addr.toNat ≤ 0x02C)
      ∨ addr.toNat = 0x030 ∨ addr.toNat = 0x034 ∨ (0x080 ≤ addr.toNat ∧ addr.toNat ≤ 0x0C4))

/-- The registers that hold password, salt and block data: `SALTi`, `LR0`, `LR1`, `KEYi`. -/
def dataAddress (addr : BitVec 10) : Prop :=
  addr.toNat % 4 = 0
    ∧ ((0x020 ≤ addr.toNat ∧ addr.toNat ≤ 0x02C) ∨ addr.toNat = 0x030 ∨ addr.toNat = 0x034
      ∨ (0x080 ≤ addr.toNat ∧ addr.toNat ≤ 0x0C4))

/-! ## The sequencer's invariant -/

/-- Which kinds of schedule run a command performs (43_costloop.md R96, 44_host_commands.md R115). -/
def runsKind : CmdOp → SchedKind → Prop
  | .keyPw, k => k = .kpw
  | .keySalt, k => k = .ksalt
  | .ekskey, k => k = .eks
  | .crypt, k => k ≠ .none
  | .none, _ => False
  | .init, _ => False
  | .encipher, _ => False

/-- `widx` at the start of a pair of words: even, 0..1040 (42_keyschedule.md R84). -/
def pairIndex (w : BitVec 11) : Prop := w.toNat % 2 = 0 ∧ w.toNat ≤ 1040

/-- In a run of kind `SCH_EKS` the salt index is 0 or 2 between the blocks (42_keyschedule.md R81). -/
def saltIndexOk (st : State) : Prop := st.sched = .eks → st.sidx = 0 ∨ st.sidx = 2

/-- A block of a schedule run is in progress. -/
def inRun (st : State) : Prop := runsKind st.op st.sched ∧ pairIndex st.widx ∧ saltIndexOk st

/-- A chunk of the final passes of `CRYPT` is in progress. -/
def inPasses (st : State) : Prop := st.op = .crypt ∧ st.sched = .none ∧ st.chunk.toNat ≤ 2

/-- What holds of the state in each phase. -/
def PhaseInv (st : State) : Prop :=
  match st.phase with
  | .idle => st.busy = false ∧ st.sched = .none
  | .init =>
    st.busy = true ∧ st.psv = false ∧ (st.op = .init ∨ st.op = .crypt) ∧ st.sched = .none ∧ st.widx.toNat ≤ 1041
  | .xorp =>
    st.busy = true ∧ st.psv = true ∧ runsKind st.op st.sched ∧ st.widx.toNat ≤ 17
      ∧ (st.sched ≠ .ksalt → st.koff.toNat < st.keylen.toNat)
  | .salt => st.busy = true ∧ st.psv = true ∧ inRun st ∧ st.sched = .eks
  | .round =>
    st.busy = true ∧ st.psv = true ∧ 1 ≤ st.rnd.toNat ∧ st.rnd.toNat ≤ 16
      ∧ (inRun st ∨ inPasses st ∨ (st.op = .encipher ∧ st.sched = .none))
  | .st0 => st.busy = true ∧ st.psv = true ∧ inRun st
  | .st1 => st.busy = true ∧ st.psv = true ∧ inRun st
  | .cload => st.busy = true ∧ st.psv = true ∧ st.op = .crypt ∧ st.sched = .none
  | .bld => st.busy = true ∧ st.psv = true ∧ inPasses st
  | .bst => st.busy = true ∧ st.psv = true ∧ inPasses st

/-- What holds of the operands of the command that is running (44_host_commands.md R114, 20_memory.md
R45 (d)): they passed the checks of dispatch and cannot have changed. -/
def OperandInv (st : State) : Prop :=
  (st.op = .keyPw ∨ st.op = .ekskey ∨ st.op = .crypt → 1 ≤ st.keylen.toNat ∧ st.keylen.toNat ≤ 72)
    ∧ (st.op = .crypt → 4 ≤ st.cost.toNat ∧ st.cost.toNat ≤ 31)
    ∧ (st.op = .crypt → st.sched = .kpw ∨ st.sched = .ksalt →
        1 ≤ st.iter.toNat ∧ st.iter.toNat ≤ 2 ^ st.cost.toNat)

/-- The sequencer's invariant: the phase agrees with `BUSY`, `PSV`, `op`, `sched` and the ranges of the
counters (10_state.md R21, R24, R25); while a command runs `DONE` is 0 and its operands are legal. -/
def SeqInv (st : State) : Prop :=
  PhaseInv st ∧ (st.busy = true → st.done = false ∧ OperandInv st)

/-! ## The transition table (43_costloop.md R108) -/

/-- The post-edge `phase` R108 gives for a pre-edge state with `BUSY = 1`, in a cycle without `ABORT` and
reset. -/
def tableNextPhase (st : State) : Phase :=
  match st.phase with
  | .idle => .idle
  | .init => if st.widx.toNat < 1041 then .init else if st.op = .init then .idle else .xorp
  | .xorp => if st.widx.toNat < 17 then .xorp else if st.sched = .eks then .salt else .round
  | .salt => .round
  | .round =>
    if st.rnd.toNat < 16 then .round
    else if st.sched ≠ .none then .st0
    else if st.op = .encipher then .idle else .bst
  | .st0 => .st1
  | .st1 =>
    if st.widx.toNat < 1040 then (if st.sched = .eks then .salt else .round)
    else if st.op ≠ .crypt then .idle
    else if st.sched = .ksalt ∧ st.iter = 1 then .cload else .xorp
  | .cload => .bld
  | .bld => .round
  | .bst => if st.chunk.toNat < 2 then .bld else if st.pass.toNat < 63 then .bld else .idle

/-! ## Relations between two states -/

/-- The two schedules agree in the words `PS[0 .. n-1]`. -/
def agreeBelow (n : Nat) (a b : Schedule) : Prop := ∀ k : Fin 1042, k.val < n → psRead a k = psRead b k

/-- The two states differ at most in words of `P` and `S` that are unspecified (10_state.md R29): with
`PSV = 1` in none, during `PH_INIT` in none below `widx`. -/
def AgreeButUnspecified (s t : State) : Prop :=
  t = { s with p := t.p, sbox := t.sbox }
    ∧ (s.psv = true → t.schedule = s.schedule)
    ∧ (s.phase = .init → agreeBelow s.widx.toNat s.schedule t.schedule)

/-- The two states agree in everything the engine reads or writes but `DONE` (20_memory.md R44). -/
def EngineAgree (s t : State) : Prop :=
  t = { s with
    done := t.done, ien := t.ien, eOp := t.eOp, eBusy := t.eBusy, eCost := t.eCost, eKeylen := t.eKeylen,
    eSeq := t.eSeq, eAddr := t.eAddr, inputs := t.inputs, out := t.out }

/-- The two states agree in all that the spec lets a host read through the bus: everything but `KEY`, `P`, `S`,
the sequencer's unexposed registers and the model's own fields, and but `L`, `R`, `CTEXT` while a command runs
(60_exceptions.md R142, 44_host_commands.md R111). -/
def HostAgree (s t : State) : Prop :=
  t.busy = s.busy ∧ t.done = s.done ∧ t.psv = s.psv ∧ t.eOp = s.eOp ∧ t.eBusy = s.eBusy ∧ t.eCost = s.eCost
    ∧ t.eKeylen = s.eKeylen ∧ t.eSeq = s.eSeq ∧ t.eAddr = s.eAddr ∧ t.op = s.op ∧ t.phase = s.phase
    ∧ t.ien = s.ien ∧ t.cost = s.cost ∧ t.keylen = s.keylen ∧ t.salt = s.salt
    ∧ (s.busy = false → t.l = s.l ∧ t.r = s.r ∧ t.ctext = s.ctext)

/-- The same cycle for the sequencer: the same ports, but that the datum of a write to a data register is free,
and the datum of a write to `KEYLEN` is free within its legality. -/
def SamePortTiming (a b : PortIn) : Prop :=
  b.rst = a.rst ∧ b.sel = a.sel ∧ b.wr = a.wr ∧ b.addr = a.addr
    ∧ (b.wdata = a.wdata ∨ dataAddress a.addr
      ∨ (a.addr = 0x014#10
        ∧ ((1 ≤ a.wdata.toNat ∧ a.wdata.toNat ≤ 72) ↔ (1 ≤ b.wdata.toNat ∧ b.wdata.toNat ≤ 72))))

/-- The two states agree in all that the timing may depend on (70_reset_and_hazards.md R155): the control part
of the sequencer, `COST`, whether `KEYLEN` is legal, and the host's activity but for its data. Password, length,
salt, block, `P`, `S`, `CTEXT` and `koff` are free. -/
def TimingAgree (s t : State) : Prop :=
  t.busy = s.busy ∧ t.done = s.done ∧ t.psv = s.psv ∧ t.op = s.op ∧ t.phase = s.phase ∧ t.sched = s.sched
    ∧ t.widx = s.widx ∧ t.rnd = s.rnd ∧ t.iter = s.iter ∧ t.pass = s.pass ∧ t.chunk = s.chunk
    ∧ t.cost = s.cost ∧ keylenLegal t = keylenLegal s
    ∧ List.Forall₂ SamePortTiming s.inputs t.inputs

/-! ## Runs -/

/-- `n` cycles of the machine, one `step` each (70_reset_and_hazards.md R154 counts cycles). -/
def cycles : Nat → State → Host.Outcome State Fault Refusal
  | 0, st => .next st
  | n + 1, st =>
    match step st with
    | .next t => cycles n t
    | .fault f => .fault f
    | .refused r => .refused r

/-- Within the next `n` cycles the host neither resets nor aborts. -/
def undisturbedFor (n : Nat) (st : State) : Prop := ∀ inp ∈ st.inputs.take n, undisturbed inp

/-- `BUSY = 1` in each of the next `n` cycles. -/
def busyFor (n : Nat) (st : State) : Prop := ∀ k < n, ∃ t, cycles k st = .next t ∧ t.busy = true

/-- The busy cycles of `CRYPT` (43_costloop.md R109). -/
def cryptCycles (cost : Nat) : Nat := 14416 + 18792 * 2 ^ cost

end Sys2Proof.Machine
end

