-- ==== Sys2Proof/Certificates/Slice0/Obligations.lean ====
section
/-! DEFINITION. The statements for the provers. Each docstring names the rule of spec/ it formalises. A frame is
written `t = { st with … }`: every field not named is unchanged. -/

open Sys2Proof Sys2Proof.Machine

/-! ## Reset -/

/-- 10_state.md R27, the table: every element but `P` and `S` is 0 after reset; `STATUS` reads 0. (Of `P` and `S`
nothing is said: the rule gives them no value.) -/
def Obligations.ResetStateValues : Prop :=
  State.reset.l = 0 ∧ State.reset.r = 0
    ∧ (∀ i : Fin 6, State.reset.ctext[i] = 0) ∧ (∀ i : Fin 18, State.reset.key[i] = 0)
    ∧ (∀ i : Fin 4, State.reset.salt[i] = 0) ∧ State.reset.cost = 0 ∧ State.reset.keylen = 0
    ∧ State.reset.ien = false ∧ State.reset.busy = false ∧ State.reset.done = false ∧ State.reset.psv = false
    ∧ State.reset.eOp = false ∧ State.reset.eBusy = false ∧ State.reset.eCost = false
    ∧ State.reset.eKeylen = false ∧ State.reset.eSeq = false ∧ State.reset.eAddr = false
    ∧ State.reset.op = .none ∧ State.reset.phase = .idle ∧ State.reset.sched = .none
    ∧ State.reset.widx = 0 ∧ State.reset.rnd = 0 ∧ State.reset.koff = 0 ∧ State.reset.sidx = 0
    ∧ State.reset.iter = 0 ∧ State.reset.pass = 0 ∧ State.reset.chunk = 0
    ∧ readValue State.reset 0x008#10 = 0x00000000#32

/-- 70_reset_and_hazards.md R145, 44_host_commands.md R110 (2): a cycle with `rst = 1` ends, from every state and
whatever the other inputs, in the reset values; `rdata` is 0. -/
def Obligations.ResetCycleGivesResetState : Prop :=
  ∀ (st : State) (inp : PortIn) (rest : List PortIn), st.inputs = inp :: rest → inp.rst = true →
    ∃ t, step st = .next t ∧ t.out.rdata = 0 ∧ t.inputs = rest
      ∧ t = { State.reset with p := t.p, sbox := t.sbox, epoch := t.epoch, inputs := t.inputs, out := t.out }

/-! ## Reads and writes of the bus -/

/-- 20_memory.md R36, R39: the register map. An address has no register exactly when it is misaligned or one of
the reserved ones, and every register is found at its own address. -/
def Obligations.RegisterMapIsExact : Prop :=
  (∀ addr : BitVec 10, regAt addr = none ↔ reservedOrMisaligned addr)
    ∧ regAt 0x000#10 = some .id ∧ regAt 0x004#10 = some .ctrl ∧ regAt 0x008#10 = some .status
    ∧ regAt 0x00C#10 = some .ien ∧ regAt 0x010#10 = some .cost ∧ regAt 0x014#10 = some .keylen
    ∧ (∀ i : Fin 4, regAt (BitVec.ofNat 10 (0x020 + 4 * i.val)) = some (.salt i))
    ∧ regAt 0x030#10 = some .lr0 ∧ regAt 0x034#10 = some .lr1
    ∧ (∀ i : Fin 6, regAt (BitVec.ofNat 10 (0x040 + 4 * i.val)) = some (.ctext i))
    ∧ (∀ i : Fin 18, regAt (BitVec.ofNat 10 (0x080 + 4 * i.val)) = some (.key i))

/-- 44_host_commands.md R111: what a read returns, register by register, and 0 everywhere else. (The numbers of
`opCode` and `phaseCode` are in `KnownWordsDecode`.) -/
def Obligations.ReadReturnsMappedValue : Prop :=
  ∀ (st : State) (addr : BitVec 10), ∃ t, exec (.rd addr) st = .next t
    ∧ (addr = 0x000#10 → t.out.rdata = 0x42463136#32)
    ∧ (addr = 0x004#10 → t.out.rdata = 0)
    ∧ (addr = 0x008#10 → t.out.rdata =
        0#12 ++ opCode st.op ++ 0#2 ++ BitVec.ofBool st.eAddr ++ BitVec.ofBool st.eSeq
          ++ BitVec.ofBool st.eKeylen ++ BitVec.ofBool st.eCost ++ BitVec.ofBool st.eBusy
          ++ BitVec.ofBool st.eOp ++ (if st.busy = true then phaseCode st.phase else 0#4) ++ 0#1
          ++ BitVec.ofBool st.psv ++ BitVec.ofBool st.done ++ BitVec.ofBool st.busy)
    ∧ (addr = 0x00C#10 → t.out.rdata = 0#31 ++ BitVec.ofBool st.ien)
    ∧ (addr = 0x010#10 → t.out.rdata = st.cost)
    ∧ (addr = 0x014#10 → t.out.rdata = st.keylen)
    ∧ (∀ i : Fin 4, addr.toNat = 0x020 + 4 * i.val → t.out.rdata = st.salt[i])
    ∧ (addr = 0x030#10 → t.out.rdata = if st.busy = true then 0 else st.l)
    ∧ (addr = 0x034#10 → t.out.rdata = if st.busy = true then 0 else st.r)
    ∧ (∀ i : Fin 6, addr.toNat = 0x040 + 4 * i.val → t.out.rdata = if st.busy = true then 0 else st.ctext[i])
    ∧ (∀ i : Fin 18, addr.toNat = 0x080 + 4 * i.val → t.out.rdata = 0)
    ∧ (reservedOrMisaligned addr → t.out.rdata = 0)

/-- 44_host_commands.md R112: a read of a misaligned or reserved address sets `E_ADDR`; every other read assigns
nothing, that of `CTRL`, of a `KEY` register, and while busy of `LR0`, `LR1`, `CTEXTi`, which return 0, included.
(`out` is the output port, which holds nothing in the spec.) -/
def Obligations.ReadChangesAtMostEAddr : Prop :=
  ∀ (st : State) (addr : BitVec 10),
    (reservedOrMisaligned addr → ∃ t, exec (.rd addr) st = .next t ∧ t = { st with eAddr := true, out := t.out })
      ∧ (¬ reservedOrMisaligned addr → ∃ t, exec (.rd addr) st = .next t ∧ t = { st with out := t.out }
          ∧ (addr.toNat = 0x004 ∨ (0x080 ≤ addr.toNat ∧ addr.toNat ≤ 0x0C4) → t.out.rdata = 0)
          ∧ (st.busy = true →
              addr.toNat = 0x030 ∨ addr.toNat = 0x034 ∨ (0x040 ≤ addr.toNat ∧ addr.toNat ≤ 0x054) →
              t.out.rdata = 0))

/-- 44_host_commands.md R113: the effect of a write, register by register (`CTRL` and `STATUS` have rules of their
own: `IllegalCommandWordRaisesEOp`, `CtrlWriteIsTheCommand`, `StatusWriteClearsFlags`). -/
def Obligations.WriteEffectByRegister : Prop :=
  ∀ (st : State) (addr : BitVec 10) (wdata : Word),
    (reservedOrMisaligned addr ∨ addr = 0x000#10 ∨ (∃ i : Fin 6, addr.toNat = 0x040 + 4 * i.val) →
      exec (.wr addr wdata) st = .next { st with eAddr := true })
    ∧ (addr = 0x00C#10 → exec (.wr addr wdata) st = .next { st with ien := wdata.getLsbD 0 })
    ∧ (operandAddress addr → st.busy = true → exec (.wr addr wdata) st = .next { st with eBusy := true })
    ∧ (st.busy = false →
        (addr = 0x010#10 → exec (.wr addr wdata) st = .next { st with cost := wdata })
        ∧ (addr = 0x014#10 → exec (.wr addr wdata) st = .next { st with keylen := wdata })
        ∧ (addr = 0x030#10 → exec (.wr addr wdata) st = .next { st with l := wdata })
        ∧ (addr = 0x034#10 → exec (.wr addr wdata) st = .next { st with r := wdata })
        ∧ (∀ i : Fin 4, addr.toNat = 0x020 + 4 * i.val →
            ∃ t, exec (.wr addr wdata) st = .next t ∧ t = { st with salt := t.salt }
              ∧ ∀ j : Fin 4, t.salt[j] = if j = i then wdata else st.salt[j])
        ∧ (∀ i : Fin 18, addr.toNat = 0x080 + 4 * i.val →
            ∃ t, exec (.wr addr wdata) st = .next t ∧ t = { st with key := t.key }
              ∧ ∀ j : Fin 18, t.key[j] = if j = i then wdata else st.key[j]))

/-- 44_host_commands.md R124: a write to `STATUS` clears the flags written with 1 and nothing else. -/
def Obligations.StatusWriteClearsFlags : Prop :=
  ∀ (st : State) (wdata : Word), ∃ t, exec (.wr 0x008#10 wdata) st = .next t
    ∧ t = { st with
        done := t.done, eOp := t.eOp, eBusy := t.eBusy, eCost := t.eCost, eKeylen := t.eKeylen,
        eSeq := t.eSeq, eAddr := t.eAddr }
    ∧ t.done = (if wdata.getLsbD 1 = true then false else st.done)
    ∧ t.eOp = (if wdata.getLsbD 8 = true then false else st.eOp)
    ∧ t.eBusy = (if wdata.getLsbD 9 = true then false else st.eBusy)
    ∧ t.eCost = (if wdata.getLsbD 10 = true then false else st.eCost)
    ∧ t.eKeylen = (if wdata.getLsbD 11 = true then false else st.eKeylen)
    ∧ t.eSeq = (if wdata.getLsbD 12 = true then false else st.eSeq)
    ∧ t.eAddr = (if wdata.getLsbD 13 = true then false else st.eAddr)

/-! ## Commands -/

/-- 60_exceptions.md R131: a `CTRL` write whose datum is not well-formed raises `E_OP` and nothing else, busy or
idle. -/
def Obligations.IllegalCommandWordRaisesEOp : Prop :=
  ∀ (st : State) (wdata : Word), wdata.extractLsb' 4 28 ≠ 0#28 ∨ 8 ≤ (wdata.extractLsb' 0 4).toNat →
    exec (.wr 0x004#10 wdata) st = .next { st with eOp := true }

/-- 30_encoding.md R52, R60: a write of 0 to 7 to `CTRL` is the command of that row. -/
def Obligations.CtrlWriteIsTheCommand : Prop :=
  ∀ st : State,
    exec (.wr 0x004#10 0x00000000#32) st = exec .nop st ∧ exec (.wr 0x004#10 0x00000001#32) st = exec .init st
      ∧ exec (.wr 0x004#10 0x00000002#32) st = exec .encipher st
      ∧ exec (.wr 0x004#10 0x00000003#32) st = exec .keyPw st
      ∧ exec (.wr 0x004#10 0x00000004#32) st = exec .keySalt st
      ∧ exec (.wr 0x004#10 0x00000005#32) st = exec .ekskey st
      ∧ exec (.wr 0x004#10 0x00000006#32) st = exec .crypt st
      ∧ exec (.wr 0x004#10 0x00000007#32) st = exec .abort st

/-- 44_host_commands.md R115, under the preconditions of R114: what the acceptance of each command assigns. With
`PSV <- 0` the words of `P` and `S` are unspecified (10_state.md R29), so nothing is said of them for `INIT` and
`CRYPT` (nor of `epoch`, the model's own counter; log 4). -/
def Obligations.AcceptanceOfCommands : Prop :=
  ∀ st : State, st.busy = false →
    (∃ t, exec .init st = .next t
      ∧ t = { st with
          busy := true, done := false, op := .init, psv := false, widx := 0, sched := .none, phase := .init,
          p := t.p, sbox := t.sbox, epoch := t.epoch })
    ∧ (st.psv = true → exec .encipher st = .next { st with
          busy := true, done := false, op := .encipher, sched := .none, rnd := 1, phase := .round })
    ∧ (st.psv = true → 1 ≤ st.keylen.toNat → st.keylen.toNat ≤ 72 → exec .keyPw st = .next { st with
          busy := true, done := false, op := .keyPw, sched := .kpw, widx := 0, koff := 0, sidx := 0, phase := .xorp })
    ∧ (st.psv = true → exec .keySalt st = .next { st with
          busy := true, done := false, op := .keySalt, sched := .ksalt, widx := 0, koff := 0, sidx := 0,
          phase := .xorp })
    ∧ (st.psv = true → 1 ≤ st.keylen.toNat → st.keylen.toNat ≤ 72 → exec .ekskey st = .next { st with
          busy := true, done := false, op := .ekskey, sched := .eks, widx := 0, koff := 0, sidx := 0, phase := .xorp })
    ∧ (1 ≤ st.keylen.toNat → st.keylen.toNat ≤ 72 → 4 ≤ st.cost.toNat → st.cost.toNat ≤ 31 →
        ∃ t, exec .crypt st = .next t
          ∧ t = { st with
              busy := true, done := false, op := .crypt, psv := false, widx := 0, sched := .none, phase := .init,
              p := t.p, sbox := t.sbox, epoch := t.epoch })

/-- 60_exceptions.md R132: while `BUSY = 1` a command in 1..6, whatever the preconditions, and a write to an operand
register raise `E_BUSY` and do nothing else; reads, `NOP`, `ABORT`, and writes to `STATUS` and `IEN` never raise it. -/
def Obligations.BusyCoreRefusesAccesses : Prop :=
  (∀ (st : State) (c : Instr), st.busy = true →
      c = .init ∨ c = .encipher ∨ c = .keyPw ∨ c = .keySalt ∨ c = .ekskey ∨ c = .crypt →
      exec c st = .next { st with eBusy := true })
    ∧ (∀ (st : State) (addr : BitVec 10) (wdata : Word), st.busy = true → operandAddress addr →
        exec (.wr addr wdata) st = .next { st with eBusy := true })
    ∧ ∀ (st : State) (i : Instr),
        (∃ a, i = .rd a) ∨ i = .nop ∨ i = .abort ∨ (∃ w, i = .wr 0x008#10 w) ∨ (∃ w, i = .wr 0x00C#10 w) →
        ∃ t, exec i st = .next t ∧ (t.eBusy = true → st.eBusy = true)

/-- 60_exceptions.md R133, R134, R135, R137: an idle core refuses a command whose preconditions fail, raising all
the flags that apply and changing nothing else. -/
def Obligations.PreconditionsRaiseTheirFlags : Prop :=
  ∀ st : State, st.busy = false →
    (st.psv = false → exec .encipher st = .next { st with eSeq := true })
    ∧ (st.psv = false → exec .keySalt st = .next { st with eSeq := true })
    ∧ (∀ c : Instr, c = .keyPw ∨ c = .ekskey →
        (st.psv = false → 1 ≤ st.keylen.toNat ∧ st.keylen.toNat ≤ 72 → exec c st = .next { st with eSeq := true })
        ∧ (st.psv = true → ¬ (1 ≤ st.keylen.toNat ∧ st.keylen.toNat ≤ 72) →
            exec c st = .next { st with eKeylen := true })
        ∧ (st.psv = false → ¬ (1 ≤ st.keylen.toNat ∧ st.keylen.toNat ≤ 72) →
            exec c st = .next { st with eSeq := true, eKeylen := true }))
    ∧ (¬ (1 ≤ st.keylen.toNat ∧ st.keylen.toNat ≤ 72) → 4 ≤ st.cost.toNat ∧ st.cost.toNat ≤ 31 →
        exec .crypt st = .next { st with eKeylen := true })
    ∧ (1 ≤ st.keylen.toNat ∧ st.keylen.toNat ≤ 72 → ¬ (4 ≤ st.cost.toNat ∧ st.cost.toNat ≤ 31) →
        exec .crypt st = .next { st with eCost := true })
    ∧ (¬ (1 ≤ st.keylen.toNat ∧ st.keylen.toNat ≤ 72) → ¬ (4 ≤ st.cost.toNat ∧ st.cost.toNat ≤ 31) →
        exec .crypt st = .next { st with eKeylen := true, eCost := true })

/-- 44_host_commands.md R123: `ABORT` is accepted in every state and clears the listed elements. The error flags,
`IEN`, `COST`, `KEYLEN`, `SALT`, `KEY` are unchanged; of `P` and `S`, unspecified from here, nothing is said. -/
def Obligations.AbortClearsTheEngine : Prop :=
  ∀ st : State, ∃ t, exec .abort st = .next t
    ∧ (∀ i : Fin 6, t.ctext[i] = 0)
    ∧ t = { st with
        busy := false, done := false, psv := false, l := 0, r := 0, ctext := t.ctext, op := .none, phase := .idle,
        sched := .none, widx := 0, rnd := 0, koff := 0, sidx := 0, iter := 0, pass := 0, chunk := 0,
        p := t.p, sbox := t.sbox, epoch := t.epoch }

/-! ## Micro-operations -/

/-- 44_host_commands.md R116, 43_costloop.md R105: `NOP` and `U_IDLE` change nothing, whatever the state, busy or
idle. -/
def Obligations.NopAndUIdleChangeNothing : Prop :=
  ∀ st : State, exec .nop st = .next st ∧ exec .uIdle st = .next st

/-- The MODEL's choice (log 6): a counter beyond the range 10_state.md R25 gives it, which no run reaches, stops the
micro-operation that would use it, under a name of its own. -/
def Obligations.CountersOutOfRangeStop : Prop :=
  ∀ st : State,
    (1042 ≤ st.widx.toNat → exec .uInit st = .fault .scheduleIndex ∧ exec .uSt0 st = .fault .scheduleIndex)
    ∧ (1041 ≤ st.widx.toNat → exec .uSt1 st = .fault .scheduleIndex)
    ∧ (18 ≤ st.widx.toNat → exec .uXorp st = .fault .scheduleIndex)
    ∧ (st.widx.toNat ≤ 17 → st.sched ≠ .ksalt → ¬ (1 ≤ st.keylen.toNat ∧ st.keylen.toNat ≤ 72) →
        exec .uXorp st = .fault .keyLength)
    ∧ (st.rnd.toNat = 0 ∨ 17 ≤ st.rnd.toNat → exec .uRound st = .fault .roundNumber)
    ∧ (st.chunk.toNat = 3 → exec .uBld st = .fault .chunkNumber ∧ exec .uBst st = .fault .chunkNumber)

/-- 43_costloop.md R95 (with `Finish`, R104, and `StartSched`, 42_keyschedule.md R83, at the last step):
`U_INIT` copies one word of the constant store, `ROM[k]` of 15_constants.md R30. -/
def Obligations.UInitCopiesOneWord : Prop :=
  ∀ st : State, st.widx.toNat ≤ 1041 → ∃ t, exec .uInit st = .next t
    ∧ (∀ k : Fin 1042, psRead t.schedule k = if k.val = st.widx.toNat then romWord k else psRead st.schedule k)
    ∧ (st.widx.toNat < 1041 → t = { st with p := t.p, sbox := t.sbox, widx := st.widx + 1 })
    ∧ (st.widx.toNat = 1041 → st.op = .init → t = { st with
          p := t.p, sbox := t.sbox, psv := true, busy := false, done := true, phase := .idle, sched := .none })
    ∧ (st.widx.toNat = 1041 → st.op = .crypt → t = { st with
          p := t.p, sbox := t.sbox, psv := true, sched := .eks, widx := 0, koff := 0, sidx := 0, phase := .xorp })

/-- 42_keyschedule.md R80: one step of stage 1. -/
def Obligations.UXorpMixesOneWord : Prop :=
  ∀ st : State, st.widx.toNat ≤ 17 → (st.sched ≠ .ksalt → 1 ≤ st.keylen.toNat ∧ st.keylen.toNat ≤ 72) →
    ∃ t, exec .uXorp st = .next t
      ∧ (∀ i : Fin 18, t.p[i] =
          if i.val = st.widx.toNat then
            st.p[i] ^^^ (if st.sched = .ksalt then st.salt[st.sidx.toNat]'(st.sidx.isLt)
              else streamWord (keyString st.key st.keylen.toNat) st.koff.toNat)
          else st.p[i])
      ∧ (st.sched = .ksalt → t.koff = st.koff)
      ∧ (st.sched ≠ .ksalt → t.koff.toNat = (st.koff.toNat + 4) % st.keylen.toNat)
      ∧ (st.widx.toNat < 17 → t = { st with
            p := t.p, koff := t.koff, widx := st.widx + 1,
            sidx := if st.sched = .ksalt then st.sidx + 1 else st.sidx })
      ∧ (st.widx.toNat = 17 → t = { st with
            p := t.p, koff := t.koff, widx := 0, sidx := 0, l := 0, r := 0, rnd := 1,
            phase := if st.sched = .eks then .salt else .round })

/-- 42_keyschedule.md R81: the salt XOR before an encipherment. -/
def Obligations.USaltMixesTwoWords : Prop :=
  ∀ st : State, exec .uSalt st = .next { st with
    l := st.l ^^^ st.salt[st.sidx.toNat]'(st.sidx.isLt)
    r := st.r ^^^ st.salt[(st.sidx.toNat + 1) % 4]
    sidx := BitVec.ofNat 2 ((st.sidx.toNat + 2) % 4)
    rnd := 1
    phase := .round }

/-- 41_feistel.md R73: one Feistel round, and what follows round 16. -/
def Obligations.URoundPerformsOneRound : Prop :=
  ∀ (st : State) (rnd : Fin 18), rnd.val = st.rnd.toNat → 1 ≤ rnd.val → rnd.val ≤ 16 →
    ∃ t, exec .uRound st = .next t
      ∧ (⟨t.l, t.r⟩ : Block) = roundStep rnd ⟨st.l, st.r⟩ ⟨st.p, st.sbox⟩
      ∧ (rnd.val < 16 → t = { st with l := t.l, r := t.r, rnd := st.rnd + 1 })
      ∧ (rnd.val = 16 → st.sched ≠ .none → t = { st with l := t.l, r := t.r, phase := .st0 })
      ∧ (rnd.val = 16 → st.sched = .none → st.op = .encipher → t = { st with
            l := t.l, r := t.r, busy := false, done := true, phase := .idle, sched := .none })
      ∧ (rnd.val = 16 → st.sched = .none → st.op = .crypt → t = { st with l := t.l, r := t.r, phase := .bst })

/-- 42_keyschedule.md R84: `U_ST0` stores `L` at `PS[widx]`. -/
def Obligations.USt0StoresFirstWord : Prop :=
  ∀ st : State, st.widx.toNat ≤ 1040 → ∃ t, exec .uSt0 st = .next t
    ∧ (∀ k : Fin 1042, psRead t.schedule k = if k.val = st.widx.toNat then st.l else psRead st.schedule k)
    ∧ t = { st with p := t.p, sbox := t.sbox, phase := .st1 }

/-- 42_keyschedule.md R85, 43_costloop.md R96: `U_ST1` stores `R` at `PS[widx+1]`, and after the last block
`EndSched` decides what follows. -/
def Obligations.USt1StoresSecondWord : Prop :=
  ∀ st : State, st.widx.toNat ≤ 1040 → ∃ t, exec .uSt1 st = .next t
    ∧ (∀ k : Fin 1042, psRead t.schedule k = if k.val = st.widx.toNat + 1 then st.r else psRead st.schedule k)
    ∧ (st.widx.toNat < 1040 → t = { st with
          p := t.p, sbox := t.sbox, widx := st.widx + 2, rnd := 1,
          phase := if st.sched = .eks then .salt else .round })
    ∧ (st.widx.toNat = 1040 →
        (st.op = .keyPw ∨ st.op = .keySalt ∨ st.op = .ekskey → t = { st with
            p := t.p, sbox := t.sbox, busy := false, done := true, phase := .idle, sched := .none })
        ∧ (st.op = .crypt → st.sched = .eks → t = { st with
            p := t.p, sbox := t.sbox, iter := BitVec.ofNat 32 (2 ^ (st.cost.toNat % 32)),
            sched := .kpw, widx := 0, koff := 0, sidx := 0, phase := .xorp })
        ∧ (st.op = .crypt → st.sched = .kpw → t = { st with
            p := t.p, sbox := t.sbox, sched := .ksalt, widx := 0, koff := 0, sidx := 0, phase := .xorp })
        ∧ (st.op = .crypt → st.sched = .ksalt → st.iter = 1 → t = { st with
            p := t.p, sbox := t.sbox, iter := 0, sched := .none, phase := .cload })
        ∧ (st.op = .crypt → st.sched = .ksalt → st.iter ≠ 1 → t = { st with
            p := t.p, sbox := t.sbox, iter := st.iter - 1,
            sched := .kpw, widx := 0, koff := 0, sidx := 0, phase := .xorp }))

/-- 43_costloop.md R98: `U_CLOAD` loads the six words of `C_ORIG` (15_constants.md R33). -/
def Obligations.UCloadLoadsConstant : Prop :=
  ∀ st : State, exec .uCload st = .next { st with
    ctext := #v[0x4f727068#32, 0x65616e42#32, 0x65686f6c#32, 0x64657253#32, 0x63727944#32, 0x6f756274#32]
    pass := 0
    chunk := 0
    phase := .bld }

/-- 43_costloop.md R99: `U_BLD` loads a chunk into the block. -/
def Obligations.UBldLoadsChunk : Prop :=
  ∀ (st : State) (c : Fin 3), c.val = st.chunk.toNat → exec .uBld st = .next { st with
    l := st.ctext[2 * c.val]
    r := st.ctext[2 * c.val + 1]
    rnd := 1
    phase := .round }

/-- 43_costloop.md R100: `U_BST` stores the block back and advances chunk, pass or command. -/
def Obligations.UBstStoresChunk : Prop :=
  ∀ st : State, st.chunk.toNat ≤ 2 → ∃ t, exec .uBst st = .next t
    ∧ (∀ i : Fin 6, t.ctext[i] =
        if i.val = 2 * st.chunk.toNat then st.l else if i.val = 2 * st.chunk.toNat + 1 then st.r else st.ctext[i])
    ∧ (st.chunk.toNat < 2 → t = { st with ctext := t.ctext, chunk := st.chunk + 1, phase := .bld })
    ∧ (st.chunk.toNat = 2 → st.pass.toNat < 63 → t = { st with
          ctext := t.ctext, chunk := 0, pass := st.pass + 1, phase := .bld })
    ∧ (st.chunk.toNat = 2 → st.pass.toNat = 63 → t = { st with
          ctext := t.ctext, busy := false, done := true, phase := .idle, sched := .none })

/-! ## The functions -/

/-- 41_feistel.md R70: `F(x, S)`, the four S-box indices as arithmetic on the value of `x`. -/
def Obligations.FeistelFunctionFormula : Prop :=
  ∀ (x : Word) (s : SBoxes) (a b c d : Fin 256),
    a.val = x.toNat / 2 ^ 24 → b.val = x.toNat / 2 ^ 16 % 256 → c.val = x.toNat / 2 ^ 8 % 256 →
    d.val = x.toNat % 256 → feistelF x s = ((s[0][a] + s[1][b]) ^^^ s[2][c]) + s[3][d]

/-- 41_feistel.md R72: the four cases of `RoundStep`. -/
def Obligations.RoundStepCases : Prop :=
  ∀ (rnd : Fin 18) (b : Block) (ps : Schedule),
    (rnd.val = 1 → roundStep rnd b ps =
      ⟨b.l ^^^ ps.p[0], b.r ^^^ feistelF (b.l ^^^ ps.p[0]) ps.sbox ^^^ ps.p[1]⟩)
    ∧ (rnd.val % 2 = 1 → 3 ≤ rnd.val → rnd.val ≤ 15 → roundStep rnd b ps =
        ⟨b.l, b.r ^^^ feistelF b.l ps.sbox ^^^ ps.p[rnd]⟩)
    ∧ (rnd.val % 2 = 0 → 2 ≤ rnd.val → rnd.val ≤ 14 → roundStep rnd b ps =
        ⟨b.l ^^^ feistelF b.r ps.sbox ^^^ ps.p[rnd], b.r⟩)
    ∧ (rnd.val = 16 → roundStep rnd b ps =
        ⟨b.r ^^^ ps.p[17], b.l ^^^ feistelF b.r ps.sbox ^^^ ps.p[16]⟩)

/-- 41_feistel.md R74: `Encipher` written without the folding of the whitenings: `a = L0 ^ P[0]; b = R0`, then for
each `r` in 1..16, odd rounds change `b` and even rounds change `a`; the result is `(b ^ P[17], a)`. -/
def Obligations.EncipherIsTheUnfoldedLoop : Prop :=
  ∀ (blk : Block) (ps : Schedule),
    encipher blk ps =
      (fun ab : Word × Word => (⟨ab.2 ^^^ ps.p[17], ab.1⟩ : Block))
        (Nat.fold 16
          (fun i hi ab =>
            if (i + 1) % 2 = 1 then (ab.1, ab.2 ^^^ feistelF ab.1 ps.sbox ^^^ ps.p[i + 1])
            else (ab.1 ^^^ feistelF ab.2 ps.sbox ^^^ ps.p[i + 1], ab.2))
          (blk.l ^^^ ps.p[0], blk.r))

/-- 41_feistel.md R74, worked example (the source's literal): the zero block under the original constants. -/
def Obligations.EncipherOfZeroBlock : Prop :=
  encipher ⟨0, 0⟩ scheduleOrig = ⟨0x706d9fcc#32, 0x1792d23a#32⟩

/-- 41_feistel.md R76 (a): every `RoundStep` of 1..16, and `Encipher`, is a bijection on blocks. -/
def Obligations.EncipherIsBijective : Prop :=
  ∀ ps : Schedule,
    (∀ rnd : Fin 18, 1 ≤ rnd.val → rnd.val ≤ 16 → Function.Bijective fun b : Block => roundStep rnd b ps)
      ∧ Function.Bijective fun b : Block => encipher b ps

/-- 41_feistel.md R76 (b): with every word of `S` zero, `Encipher` XORs the odd words of `P` into one half and the
even ones into the other, and exchanges the halves once. -/
def Obligations.EncipherWithZeroSBoxes : Prop :=
  ∀ (blk : Block) (ps : Schedule), (∀ (b : Fin 4) (j : Fin 256), ps.sbox[b][j] = 0) →
    encipher blk ps =
      ⟨blk.r ^^^ ps.p[1] ^^^ ps.p[3] ^^^ ps.p[5] ^^^ ps.p[7] ^^^ ps.p[9] ^^^ ps.p[11] ^^^ ps.p[13] ^^^ ps.p[15]
          ^^^ ps.p[17],
        blk.l ^^^ ps.p[0] ^^^ ps.p[2] ^^^ ps.p[4] ^^^ ps.p[6] ^^^ ps.p[8] ^^^ ps.p[10] ^^^ ps.p[12] ^^^ ps.p[14]
          ^^^ ps.p[16]⟩

/-- 40_wordstream.md R65, R66: the word at an offset is the four bytes that follow it cyclically, most significant
first; reducing the offset modulo the length changes nothing. -/
def Obligations.StreamWordIsCyclic : Prop :=
  ∀ (b : List Byte) (off : Nat) (i0 i1 i2 i3 : Fin b.length),
    i0.val = off % b.length → i1.val = (off + 1) % b.length → i2.val = (off + 2) % b.length →
    i3.val = (off + 3) % b.length →
    streamWord b off = b[i0] ++ b[i1] ++ b[i2] ++ b[i3] ∧ streamWord b (off % b.length) = streamWord b off

/-- 40_wordstream.md R67: a salt word at an offset that is a multiple of 4 is a whole register. -/
def Obligations.SaltStreamReadsRegisters : Prop :=
  ∀ (salt : Vector Word 4) (j : Nat), streamWord (saltString salt) (4 * j) = salt[j % 4]

/-- 40_wordstream.md R68: the eighteen words of a run over a string longer than 72 bytes are those of its first 72
bytes. -/
def Obligations.SeventyTwoBytesSuffice : Prop :=
  ∀ (b : List Byte), 72 < b.length → ∀ i < 18, streamWord b (4 * i) = streamWord (b.take 72) (4 * i)

/-- 43_costloop.md R107: enciphering pass by pass gives the same as enciphering each chunk 64 times in a row. -/
def Obligations.PassOrderDoesNotMatter : Prop :=
  ∀ (ps : Schedule) (ct : Vector Word 6) (c : Fin 3),
    (⟨((encryptPass ps)^[64] ct)[2 * c.val], ((encryptPass ps)^[64] ct)[2 * c.val + 1]⟩ : Block)
      = (fun b => encipher b ps)^[64] ⟨ct[2 * c.val], ct[2 * c.val + 1]⟩

/-! ## The clock step -/

/-- 30_encoding.md R50, R54, R60, 43_costloop.md R105, 44_host_commands.md R110: a step runs the decoded instruction. A
host instruction presented to an idle core, a read with any datum included: `step` is `exec` of it; a micro-operation of
a busy core in a cycle without a transaction: `step` is `exec` of what `phase` selects; an idle core in a cycle without
a transaction: every state element keeps its value. The outputs of the cycle are driven and its inputs taken off the
host's list (the model's own fields, logs 1 and 8). -/
def Obligations.StepRunsTheDecodedInstruction : Prop :=
  (∀ (st : State) (i : Instr) (w : BitVec 43) (rest : List PortIn), i.wellFormed → accessWord i = some w →
      st.inputs = portOfAccess w :: rest → st.busy = false →
      step st = exec i { st with inputs := rest, out := ⟨0, st.ien && st.done⟩ })
    ∧ (∀ st : State, (currentPorts st).rst = false → (currentPorts st).sel = true →
        (currentPorts st).wr = false → st.busy = false →
        step st = exec (.rd (currentPorts st).addr)
          { st with inputs := st.inputs.tail, out := ⟨0, st.ien && st.done⟩ })
    ∧ (∀ (st : State) (i : Instr), (currentPorts st).rst = false → (currentPorts st).sel = false →
        st.busy = true → decode (.uop (phaseCode st.phase)) = .ok i →
        step st = exec i { st with inputs := st.inputs.tail, out := ⟨0, st.ien && st.done⟩ })
    ∧ (∀ st : State, (currentPorts st).rst = false → (currentPorts st).sel = false → st.busy = false →
        step st = .next { st with inputs := st.inputs.tail, out := ⟨0, st.ien && st.done⟩ })

/-- 44_host_commands.md R110 (4) to (6), R124: while a command runs and the host does not abort, the post-edge state
takes the engine's assignments and the host's, each evaluated on the pre-edge state; the host assigns only error
flags, `IEN`, `DONE` and the outputs, the engine none of these but `DONE`, where `Finish` wins. -/
def Obligations.StepIsSimultaneous : Prop :=
  ∀ (st te th : State) (h : Instr), st.busy = true → (currentPorts st).rst = false →
    fetchHost (currentPorts st) = some h → h ≠ .abort →
    exec h (beginCycle st) = .next th → exec (phaseInstr st.phase) (beginCycle st) = .next te →
    (∃ t, step st = .next t
      ∧ t = { te with
          done := if te.busy = true then th.done else true
          ien := th.ien, eOp := th.eOp, eBusy := th.eBusy, eCost := th.eCost, eKeylen := th.eKeylen,
          eSeq := th.eSeq, eAddr := th.eAddr, out := th.out })
    ∧ th = { beginCycle st with
        done := th.done, ien := th.ien, eOp := th.eOp, eBusy := th.eBusy, eCost := th.eCost,
        eKeylen := th.eKeylen, eSeq := th.eSeq, eAddr := th.eAddr, out := th.out }
    ∧ te = { te with
        ien := st.ien, eOp := st.eOp, eBusy := st.eBusy, eCost := st.eCost, eKeylen := st.eKeylen,
        eSeq := st.eSeq, eAddr := st.eAddr, out := (beginCycle st).out }

/-- 44_host_commands.md R123, R110 (3): `ABORT` wins over the micro-operation of its cycle, which is not
performed. -/
def Obligations.AbortSuppressesTheEngine : Prop :=
  ∀ st : State, (currentPorts st).rst = false → abortNow (currentPorts st) →
    step st = exec .abort (beginCycle st)
      ∧ ∃ t, step st = .next t ∧ t.busy = false ∧ t.done = false ∧ t.phase = .idle

/-- 60_exceptions.md R138, 44_host_commands.md R110 (1): `irq` of a cycle is `IEN.DONE & DONE` of the pre-edge
state, in every cycle. -/
def Obligations.IrqIsEnabledDone : Prop :=
  ∀ st t : State, step st = .next t → t.out.irq = (st.ien && st.done)

/-- 10_state.md R22: an error flag stays set until a `STATUS` write clears it or a reset, and (60_exceptions.md
R130) only a host access changes one. -/
def Obligations.ErrorFlagsAreSticky : Prop :=
  ∀ (st t : State) (inp : PortIn), inp = currentPorts st → inp.rst = false → step st = .next t →
    (∀ n (f : State → Bool),
        (n, f) ∈ [(8, State.eOp), (9, State.eBusy), (10, State.eCost), (11, State.eKeylen), (12, State.eSeq),
          (13, State.eAddr)] →
        (f st = true → f t = false →
          inp.sel = true ∧ inp.wr = true ∧ inp.addr = 0x008#10 ∧ inp.wdata.getLsbD n = true)
        ∧ (inp.sel = false → f t = f st))

/-- 70_reset_and_hazards.md R151, 20_memory.md R45 (d): while a command runs no access changes an operand of the
run, whether or not it aborts. -/
def Obligations.OperandsAreFrozenWhileBusy : Prop :=
  ∀ st t : State, st.busy = true → (currentPorts st).rst = false → step st = .next t →
    t.cost = st.cost ∧ t.keylen = st.keylen ∧ t.salt = st.salt ∧ t.key = st.key

/-- 20_memory.md R35, 10_state.md R12: no host access reaches `P` or `S`. While the core is idle they stay as they
are, in any cycle after which `PSV` is 1. -/
def Obligations.HostCannotReachTheSchedule : Prop :=
  ∀ st t : State, st.busy = false → step st = .next t → t.psv = true → t.schedule = st.schedule ∧ st.psv = true

/-- 10_state.md R14: commands other than `CRYPT` and `ABORT` never change `CTEXT`, and the host cannot write it. -/
def Obligations.OnlyCryptAndAbortChangeCtext : Prop :=
  ∀ st t : State, SeqInv st → undisturbed (currentPorts st) → ¬ (st.busy = true ∧ st.op = .crypt) →
    step st = .next t → t.ctext = st.ctext

/-- 43_costloop.md R108: the next phase is the one the table of transitions gives. -/
def Obligations.PhaseFollowsTheTable : Prop :=
  ∀ st t : State, SeqInv st → st.busy = true → undisturbed (currentPorts st) → step st = .next t →
    t.phase = tableNextPhase st

/-! ## Invariants and safety -/

/-- 10_state.md R24: the sequencer's invariant holds after reset. -/
def Obligations.InvariantHoldsAtReset : Prop := SeqInv State.reset

/-- 44_host_commands.md R110 (`Step` is total), 10_state.md R24, R25 (the ranges): from every state with the
invariant a step has a next state, never a stop, and keeps the invariant, whatever the host does. -/
def Obligations.StepIsTotalAndKeepsInvariant : Prop :=
  ∀ st : State, SeqInv st → ∃ t, step st = .next t ∧ SeqInv t

/-- 00_scope.md R9: there is no fourth outcome. Whatever sequence of cycles the host drives from reset, the machine
never stops. -/
def Obligations.EveryHostSequenceRuns : Prop :=
  ∀ (n : Nat) (ins : List PortIn), ∃ t, cycles n { State.reset with inputs := ins } = .next t ∧ SeqInv t

/-! ## Two runs compared -/

/-- 60_exceptions.md R142, 44_host_commands.md R112: what a host reads does not depend on `KEY`, `P` or `S`, nor on
`L`, `R`, `CTEXT` while a command runs. -/
def Obligations.ReadsHideSecrets : Prop :=
  ∀ s t : State, HostAgree s t →
    (∀ addr : BitVec 10, ∃ s' t', exec (.rd addr) s = .next s' ∧ exec (.rd addr) t = .next t'
      ∧ s'.out.rdata = t'.out.rdata)
    ∧ irqLine s = irqLine t

/-- 10_state.md R29, 93_implementation_defined.md U1: the unspecified contents of `P` and `S` cannot be observed.
Two states that differ only in unspecified words step to two such states, with the same outputs. -/
def Obligations.UnspecifiedTablesAreUnobservable : Prop :=
  ∀ s t s' : State, SeqInv s → AgreeButUnspecified s t → step s = .next s' →
    ∃ t', step t = .next t' ∧ AgreeButUnspecified s' t' ∧ t'.out = s'.out

/-- 70_reset_and_hazards.md R155: timing does not depend on data. Two states that agree in the control part stay so
after a step, whatever their passwords, lengths, salts, blocks and schedules. -/
def Obligations.TimingIsIndependentOfData : Prop :=
  ∀ s t s' : State, TimingAgree s t → step s = .next s' → ∃ t', step t = .next t' ∧ TimingAgree s' t'

/-- 43_costloop.md R106: bus activity other than `ABORT` and reset does not disturb a running command. -/
def Obligations.HostActivityDoesNotDisturbRun : Prop :=
  ∀ s t s' : State, EngineAgree s t → s.busy = true → undisturbed (currentPorts s) →
    undisturbed (currentPorts t) → step s = .next s' → ∃ t', step t = .next t' ∧ EngineAgree s' t'

/-! ## The commands as a whole -/

/-- 44_host_commands.md R117, 43_costloop.md R109: `INIT` runs 1042 cycles and leaves the constants in `P`, `S`. -/
def Obligations.InitLoadsTheConstants : Prop :=
  ∀ st : State, st.busy = false → undisturbedFor 1042 st → ∃ a t, exec .init st = .next a
    ∧ cycles 1042 a = .next t ∧ busyFor 1042 a
    ∧ t.busy = false ∧ t.done = true ∧ t.psv = true ∧ t.op = .init ∧ t.phase = .idle
    ∧ t.p = pOrig ∧ t.sbox = sOrig
    ∧ t.l = st.l ∧ t.r = st.r ∧ t.ctext = st.ctext ∧ t.key = st.key ∧ t.salt = st.salt
    ∧ t.cost = st.cost ∧ t.keylen = st.keylen ∧ t.widx.toNat = 1041

/-- 44_host_commands.md R118, 41_feistel.md R77: `ENCIPHER` runs 16 cycles and enciphers the block. -/
def Obligations.EncipherCommandEnciphers : Prop :=
  ∀ st : State, st.busy = false → st.psv = true → undisturbedFor 16 st → ∃ a t, exec .encipher st = .next a
    ∧ cycles 16 a = .next t ∧ busyFor 16 a
    ∧ (⟨t.l, t.r⟩ : Block) = encipher ⟨st.l, st.r⟩ ⟨st.p, st.sbox⟩
    ∧ t.busy = false ∧ t.done = true ∧ t.psv = true ∧ t.op = .encipher ∧ t.phase = .idle
    ∧ t.p = st.p ∧ t.sbox = st.sbox ∧ t.ctext = st.ctext ∧ t.key = st.key ∧ t.salt = st.salt
    ∧ t.cost = st.cost ∧ t.keylen = st.keylen ∧ t.rnd.toNat = 16

/-- 44_host_commands.md R119, 42_keyschedule.md R88, R90, R91: `KEY_PW` runs 9396 cycles and computes `Key` with
the key bytes. -/
def Obligations.KeyPwComputesKey : Prop :=
  ∀ st : State, st.busy = false → st.psv = true → 1 ≤ st.keylen.toNat → st.keylen.toNat ≤ 72 →
    undisturbedFor 9396 st → ∃ a t, exec .keyPw st = .next a ∧ cycles 9396 a = .next t ∧ busyFor 9396 a
      ∧ t.schedule = keyFn (keyString st.key st.keylen.toNat) st.schedule
      ∧ t.busy = false ∧ t.done = true ∧ t.psv = true ∧ t.op = .keyPw ∧ t.phase = .idle ∧ t.sched = .none
      ∧ t.l = t.sbox[3][254] ∧ t.r = t.sbox[3][255]
      ∧ t.widx.toNat = 1040 ∧ t.rnd.toNat = 16 ∧ t.koff.toNat = 72 % st.keylen.toNat ∧ t.sidx.toNat = 0
      ∧ t.ctext = st.ctext ∧ t.key = st.key ∧ t.salt = st.salt ∧ t.cost = st.cost ∧ t.keylen = st.keylen

/-- 44_host_commands.md R120, 42_keyschedule.md R88, R90, R91: `KEY_SALT` runs 9396 cycles and computes `Key` with
the sixteen salt bytes. -/
def Obligations.KeySaltComputesKey : Prop :=
  ∀ st : State, st.busy = false → st.psv = true → undisturbedFor 9396 st → ∃ a t, exec .keySalt st = .next a
      ∧ cycles 9396 a = .next t ∧ busyFor 9396 a
      ∧ t.schedule = keyFn (saltString st.salt) st.schedule
      ∧ t.busy = false ∧ t.done = true ∧ t.psv = true ∧ t.op = .keySalt ∧ t.phase = .idle ∧ t.sched = .none
      ∧ t.l = t.sbox[3][254] ∧ t.r = t.sbox[3][255]
      ∧ t.widx.toNat = 1040 ∧ t.rnd.toNat = 16 ∧ t.koff.toNat = 0 ∧ t.sidx.toNat = 0
      ∧ t.ctext = st.ctext ∧ t.key = st.key ∧ t.salt = st.salt ∧ t.cost = st.cost ∧ t.keylen = st.keylen

/-- 44_host_commands.md R121, 42_keyschedule.md R88, R90, R91: `EKSKEY` runs 9917 cycles and computes `EksKey`. -/
def Obligations.EksKeyComputesEksKey : Prop :=
  ∀ st : State, st.busy = false → st.psv = true → 1 ≤ st.keylen.toNat → st.keylen.toNat ≤ 72 →
    undisturbedFor 9917 st → ∃ a t, exec .ekskey st = .next a ∧ cycles 9917 a = .next t ∧ busyFor 9917 a
      ∧ t.schedule = eksKeyFn (keyString st.key st.keylen.toNat) st.salt st.schedule
      ∧ t.busy = false ∧ t.done = true ∧ t.psv = true ∧ t.op = .ekskey ∧ t.phase = .idle ∧ t.sched = .none
      ∧ t.l = t.sbox[3][254] ∧ t.r = t.sbox[3][255]
      ∧ t.widx.toNat = 1040 ∧ t.rnd.toNat = 16 ∧ t.koff.toNat = 72 % st.keylen.toNat ∧ t.sidx.toNat = 2
      ∧ t.ctext = st.ctext ∧ t.key = st.key ∧ t.salt = st.salt ∧ t.cost = st.cost ∧ t.keylen = st.keylen

/-- 44_host_commands.md R122, 43_costloop.md R102, R109: `CRYPT` runs `14416 + 18792 * 2^COST` cycles and leaves
`Crypt` of the key bytes, the salt and the cost in `CTEXT`, whatever the core held before. -/
def Obligations.CryptCommandComputesCrypt : Prop :=
  ∀ st : State, st.busy = false → 1 ≤ st.keylen.toNat → st.keylen.toNat ≤ 72 → 4 ≤ st.cost.toNat →
    st.cost.toNat ≤ 31 → undisturbedFor (cryptCycles st.cost.toNat) st →
    ∃ a t, exec .crypt st = .next a ∧ cycles (cryptCycles st.cost.toNat) a = .next t
      ∧ busyFor (cryptCycles st.cost.toNat) a
      ∧ t.ctext = cryptFn (keyString st.key st.keylen.toNat) st.salt st.cost.toNat
      ∧ t.schedule = cryptSchedule (keyString st.key st.keylen.toNat) st.salt st.cost.toNat
      ∧ t.busy = false ∧ t.done = true ∧ t.psv = true ∧ t.op = .crypt ∧ t.phase = .idle
      ∧ t.l = t.ctext[4] ∧ t.r = t.ctext[5]
      ∧ t.key = st.key ∧ t.salt = st.salt ∧ t.cost = st.cost ∧ t.keylen = st.keylen

/-! ## Encodings -/

/-- 30_encoding.md R50, R52, R54, R60: decoding an encoded instruction gives it back, every instruction with every
operand; and a command word or a `phase` code that decodes is the encoding of what it decodes to. -/
def Obligations.DecodeOfEncode : Prop :=
  (∀ i : Instr, decode (encode i) = .ok i)
    ∧ (∀ (w : BitVec 32) (i : Instr), decode (.cmd w) = .ok i → encode i = .cmd w)
    ∧ (∀ (w : BitVec 4) (i : Instr), decode (.uop w) = .ok i → encode i = .uop w)

/-- 30_encoding.md R50, R58, R60: what the host presents for a well-formed host instruction is fetched as that
instruction (two-level decoding, with every address and datum); a read is fetched as the read of its address whatever
stands on `wdata`; and without `sel` nothing is fetched. -/
def Obligations.FetchOfPresentedInstruction : Prop :=
  (∀ (i : Instr) (w : BitVec 43), i.wellFormed → accessWord i = some w → fetchHost (portOfAccess w) = some i)
    ∧ (∀ inp : PortIn, inp.sel = true → inp.wr = false → fetchHost inp = some (.rd inp.addr))
    ∧ (∀ inp : PortIn, inp.sel = false → fetchHost inp = none)

/-- 30_encoding.md R51, R52, R53: a command word decodes exactly when it is 0 to 7, a `phase` code exactly when it
is 0 to 9. -/
def Obligations.IllegalEncodingsAreRefused : Prop :=
  (∀ w : BitVec 32, (∃ i, decode (.cmd w) = .ok i) ↔ w.toNat ≤ 7)
    ∧ (∀ w : BitVec 4, (∃ i, decode (.uop w) = .ok i) ↔ w.toNat ≤ 9)

/-- 30_encoding.md R52, R54, R55, R58, 10_state.md R24 and 95_test_vectors.md: words written out from the encodings
decode to their instructions, and the numbers of `op`, `phase` and `sched`. -/
def Obligations.KnownWordsDecode : Prop :=
  decodeTableWord 48 0x00800000000 = some (.rd 0x008#10)
    ∧ decodeTableWord 48 0x48070617373 = some (.wr 0x080#10 0x70617373#32)
    ∧ decodeAccess 0x40400000006#43 = .crypt
    ∧ (List.range 8).map (decodeTableWord 32) =
        [some .nop, some .init, some .encipher, some .keyPw, some .keySalt, some .ekskey, some .crypt, some .abort]
    ∧ decodeTableWord 32 8 = none ∧ decodeTableWord 32 0x16 = none
    ∧ (List.range 10).map (decodeTableWord 8) =
        [some .uIdle, some .uInit, some .uXorp, some .uSalt, some .uRound, some .uSt0, some .uSt1, some .uCload,
          some .uBld, some .uBst]
    ∧ decodeTableWord 8 10 = none
    ∧ [CmdOp.none, .init, .encipher, .keyPw, .keySalt, .ekskey, .crypt].map (fun c => (opCode c).toNat) =
        [0, 1, 2, 3, 4, 5, 6]
    ∧ [Phase.idle, .init, .xorp, .salt, .round, .st0, .st1, .cload, .bld, .bst].map (fun p => (phaseCode p).toNat) =
        [0, 1, 2, 3, 4, 5, 6, 7, 8, 9]
    ∧ [SchedKind.none, .eks, .kpw, .ksalt].map (fun k => (schedCode k).toNat) = [0, 1, 2, 3]
end

