-- ==== Sys2Proof/Laws/Encoding.lean ====
section
/-! SUPPORT. The fields of a bus transaction's word (30_encoding.md R50), and what the two decoders make of it. -/

namespace Sys2Proof

/-- The value of a bus transaction's word. -/
theorem busWord_toNat (wr : Bool) (addr : BitVec 10) (wdata : Word) :
    (busWord wr addr wdata).toNat = wr.toNat * 2 ^ 42 + addr.toNat * 2 ^ 32 + wdata.toNat := by
  have h1 : (busWord wr addr wdata).toNat = ((BitVec.ofBool wr).toNat <<< 10 ||| addr.toNat) <<< 32 ||| wdata.toNat := by
    show (BitVec.ofBool wr ++ addr ++ wdata).toNat = _
    rw [BitVec.toNat_append, BitVec.toNat_append]
  rw [h1, ← Nat.shiftLeft_add_eq_or_of_lt addr.isLt, ← Nat.shiftLeft_add_eq_or_of_lt wdata.isLt]
  simp only [Nat.shiftLeft_eq, BitVec.toNat_ofBool]
  omega

@[simp] theorem busWord_addr (wr : Bool) (addr : BitVec 10) (wdata : Word) :
    (busWord wr addr wdata).extractLsb' 32 10 = addr := by
  rw [← BitVec.toNat_inj, BitVec.extractLsb'_toNat, busWord_toNat, Nat.shiftRight_eq_div_pow]
  have := addr.isLt
  have := wdata.isLt
  omega

@[simp] theorem busWord_wdata (wr : Bool) (addr : BitVec 10) (wdata : Word) :
    (busWord wr addr wdata).extractLsb' 0 32 = wdata := by
  rw [← BitVec.toNat_inj, BitVec.extractLsb'_toNat, busWord_toNat, Nat.shiftRight_eq_div_pow]
  have := wdata.isLt
  omega

@[simp] theorem busWord_wr (wr : Bool) (addr : BitVec 10) (wdata : Word) :
    (busWord wr addr wdata).extractLsb' 42 1 = BitVec.ofBool wr := by
  rw [← BitVec.toNat_inj, BitVec.extractLsb'_toNat, busWord_toNat, Nat.shiftRight_eq_div_pow]
  have := addr.isLt
  have := wdata.isLt
  simp only [BitVec.toNat_ofBool]
  cases wr <;> simp only [Bool.toNat_true, Bool.toNat_false] <;> omega

theorem busWord_wrBit (wr : Bool) (addr : BitVec 10) (wdata : Word) :
    (busWord wr addr wdata).getLsbD 42 = wr := by
  rw [BitVec.getLsbD, Nat.testBit, busWord_toNat, Nat.shiftRight_eq_div_pow]
  have := addr.isLt
  have := wdata.isLt
  have hd : (wr.toNat * 2 ^ 42 + addr.toNat * 2 ^ 32 + wdata.toNat) / 2 ^ 42 = wr.toNat := by omega
  rw [hd]
  cases wr <;> rfl

/-- The ports that carry a transaction. -/
theorem portOfAccess_busWord (wr : Bool) (addr : BitVec 10) (wdata : Word) :
    portOfAccess (busWord wr addr wdata) = ⟨false, true, wr, addr, wdata⟩ := by
  simp only [portOfAccess, busWord_wrBit, busWord_addr, busWord_wdata]

/-- First-level decoding of a transaction (30_encoding.md R50). -/
theorem decodeBus_busWord (wr : Bool) (addr : BitVec 10) (wdata : Word) :
    decodeBus (busWord wr addr wdata) = if wr = true then .wr addr wdata else .rd addr := by
  cases wr <;> simp [decodeBus]

/-- A command word is well-formed exactly when its value is at most 7 (30_encoding.md R51). -/
theorem wellFormedCommandWord_iff (w : BitVec 32) : wellFormedCommandWord w = true ↔ w.toNat ≤ 7 := by
  unfold wellFormedCommandWord
  simp only [Bool.and_eq_true, beq_iff_eq, decide_eq_true_eq]
  rw [← BitVec.toNat_inj]
  simp only [BitVec.extractLsb'_toNat, BitVec.toNat_ofNat, Nat.shiftRight_eq_div_pow]
  have := w.isLt
  omega

/-- The decoder of command words, by the value of the word (30_encoding.md R52). -/
theorem decodeCmd_cases (w : BitVec 32) :
    (w = 0 ∧ decodeCmd w = .ok .nop) ∨ (w = 1 ∧ decodeCmd w = .ok .init)
      ∨ (w = 2 ∧ decodeCmd w = .ok .encipher) ∨ (w = 3 ∧ decodeCmd w = .ok .keyPw)
      ∨ (w = 4 ∧ decodeCmd w = .ok .keySalt) ∨ (w = 5 ∧ decodeCmd w = .ok .ekskey)
      ∨ (w = 6 ∧ decodeCmd w = .ok .crypt) ∨ (w = 7 ∧ decodeCmd w = .ok .abort)
      ∨ (8 ≤ w.toNat ∧ decodeCmd w = .error (.illegalCommand w)) := by
  by_cases h : w.toNat ≤ 7
  · have hw : w = BitVec.ofNat 32 w.toNat := by simp
    generalize w.toNat = n at h hw
    subst hw
    have : n = 0 ∨ n = 1 ∨ n = 2 ∨ n = 3 ∨ n = 4 ∨ n = 5 ∨ n = 6 ∨ n = 7 := by omega
    rcases this with rfl | rfl | rfl | rfl | rfl | rfl | rfl | rfl <;> decide
  · have hf : ¬ wellFormedCommandWord w = true := fun hc => h ((wellFormedCommandWord_iff w).1 hc)
    have hd : decodeCmd w = .error (.illegalCommand w) := by
      unfold decodeCmd
      rw [if_neg hf]
    have h8 : 8 ≤ w.toNat := by omega
    simp [hd, h8]

/-- What a command word decodes to is in a row of format `CMD` (30_encoding.md R52, R60). -/
theorem decodeCmd_ok_width (w : BitVec 32) (c : Instr) (h : decodeCmd w = .ok c) : (tableRow c).width = 32 := by
  unfold decodeCmd at h
  split at h
  · split at h <;> cases h <;> rfl
  · cases h

/-- Two-level decoding (30_encoding.md R60): a read, a write elsewhere, an illegal write of `CTRL`, a command. -/
theorem fetchHost_cases (inp : PortIn) (h : Instr) (hf : fetchHost inp = some h) :
    inp.sel = true ∧
      ((inp.wr = false ∧ h = .rd inp.addr)
        ∨ (inp.wr = true ∧ inp.addr ≠ ctrlAddr ∧ h = .wr inp.addr inp.wdata)
        ∨ (inp.wr = true ∧ inp.addr = ctrlAddr ∧ 8 ≤ inp.wdata.toNat ∧ h = .wr inp.addr inp.wdata)
        ∨ (inp.wr = true ∧ inp.addr = ctrlAddr ∧ decodeCmd inp.wdata = .ok h)) := by
  unfold fetchHost at hf
  split at hf
  · rename_i hsel
    refine ⟨hsel, ?_⟩
    injection hf with hf
    unfold decodeAccess at hf
    rw [decodeBus_busWord] at hf
    cases hw : inp.wr
    · simp [hw] at hf
      exact .inl ⟨rfl, hf.symm⟩
    · simp only [hw, if_true] at hf
      by_cases ha : inp.addr = ctrlAddr
      · rw [if_pos ha] at hf
        rcases decodeCmd_cases inp.wdata with h' | h' | h' | h' | h' | h' | h' | h' | h'
        all_goals rw [h'.2] at hf
        all_goals simp only at hf
        all_goals subst hf
        all_goals first
          | exact .inr (.inr (.inr ⟨rfl, ha, h'.2⟩))
          | exact .inr (.inr (.inl ⟨rfl, ha, h'.1, rfl⟩))
      · rw [if_neg ha] at hf
        exact .inr (.inl ⟨rfl, ha, hf.symm⟩)
  · cases hf

end Sys2Proof
end

