-- ==== Sys2Proof/Laws/State.lean ====
section
/-! SUPPORT. One lemma per field per update of `State`, so that no later proof unfolds an update. -/

namespace Sys2Proof.Machine

/-! ## `raise` -/

@[simp] theorem raise_l (e : ErrFlag) (st : State) : (raise e st).l = st.l := by cases e <;> rfl
@[simp] theorem raise_r (e : ErrFlag) (st : State) : (raise e st).r = st.r := by cases e <;> rfl
@[simp] theorem raise_p (e : ErrFlag) (st : State) : (raise e st).p = st.p := by cases e <;> rfl
@[simp] theorem raise_sbox (e : ErrFlag) (st : State) : (raise e st).sbox = st.sbox := by cases e <;> rfl
@[simp] theorem raise_ctext (e : ErrFlag) (st : State) : (raise e st).ctext = st.ctext := by cases e <;> rfl
@[simp] theorem raise_key (e : ErrFlag) (st : State) : (raise e st).key = st.key := by cases e <;> rfl
@[simp] theorem raise_salt (e : ErrFlag) (st : State) : (raise e st).salt = st.salt := by cases e <;> rfl
@[simp] theorem raise_cost (e : ErrFlag) (st : State) : (raise e st).cost = st.cost := by cases e <;> rfl
@[simp] theorem raise_keylen (e : ErrFlag) (st : State) : (raise e st).keylen = st.keylen := by cases e <;> rfl
@[simp] theorem raise_ien (e : ErrFlag) (st : State) : (raise e st).ien = st.ien := by cases e <;> rfl
@[simp] theorem raise_busy (e : ErrFlag) (st : State) : (raise e st).busy = st.busy := by cases e <;> rfl
@[simp] theorem raise_done (e : ErrFlag) (st : State) : (raise e st).done = st.done := by cases e <;> rfl
@[simp] theorem raise_psv (e : ErrFlag) (st : State) : (raise e st).psv = st.psv := by cases e <;> rfl
@[simp] theorem raise_op (e : ErrFlag) (st : State) : (raise e st).op = st.op := by cases e <;> rfl
@[simp] theorem raise_phase (e : ErrFlag) (st : State) : (raise e st).phase = st.phase := by cases e <;> rfl
@[simp] theorem raise_sched (e : ErrFlag) (st : State) : (raise e st).sched = st.sched := by cases e <;> rfl
@[simp] theorem raise_widx (e : ErrFlag) (st : State) : (raise e st).widx = st.widx := by cases e <;> rfl
@[simp] theorem raise_rnd (e : ErrFlag) (st : State) : (raise e st).rnd = st.rnd := by cases e <;> rfl
@[simp] theorem raise_koff (e : ErrFlag) (st : State) : (raise e st).koff = st.koff := by cases e <;> rfl
@[simp] theorem raise_sidx (e : ErrFlag) (st : State) : (raise e st).sidx = st.sidx := by cases e <;> rfl
@[simp] theorem raise_iter (e : ErrFlag) (st : State) : (raise e st).iter = st.iter := by cases e <;> rfl
@[simp] theorem raise_pass (e : ErrFlag) (st : State) : (raise e st).pass = st.pass := by cases e <;> rfl
@[simp] theorem raise_chunk (e : ErrFlag) (st : State) : (raise e st).chunk = st.chunk := by cases e <;> rfl
@[simp] theorem raise_epoch (e : ErrFlag) (st : State) : (raise e st).epoch = st.epoch := by cases e <;> rfl
@[simp] theorem raise_inputs (e : ErrFlag) (st : State) : (raise e st).inputs = st.inputs := by cases e <;> rfl
@[simp] theorem raise_out (e : ErrFlag) (st : State) : (raise e st).out = st.out := by cases e <;> rfl

@[simp] theorem raise_op_eOp (st : State) : (raise .op st).eOp = true := rfl
@[simp] theorem raise_op_eBusy (st : State) : (raise .op st).eBusy = st.eBusy := rfl
@[simp] theorem raise_op_eCost (st : State) : (raise .op st).eCost = st.eCost := rfl
@[simp] theorem raise_op_eKeylen (st : State) : (raise .op st).eKeylen = st.eKeylen := rfl
@[simp] theorem raise_op_eSeq (st : State) : (raise .op st).eSeq = st.eSeq := rfl
@[simp] theorem raise_op_eAddr (st : State) : (raise .op st).eAddr = st.eAddr := rfl
@[simp] theorem raise_busy_eOp (st : State) : (raise .busy st).eOp = st.eOp := rfl
@[simp] theorem raise_busy_eBusy (st : State) : (raise .busy st).eBusy = true := rfl
@[simp] theorem raise_busy_eCost (st : State) : (raise .busy st).eCost = st.eCost := rfl
@[simp] theorem raise_busy_eKeylen (st : State) : (raise .busy st).eKeylen = st.eKeylen := rfl
@[simp] theorem raise_busy_eSeq (st : State) : (raise .busy st).eSeq = st.eSeq := rfl
@[simp] theorem raise_busy_eAddr (st : State) : (raise .busy st).eAddr = st.eAddr := rfl
@[simp] theorem raise_cost_eOp (st : State) : (raise .cost st).eOp = st.eOp := rfl
@[simp] theorem raise_cost_eBusy (st : State) : (raise .cost st).eBusy = st.eBusy := rfl
@[simp] theorem raise_cost_eCost (st : State) : (raise .cost st).eCost = true := rfl
@[simp] theorem raise_cost_eKeylen (st : State) : (raise .cost st).eKeylen = st.eKeylen := rfl
@[simp] theorem raise_cost_eSeq (st : State) : (raise .cost st).eSeq = st.eSeq := rfl
@[simp] theorem raise_cost_eAddr (st : State) : (raise .cost st).eAddr = st.eAddr := rfl
@[simp] theorem raise_keylen_eOp (st : State) : (raise .keylen st).eOp = st.eOp := rfl
@[simp] theorem raise_keylen_eBusy (st : State) : (raise .keylen st).eBusy = st.eBusy := rfl
@[simp] theorem raise_keylen_eCost (st : State) : (raise .keylen st).eCost = st.eCost := rfl
@[simp] theorem raise_keylen_eKeylen (st : State) : (raise .keylen st).eKeylen = true := rfl
@[simp] theorem raise_keylen_eSeq (st : State) : (raise .keylen st).eSeq = st.eSeq := rfl
@[simp] theorem raise_keylen_eAddr (st : State) : (raise .keylen st).eAddr = st.eAddr := rfl
@[simp] theorem raise_seq_eOp (st : State) : (raise .seq st).eOp = st.eOp := rfl
@[simp] theorem raise_seq_eBusy (st : State) : (raise .seq st).eBusy = st.eBusy := rfl
@[simp] theorem raise_seq_eCost (st : State) : (raise .seq st).eCost = st.eCost := rfl
@[simp] theorem raise_seq_eKeylen (st : State) : (raise .seq st).eKeylen = st.eKeylen := rfl
@[simp] theorem raise_seq_eSeq (st : State) : (raise .seq st).eSeq = true := rfl
@[simp] theorem raise_seq_eAddr (st : State) : (raise .seq st).eAddr = st.eAddr := rfl
@[simp] theorem raise_addr_eOp (st : State) : (raise .addr st).eOp = st.eOp := rfl
@[simp] theorem raise_addr_eBusy (st : State) : (raise .addr st).eBusy = st.eBusy := rfl
@[simp] theorem raise_addr_eCost (st : State) : (raise .addr st).eCost = st.eCost := rfl
@[simp] theorem raise_addr_eKeylen (st : State) : (raise .addr st).eKeylen = st.eKeylen := rfl
@[simp] theorem raise_addr_eSeq (st : State) : (raise .addr st).eSeq = st.eSeq := rfl
@[simp] theorem raise_addr_eAddr (st : State) : (raise .addr st).eAddr = true := rfl

/-! ## `writeOnesToClear` -/

@[simp] theorem writeOnesToClear_l (w : Word) (st : State) : (writeOnesToClear w st).l = st.l := rfl
@[simp] theorem writeOnesToClear_r (w : Word) (st : State) : (writeOnesToClear w st).r = st.r := rfl
@[simp] theorem writeOnesToClear_p (w : Word) (st : State) : (writeOnesToClear w st).p = st.p := rfl
@[simp] theorem writeOnesToClear_sbox (w : Word) (st : State) : (writeOnesToClear w st).sbox = st.sbox := rfl
@[simp] theorem writeOnesToClear_ctext (w : Word) (st : State) : (writeOnesToClear w st).ctext = st.ctext := rfl
@[simp] theorem writeOnesToClear_key (w : Word) (st : State) : (writeOnesToClear w st).key = st.key := rfl
@[simp] theorem writeOnesToClear_salt (w : Word) (st : State) : (writeOnesToClear w st).salt = st.salt := rfl
@[simp] theorem writeOnesToClear_cost (w : Word) (st : State) : (writeOnesToClear w st).cost = st.cost := rfl
@[simp] theorem writeOnesToClear_keylen (w : Word) (st : State) : (writeOnesToClear w st).keylen = st.keylen := rfl
@[simp] theorem writeOnesToClear_ien (w : Word) (st : State) : (writeOnesToClear w st).ien = st.ien := rfl
@[simp] theorem writeOnesToClear_busy (w : Word) (st : State) : (writeOnesToClear w st).busy = st.busy := rfl
@[simp] theorem writeOnesToClear_done (w : Word) (st : State) : (writeOnesToClear w st).done = (st.done && !w.getLsbD 1) := rfl
@[simp] theorem writeOnesToClear_psv (w : Word) (st : State) : (writeOnesToClear w st).psv = st.psv := rfl
@[simp] theorem writeOnesToClear_eOp (w : Word) (st : State) : (writeOnesToClear w st).eOp = (st.eOp && !w.getLsbD 8) := rfl
@[simp] theorem writeOnesToClear_eBusy (w : Word) (st : State) : (writeOnesToClear w st).eBusy = (st.eBusy && !w.getLsbD 9) := rfl
@[simp] theorem writeOnesToClear_eCost (w : Word) (st : State) : (writeOnesToClear w st).eCost = (st.eCost && !w.getLsbD 10) := rfl
@[simp] theorem writeOnesToClear_eKeylen (w : Word) (st : State) : (writeOnesToClear w st).eKeylen = (st.eKeylen && !w.getLsbD 11) := rfl
@[simp] theorem writeOnesToClear_eSeq (w : Word) (st : State) : (writeOnesToClear w st).eSeq = (st.eSeq && !w.getLsbD 12) := rfl
@[simp] theorem writeOnesToClear_eAddr (w : Word) (st : State) : (writeOnesToClear w st).eAddr = (st.eAddr && !w.getLsbD 13) := rfl
@[simp] theorem writeOnesToClear_op (w : Word) (st : State) : (writeOnesToClear w st).op = st.op := rfl
@[simp] theorem writeOnesToClear_phase (w : Word) (st : State) : (writeOnesToClear w st).phase = st.phase := rfl
@[simp] theorem writeOnesToClear_sched (w : Word) (st : State) : (writeOnesToClear w st).sched = st.sched := rfl
@[simp] theorem writeOnesToClear_widx (w : Word) (st : State) : (writeOnesToClear w st).widx = st.widx := rfl
@[simp] theorem writeOnesToClear_rnd (w : Word) (st : State) : (writeOnesToClear w st).rnd = st.rnd := rfl
@[simp] theorem writeOnesToClear_koff (w : Word) (st : State) : (writeOnesToClear w st).koff = st.koff := rfl
@[simp] theorem writeOnesToClear_sidx (w : Word) (st : State) : (writeOnesToClear w st).sidx = st.sidx := rfl
@[simp] theorem writeOnesToClear_iter (w : Word) (st : State) : (writeOnesToClear w st).iter = st.iter := rfl
@[simp] theorem writeOnesToClear_pass (w : Word) (st : State) : (writeOnesToClear w st).pass = st.pass := rfl
@[simp] theorem writeOnesToClear_chunk (w : Word) (st : State) : (writeOnesToClear w st).chunk = st.chunk := rfl
@[simp] theorem writeOnesToClear_epoch (w : Word) (st : State) : (writeOnesToClear w st).epoch = st.epoch := rfl
@[simp] theorem writeOnesToClear_inputs (w : Word) (st : State) : (writeOnesToClear w st).inputs = st.inputs := rfl
@[simp] theorem writeOnesToClear_out (w : Word) (st : State) : (writeOnesToClear w st).out = st.out := rfl

/-! ## `storeWord` -/

@[simp] theorem storeWord_l (k : Fin 1042) (v : Word) (st : State) : (storeWord k v st).l = st.l := rfl
@[simp] theorem storeWord_r (k : Fin 1042) (v : Word) (st : State) : (storeWord k v st).r = st.r := rfl
@[simp] theorem storeWord_p (k : Fin 1042) (v : Word) (st : State) : (storeWord k v st).p = (psWrite st.schedule k v).p := rfl
@[simp] theorem storeWord_sbox (k : Fin 1042) (v : Word) (st : State) : (storeWord k v st).sbox = (psWrite st.schedule k v).sbox := rfl
@[simp] theorem storeWord_ctext (k : Fin 1042) (v : Word) (st : State) : (storeWord k v st).ctext = st.ctext := rfl
@[simp] theorem storeWord_key (k : Fin 1042) (v : Word) (st : State) : (storeWord k v st).key = st.key := rfl
@[simp] theorem storeWord_salt (k : Fin 1042) (v : Word) (st : State) : (storeWord k v st).salt = st.salt := rfl
@[simp] theorem storeWord_cost (k : Fin 1042) (v : Word) (st : State) : (storeWord k v st).cost = st.cost := rfl
@[simp] theorem storeWord_keylen (k : Fin 1042) (v : Word) (st : State) : (storeWord k v st).keylen = st.keylen := rfl
@[simp] theorem storeWord_ien (k : Fin 1042) (v : Word) (st : State) : (storeWord k v st).ien = st.ien := rfl
@[simp] theorem storeWord_busy (k : Fin 1042) (v : Word) (st : State) : (storeWord k v st).busy = st.busy := rfl
@[simp] theorem storeWord_done (k : Fin 1042) (v : Word) (st : State) : (storeWord k v st).done = st.done := rfl
@[simp] theorem storeWord_psv (k : Fin 1042) (v : Word) (st : State) : (storeWord k v st).psv = st.psv := rfl
@[simp] theorem storeWord_eOp (k : Fin 1042) (v : Word) (st : State) : (storeWord k v st).eOp = st.eOp := rfl
@[simp] theorem storeWord_eBusy (k : Fin 1042) (v : Word) (st : State) : (storeWord k v st).eBusy = st.eBusy := rfl
@[simp] theorem storeWord_eCost (k : Fin 1042) (v : Word) (st : State) : (storeWord k v st).eCost = st.eCost := rfl
@[simp] theorem storeWord_eKeylen (k : Fin 1042) (v : Word) (st : State) : (storeWord k v st).eKeylen = st.eKeylen := rfl
@[simp] theorem storeWord_eSeq (k : Fin 1042) (v : Word) (st : State) : (storeWord k v st).eSeq = st.eSeq := rfl
@[simp] theorem storeWord_eAddr (k : Fin 1042) (v : Word) (st : State) : (storeWord k v st).eAddr = st.eAddr := rfl
@[simp] theorem storeWord_op (k : Fin 1042) (v : Word) (st : State) : (storeWord k v st).op = st.op := rfl
@[simp] theorem storeWord_phase (k : Fin 1042) (v : Word) (st : State) : (storeWord k v st).phase = st.phase := rfl
@[simp] theorem storeWord_sched (k : Fin 1042) (v : Word) (st : State) : (storeWord k v st).sched = st.sched := rfl
@[simp] theorem storeWord_widx (k : Fin 1042) (v : Word) (st : State) : (storeWord k v st).widx = st.widx := rfl
@[simp] theorem storeWord_rnd (k : Fin 1042) (v : Word) (st : State) : (storeWord k v st).rnd = st.rnd := rfl
@[simp] theorem storeWord_koff (k : Fin 1042) (v : Word) (st : State) : (storeWord k v st).koff = st.koff := rfl
@[simp] theorem storeWord_sidx (k : Fin 1042) (v : Word) (st : State) : (storeWord k v st).sidx = st.sidx := rfl
@[simp] theorem storeWord_iter (k : Fin 1042) (v : Word) (st : State) : (storeWord k v st).iter = st.iter := rfl
@[simp] theorem storeWord_pass (k : Fin 1042) (v : Word) (st : State) : (storeWord k v st).pass = st.pass := rfl
@[simp] theorem storeWord_chunk (k : Fin 1042) (v : Word) (st : State) : (storeWord k v st).chunk = st.chunk := rfl
@[simp] theorem storeWord_epoch (k : Fin 1042) (v : Word) (st : State) : (storeWord k v st).epoch = st.epoch := rfl
@[simp] theorem storeWord_inputs (k : Fin 1042) (v : Word) (st : State) : (storeWord k v st).inputs = st.inputs := rfl
@[simp] theorem storeWord_out (k : Fin 1042) (v : Word) (st : State) : (storeWord k v st).out = st.out := rfl

/-! ## `loseSchedule` -/

@[simp] theorem loseSchedule_l (st : State) : (loseSchedule st).l = st.l := rfl
@[simp] theorem loseSchedule_r (st : State) : (loseSchedule st).r = st.r := rfl
@[simp] theorem loseSchedule_p (st : State) : (loseSchedule st).p = unspecifiedP (st.epoch + 1) := rfl
@[simp] theorem loseSchedule_sbox (st : State) : (loseSchedule st).sbox = unspecifiedS (st.epoch + 1) := rfl
@[simp] theorem loseSchedule_ctext (st : State) : (loseSchedule st).ctext = st.ctext := rfl
@[simp] theorem loseSchedule_key (st : State) : (loseSchedule st).key = st.key := rfl
@[simp] theorem loseSchedule_salt (st : State) : (loseSchedule st).salt = st.salt := rfl
@[simp] theorem loseSchedule_cost (st : State) : (loseSchedule st).cost = st.cost := rfl
@[simp] theorem loseSchedule_keylen (st : State) : (loseSchedule st).keylen = st.keylen := rfl
@[simp] theorem loseSchedule_ien (st : State) : (loseSchedule st).ien = st.ien := rfl
@[simp] theorem loseSchedule_busy (st : State) : (loseSchedule st).busy = st.busy := rfl
@[simp] theorem loseSchedule_done (st : State) : (loseSchedule st).done = st.done := rfl
@[simp] theorem loseSchedule_psv (st : State) : (loseSchedule st).psv = false := rfl
@[simp] theorem loseSchedule_eOp (st : State) : (loseSchedule st).eOp = st.eOp := rfl
@[simp] theorem loseSchedule_eBusy (st : State) : (loseSchedule st).eBusy = st.eBusy := rfl
@[simp] theorem loseSchedule_eCost (st : State) : (loseSchedule st).eCost = st.eCost := rfl
@[simp] theorem loseSchedule_eKeylen (st : State) : (loseSchedule st).eKeylen = st.eKeylen := rfl
@[simp] theorem loseSchedule_eSeq (st : State) : (loseSchedule st).eSeq = st.eSeq := rfl
@[simp] theorem loseSchedule_eAddr (st : State) : (loseSchedule st).eAddr = st.eAddr := rfl
@[simp] theorem loseSchedule_op (st : State) : (loseSchedule st).op = st.op := rfl
@[simp] theorem loseSchedule_phase (st : State) : (loseSchedule st).phase = st.phase := rfl
@[simp] theorem loseSchedule_sched (st : State) : (loseSchedule st).sched = st.sched := rfl
@[simp] theorem loseSchedule_widx (st : State) : (loseSchedule st).widx = st.widx := rfl
@[simp] theorem loseSchedule_rnd (st : State) : (loseSchedule st).rnd = st.rnd := rfl
@[simp] theorem loseSchedule_koff (st : State) : (loseSchedule st).koff = st.koff := rfl
@[simp] theorem loseSchedule_sidx (st : State) : (loseSchedule st).sidx = st.sidx := rfl
@[simp] theorem loseSchedule_iter (st : State) : (loseSchedule st).iter = st.iter := rfl
@[simp] theorem loseSchedule_pass (st : State) : (loseSchedule st).pass = st.pass := rfl
@[simp] theorem loseSchedule_chunk (st : State) : (loseSchedule st).chunk = st.chunk := rfl
@[simp] theorem loseSchedule_epoch (st : State) : (loseSchedule st).epoch = st.epoch + 1 := rfl
@[simp] theorem loseSchedule_inputs (st : State) : (loseSchedule st).inputs = st.inputs := rfl
@[simp] theorem loseSchedule_out (st : State) : (loseSchedule st).out = st.out := rfl

/-! ## `startSched` -/

@[simp] theorem startSched_l (kind : SchedKind) (st : State) : (startSched kind st).l = st.l := rfl
@[simp] theorem startSched_r (kind : SchedKind) (st : State) : (startSched kind st).r = st.r := rfl
@[simp] theorem startSched_p (kind : SchedKind) (st : State) : (startSched kind st).p = st.p := rfl
@[simp] theorem startSched_sbox (kind : SchedKind) (st : State) : (startSched kind st).sbox = st.sbox := rfl
@[simp] theorem startSched_ctext (kind : SchedKind) (st : State) : (startSched kind st).ctext = st.ctext := rfl
@[simp] theorem startSched_key (kind : SchedKind) (st : State) : (startSched kind st).key = st.key := rfl
@[simp] theorem startSched_salt (kind : SchedKind) (st : State) : (startSched kind st).salt = st.salt := rfl
@[simp] theorem startSched_cost (kind : SchedKind) (st : State) : (startSched kind st).cost = st.cost := rfl
@[simp] theorem startSched_keylen (kind : SchedKind) (st : State) : (startSched kind st).keylen = st.keylen := rfl
@[simp] theorem startSched_ien (kind : SchedKind) (st : State) : (startSched kind st).ien = st.ien := rfl
@[simp] theorem startSched_busy (kind : SchedKind) (st : State) : (startSched kind st).busy = st.busy := rfl
@[simp] theorem startSched_done (kind : SchedKind) (st : State) : (startSched kind st).done = st.done := rfl
@[simp] theorem startSched_psv (kind : SchedKind) (st : State) : (startSched kind st).psv = st.psv := rfl
@[simp] theorem startSched_eOp (kind : SchedKind) (st : State) : (startSched kind st).eOp = st.eOp := rfl
@[simp] theorem startSched_eBusy (kind : SchedKind) (st : State) : (startSched kind st).eBusy = st.eBusy := rfl
@[simp] theorem startSched_eCost (kind : SchedKind) (st : State) : (startSched kind st).eCost = st.eCost := rfl
@[simp] theorem startSched_eKeylen (kind : SchedKind) (st : State) : (startSched kind st).eKeylen = st.eKeylen := rfl
@[simp] theorem startSched_eSeq (kind : SchedKind) (st : State) : (startSched kind st).eSeq = st.eSeq := rfl
@[simp] theorem startSched_eAddr (kind : SchedKind) (st : State) : (startSched kind st).eAddr = st.eAddr := rfl
@[simp] theorem startSched_op (kind : SchedKind) (st : State) : (startSched kind st).op = st.op := rfl
@[simp] theorem startSched_phase (kind : SchedKind) (st : State) : (startSched kind st).phase = .xorp := rfl
@[simp] theorem startSched_sched (kind : SchedKind) (st : State) : (startSched kind st).sched = kind := rfl
@[simp] theorem startSched_widx (kind : SchedKind) (st : State) : (startSched kind st).widx = 0 := rfl
@[simp] theorem startSched_rnd (kind : SchedKind) (st : State) : (startSched kind st).rnd = st.rnd := rfl
@[simp] theorem startSched_koff (kind : SchedKind) (st : State) : (startSched kind st).koff = 0 := rfl
@[simp] theorem startSched_sidx (kind : SchedKind) (st : State) : (startSched kind st).sidx = 0 := rfl
@[simp] theorem startSched_iter (kind : SchedKind) (st : State) : (startSched kind st).iter = st.iter := rfl
@[simp] theorem startSched_pass (kind : SchedKind) (st : State) : (startSched kind st).pass = st.pass := rfl
@[simp] theorem startSched_chunk (kind : SchedKind) (st : State) : (startSched kind st).chunk = st.chunk := rfl
@[simp] theorem startSched_epoch (kind : SchedKind) (st : State) : (startSched kind st).epoch = st.epoch := rfl
@[simp] theorem startSched_inputs (kind : SchedKind) (st : State) : (startSched kind st).inputs = st.inputs := rfl
@[simp] theorem startSched_out (kind : SchedKind) (st : State) : (startSched kind st).out = st.out := rfl

/-! ## `finish` -/

@[simp] theorem finish_l (st : State) : (finish st).l = st.l := rfl
@[simp] theorem finish_r (st : State) : (finish st).r = st.r := rfl
@[simp] theorem finish_p (st : State) : (finish st).p = st.p := rfl
@[simp] theorem finish_sbox (st : State) : (finish st).sbox = st.sbox := rfl
@[simp] theorem finish_ctext (st : State) : (finish st).ctext = st.ctext := rfl
@[simp] theorem finish_key (st : State) : (finish st).key = st.key := rfl
@[simp] theorem finish_salt (st : State) : (finish st).salt = st.salt := rfl
@[simp] theorem finish_cost (st : State) : (finish st).cost = st.cost := rfl
@[simp] theorem finish_keylen (st : State) : (finish st).keylen = st.keylen := rfl
@[simp] theorem finish_ien (st : State) : (finish st).ien = st.ien := rfl
@[simp] theorem finish_busy (st : State) : (finish st).busy = false := rfl
@[simp] theorem finish_done (st : State) : (finish st).done = true := rfl
@[simp] theorem finish_psv (st : State) : (finish st).psv = st.psv := rfl
@[simp] theorem finish_eOp (st : State) : (finish st).eOp = st.eOp := rfl
@[simp] theorem finish_eBusy (st : State) : (finish st).eBusy = st.eBusy := rfl
@[simp] theorem finish_eCost (st : State) : (finish st).eCost = st.eCost := rfl
@[simp] theorem finish_eKeylen (st : State) : (finish st).eKeylen = st.eKeylen := rfl
@[simp] theorem finish_eSeq (st : State) : (finish st).eSeq = st.eSeq := rfl
@[simp] theorem finish_eAddr (st : State) : (finish st).eAddr = st.eAddr := rfl
@[simp] theorem finish_op (st : State) : (finish st).op = st.op := rfl
@[simp] theorem finish_phase (st : State) : (finish st).phase = .idle := rfl
@[simp] theorem finish_sched (st : State) : (finish st).sched = .none := rfl
@[simp] theorem finish_widx (st : State) : (finish st).widx = st.widx := rfl
@[simp] theorem finish_rnd (st : State) : (finish st).rnd = st.rnd := rfl
@[simp] theorem finish_koff (st : State) : (finish st).koff = st.koff := rfl
@[simp] theorem finish_sidx (st : State) : (finish st).sidx = st.sidx := rfl
@[simp] theorem finish_iter (st : State) : (finish st).iter = st.iter := rfl
@[simp] theorem finish_pass (st : State) : (finish st).pass = st.pass := rfl
@[simp] theorem finish_chunk (st : State) : (finish st).chunk = st.chunk := rfl
@[simp] theorem finish_epoch (st : State) : (finish st).epoch = st.epoch := rfl
@[simp] theorem finish_inputs (st : State) : (finish st).inputs = st.inputs := rfl
@[simp] theorem finish_out (st : State) : (finish st).out = st.out := rfl

/-! ## `refuseCommand` -/

@[simp] theorem refuseCommand_l (n : Needs) (st : State) : (refuseCommand n st).l = st.l := rfl
@[simp] theorem refuseCommand_r (n : Needs) (st : State) : (refuseCommand n st).r = st.r := rfl
@[simp] theorem refuseCommand_p (n : Needs) (st : State) : (refuseCommand n st).p = st.p := rfl
@[simp] theorem refuseCommand_sbox (n : Needs) (st : State) : (refuseCommand n st).sbox = st.sbox := rfl
@[simp] theorem refuseCommand_ctext (n : Needs) (st : State) : (refuseCommand n st).ctext = st.ctext := rfl
@[simp] theorem refuseCommand_key (n : Needs) (st : State) : (refuseCommand n st).key = st.key := rfl
@[simp] theorem refuseCommand_salt (n : Needs) (st : State) : (refuseCommand n st).salt = st.salt := rfl
@[simp] theorem refuseCommand_cost (n : Needs) (st : State) : (refuseCommand n st).cost = st.cost := rfl
@[simp] theorem refuseCommand_keylen (n : Needs) (st : State) : (refuseCommand n st).keylen = st.keylen := rfl
@[simp] theorem refuseCommand_ien (n : Needs) (st : State) : (refuseCommand n st).ien = st.ien := rfl
@[simp] theorem refuseCommand_busy (n : Needs) (st : State) : (refuseCommand n st).busy = st.busy := rfl
@[simp] theorem refuseCommand_done (n : Needs) (st : State) : (refuseCommand n st).done = st.done := rfl
@[simp] theorem refuseCommand_psv (n : Needs) (st : State) : (refuseCommand n st).psv = st.psv := rfl
@[simp] theorem refuseCommand_eOp (n : Needs) (st : State) : (refuseCommand n st).eOp = st.eOp := rfl
@[simp] theorem refuseCommand_eBusy (n : Needs) (st : State) : (refuseCommand n st).eBusy = st.eBusy := rfl
@[simp] theorem refuseCommand_eCost (n : Needs) (st : State) : (refuseCommand n st).eCost = (st.eCost || badCost n st) := rfl
@[simp] theorem refuseCommand_eKeylen (n : Needs) (st : State) : (refuseCommand n st).eKeylen = (st.eKeylen || badLen n st) := rfl
@[simp] theorem refuseCommand_eSeq (n : Needs) (st : State) : (refuseCommand n st).eSeq = (st.eSeq || badSeq n st) := rfl
@[simp] theorem refuseCommand_eAddr (n : Needs) (st : State) : (refuseCommand n st).eAddr = st.eAddr := rfl
@[simp] theorem refuseCommand_op (n : Needs) (st : State) : (refuseCommand n st).op = st.op := rfl
@[simp] theorem refuseCommand_phase (n : Needs) (st : State) : (refuseCommand n st).phase = st.phase := rfl
@[simp] theorem refuseCommand_sched (n : Needs) (st : State) : (refuseCommand n st).sched = st.sched := rfl
@[simp] theorem refuseCommand_widx (n : Needs) (st : State) : (refuseCommand n st).widx = st.widx := rfl
@[simp] theorem refuseCommand_rnd (n : Needs) (st : State) : (refuseCommand n st).rnd = st.rnd := rfl
@[simp] theorem refuseCommand_koff (n : Needs) (st : State) : (refuseCommand n st).koff = st.koff := rfl
@[simp] theorem refuseCommand_sidx (n : Needs) (st : State) : (refuseCommand n st).sidx = st.sidx := rfl
@[simp] theorem refuseCommand_iter (n : Needs) (st : State) : (refuseCommand n st).iter = st.iter := rfl
@[simp] theorem refuseCommand_pass (n : Needs) (st : State) : (refuseCommand n st).pass = st.pass := rfl
@[simp] theorem refuseCommand_chunk (n : Needs) (st : State) : (refuseCommand n st).chunk = st.chunk := rfl
@[simp] theorem refuseCommand_epoch (n : Needs) (st : State) : (refuseCommand n st).epoch = st.epoch := rfl
@[simp] theorem refuseCommand_inputs (n : Needs) (st : State) : (refuseCommand n st).inputs = st.inputs := rfl
@[simp] theorem refuseCommand_out (n : Needs) (st : State) : (refuseCommand n st).out = st.out := rfl

/-! ## `accept` -/

@[simp] theorem accept_l (c : CmdOp) (st : State) : (accept c st).l = st.l := rfl
@[simp] theorem accept_r (c : CmdOp) (st : State) : (accept c st).r = st.r := rfl
@[simp] theorem accept_p (c : CmdOp) (st : State) : (accept c st).p = st.p := rfl
@[simp] theorem accept_sbox (c : CmdOp) (st : State) : (accept c st).sbox = st.sbox := rfl
@[simp] theorem accept_ctext (c : CmdOp) (st : State) : (accept c st).ctext = st.ctext := rfl
@[simp] theorem accept_key (c : CmdOp) (st : State) : (accept c st).key = st.key := rfl
@[simp] theorem accept_salt (c : CmdOp) (st : State) : (accept c st).salt = st.salt := rfl
@[simp] theorem accept_cost (c : CmdOp) (st : State) : (accept c st).cost = st.cost := rfl
@[simp] theorem accept_keylen (c : CmdOp) (st : State) : (accept c st).keylen = st.keylen := rfl
@[simp] theorem accept_ien (c : CmdOp) (st : State) : (accept c st).ien = st.ien := rfl
@[simp] theorem accept_busy (c : CmdOp) (st : State) : (accept c st).busy = true := rfl
@[simp] theorem accept_done (c : CmdOp) (st : State) : (accept c st).done = false := rfl
@[simp] theorem accept_psv (c : CmdOp) (st : State) : (accept c st).psv = st.psv := rfl
@[simp] theorem accept_eOp (c : CmdOp) (st : State) : (accept c st).eOp = st.eOp := rfl
@[simp] theorem accept_eBusy (c : CmdOp) (st : State) : (accept c st).eBusy = st.eBusy := rfl
@[simp] theorem accept_eCost (c : CmdOp) (st : State) : (accept c st).eCost = st.eCost := rfl
@[simp] theorem accept_eKeylen (c : CmdOp) (st : State) : (accept c st).eKeylen = st.eKeylen := rfl
@[simp] theorem accept_eSeq (c : CmdOp) (st : State) : (accept c st).eSeq = st.eSeq := rfl
@[simp] theorem accept_eAddr (c : CmdOp) (st : State) : (accept c st).eAddr = st.eAddr := rfl
@[simp] theorem accept_op (c : CmdOp) (st : State) : (accept c st).op = c := rfl
@[simp] theorem accept_phase (c : CmdOp) (st : State) : (accept c st).phase = st.phase := rfl
@[simp] theorem accept_sched (c : CmdOp) (st : State) : (accept c st).sched = st.sched := rfl
@[simp] theorem accept_widx (c : CmdOp) (st : State) : (accept c st).widx = st.widx := rfl
@[simp] theorem accept_rnd (c : CmdOp) (st : State) : (accept c st).rnd = st.rnd := rfl
@[simp] theorem accept_koff (c : CmdOp) (st : State) : (accept c st).koff = st.koff := rfl
@[simp] theorem accept_sidx (c : CmdOp) (st : State) : (accept c st).sidx = st.sidx := rfl
@[simp] theorem accept_iter (c : CmdOp) (st : State) : (accept c st).iter = st.iter := rfl
@[simp] theorem accept_pass (c : CmdOp) (st : State) : (accept c st).pass = st.pass := rfl
@[simp] theorem accept_chunk (c : CmdOp) (st : State) : (accept c st).chunk = st.chunk := rfl
@[simp] theorem accept_epoch (c : CmdOp) (st : State) : (accept c st).epoch = st.epoch := rfl
@[simp] theorem accept_inputs (c : CmdOp) (st : State) : (accept c st).inputs = st.inputs := rfl
@[simp] theorem accept_out (c : CmdOp) (st : State) : (accept c st).out = st.out := rfl

/-! ## `startInit` -/

@[simp] theorem startInit_l (st : State) : (startInit st).l = st.l := rfl
@[simp] theorem startInit_r (st : State) : (startInit st).r = st.r := rfl
@[simp] theorem startInit_p (st : State) : (startInit st).p = unspecifiedP (st.epoch + 1) := rfl
@[simp] theorem startInit_sbox (st : State) : (startInit st).sbox = unspecifiedS (st.epoch + 1) := rfl
@[simp] theorem startInit_ctext (st : State) : (startInit st).ctext = st.ctext := rfl
@[simp] theorem startInit_key (st : State) : (startInit st).key = st.key := rfl
@[simp] theorem startInit_salt (st : State) : (startInit st).salt = st.salt := rfl
@[simp] theorem startInit_cost (st : State) : (startInit st).cost = st.cost := rfl
@[simp] theorem startInit_keylen (st : State) : (startInit st).keylen = st.keylen := rfl
@[simp] theorem startInit_ien (st : State) : (startInit st).ien = st.ien := rfl
@[simp] theorem startInit_busy (st : State) : (startInit st).busy = st.busy := rfl
@[simp] theorem startInit_done (st : State) : (startInit st).done = st.done := rfl
@[simp] theorem startInit_psv (st : State) : (startInit st).psv = false := rfl
@[simp] theorem startInit_eOp (st : State) : (startInit st).eOp = st.eOp := rfl
@[simp] theorem startInit_eBusy (st : State) : (startInit st).eBusy = st.eBusy := rfl
@[simp] theorem startInit_eCost (st : State) : (startInit st).eCost = st.eCost := rfl
@[simp] theorem startInit_eKeylen (st : State) : (startInit st).eKeylen = st.eKeylen := rfl
@[simp] theorem startInit_eSeq (st : State) : (startInit st).eSeq = st.eSeq := rfl
@[simp] theorem startInit_eAddr (st : State) : (startInit st).eAddr = st.eAddr := rfl
@[simp] theorem startInit_op (st : State) : (startInit st).op = st.op := rfl
@[simp] theorem startInit_phase (st : State) : (startInit st).phase = .init := rfl
@[simp] theorem startInit_sched (st : State) : (startInit st).sched = .none := rfl
@[simp] theorem startInit_widx (st : State) : (startInit st).widx = 0 := rfl
@[simp] theorem startInit_rnd (st : State) : (startInit st).rnd = st.rnd := rfl
@[simp] theorem startInit_koff (st : State) : (startInit st).koff = st.koff := rfl
@[simp] theorem startInit_sidx (st : State) : (startInit st).sidx = st.sidx := rfl
@[simp] theorem startInit_iter (st : State) : (startInit st).iter = st.iter := rfl
@[simp] theorem startInit_pass (st : State) : (startInit st).pass = st.pass := rfl
@[simp] theorem startInit_chunk (st : State) : (startInit st).chunk = st.chunk := rfl
@[simp] theorem startInit_epoch (st : State) : (startInit st).epoch = st.epoch + 1 := rfl
@[simp] theorem startInit_inputs (st : State) : (startInit st).inputs = st.inputs := rfl
@[simp] theorem startInit_out (st : State) : (startInit st).out = st.out := rfl

/-! ## `startEncipher` -/

@[simp] theorem startEncipher_l (st : State) : (startEncipher st).l = st.l := rfl
@[simp] theorem startEncipher_r (st : State) : (startEncipher st).r = st.r := rfl
@[simp] theorem startEncipher_p (st : State) : (startEncipher st).p = st.p := rfl
@[simp] theorem startEncipher_sbox (st : State) : (startEncipher st).sbox = st.sbox := rfl
@[simp] theorem startEncipher_ctext (st : State) : (startEncipher st).ctext = st.ctext := rfl
@[simp] theorem startEncipher_key (st : State) : (startEncipher st).key = st.key := rfl
@[simp] theorem startEncipher_salt (st : State) : (startEncipher st).salt = st.salt := rfl
@[simp] theorem startEncipher_cost (st : State) : (startEncipher st).cost = st.cost := rfl
@[simp] theorem startEncipher_keylen (st : State) : (startEncipher st).keylen = st.keylen := rfl
@[simp] theorem startEncipher_ien (st : State) : (startEncipher st).ien = st.ien := rfl
@[simp] theorem startEncipher_busy (st : State) : (startEncipher st).busy = st.busy := rfl
@[simp] theorem startEncipher_done (st : State) : (startEncipher st).done = st.done := rfl
@[simp] theorem startEncipher_psv (st : State) : (startEncipher st).psv = st.psv := rfl
@[simp] theorem startEncipher_eOp (st : State) : (startEncipher st).eOp = st.eOp := rfl
@[simp] theorem startEncipher_eBusy (st : State) : (startEncipher st).eBusy = st.eBusy := rfl
@[simp] theorem startEncipher_eCost (st : State) : (startEncipher st).eCost = st.eCost := rfl
@[simp] theorem startEncipher_eKeylen (st : State) : (startEncipher st).eKeylen = st.eKeylen := rfl
@[simp] theorem startEncipher_eSeq (st : State) : (startEncipher st).eSeq = st.eSeq := rfl
@[simp] theorem startEncipher_eAddr (st : State) : (startEncipher st).eAddr = st.eAddr := rfl
@[simp] theorem startEncipher_op (st : State) : (startEncipher st).op = st.op := rfl
@[simp] theorem startEncipher_phase (st : State) : (startEncipher st).phase = .round := rfl
@[simp] theorem startEncipher_sched (st : State) : (startEncipher st).sched = .none := rfl
@[simp] theorem startEncipher_widx (st : State) : (startEncipher st).widx = st.widx := rfl
@[simp] theorem startEncipher_rnd (st : State) : (startEncipher st).rnd = 1 := rfl
@[simp] theorem startEncipher_koff (st : State) : (startEncipher st).koff = st.koff := rfl
@[simp] theorem startEncipher_sidx (st : State) : (startEncipher st).sidx = st.sidx := rfl
@[simp] theorem startEncipher_iter (st : State) : (startEncipher st).iter = st.iter := rfl
@[simp] theorem startEncipher_pass (st : State) : (startEncipher st).pass = st.pass := rfl
@[simp] theorem startEncipher_chunk (st : State) : (startEncipher st).chunk = st.chunk := rfl
@[simp] theorem startEncipher_epoch (st : State) : (startEncipher st).epoch = st.epoch := rfl
@[simp] theorem startEncipher_inputs (st : State) : (startEncipher st).inputs = st.inputs := rfl
@[simp] theorem startEncipher_out (st : State) : (startEncipher st).out = st.out := rfl

/-! ## `beginCycle` -/

@[simp] theorem beginCycle_l (st : State) : (beginCycle st).l = st.l := rfl
@[simp] theorem beginCycle_r (st : State) : (beginCycle st).r = st.r := rfl
@[simp] theorem beginCycle_p (st : State) : (beginCycle st).p = st.p := rfl
@[simp] theorem beginCycle_sbox (st : State) : (beginCycle st).sbox = st.sbox := rfl
@[simp] theorem beginCycle_ctext (st : State) : (beginCycle st).ctext = st.ctext := rfl
@[simp] theorem beginCycle_key (st : State) : (beginCycle st).key = st.key := rfl
@[simp] theorem beginCycle_salt (st : State) : (beginCycle st).salt = st.salt := rfl
@[simp] theorem beginCycle_cost (st : State) : (beginCycle st).cost = st.cost := rfl
@[simp] theorem beginCycle_keylen (st : State) : (beginCycle st).keylen = st.keylen := rfl
@[simp] theorem beginCycle_ien (st : State) : (beginCycle st).ien = st.ien := rfl
@[simp] theorem beginCycle_busy (st : State) : (beginCycle st).busy = st.busy := rfl
@[simp] theorem beginCycle_done (st : State) : (beginCycle st).done = st.done := rfl
@[simp] theorem beginCycle_psv (st : State) : (beginCycle st).psv = st.psv := rfl
@[simp] theorem beginCycle_eOp (st : State) : (beginCycle st).eOp = st.eOp := rfl
@[simp] theorem beginCycle_eBusy (st : State) : (beginCycle st).eBusy = st.eBusy := rfl
@[simp] theorem beginCycle_eCost (st : State) : (beginCycle st).eCost = st.eCost := rfl
@[simp] theorem beginCycle_eKeylen (st : State) : (beginCycle st).eKeylen = st.eKeylen := rfl
@[simp] theorem beginCycle_eSeq (st : State) : (beginCycle st).eSeq = st.eSeq := rfl
@[simp] theorem beginCycle_eAddr (st : State) : (beginCycle st).eAddr = st.eAddr := rfl
@[simp] theorem beginCycle_op (st : State) : (beginCycle st).op = st.op := rfl
@[simp] theorem beginCycle_phase (st : State) : (beginCycle st).phase = st.phase := rfl
@[simp] theorem beginCycle_sched (st : State) : (beginCycle st).sched = st.sched := rfl
@[simp] theorem beginCycle_widx (st : State) : (beginCycle st).widx = st.widx := rfl
@[simp] theorem beginCycle_rnd (st : State) : (beginCycle st).rnd = st.rnd := rfl
@[simp] theorem beginCycle_koff (st : State) : (beginCycle st).koff = st.koff := rfl
@[simp] theorem beginCycle_sidx (st : State) : (beginCycle st).sidx = st.sidx := rfl
@[simp] theorem beginCycle_iter (st : State) : (beginCycle st).iter = st.iter := rfl
@[simp] theorem beginCycle_pass (st : State) : (beginCycle st).pass = st.pass := rfl
@[simp] theorem beginCycle_chunk (st : State) : (beginCycle st).chunk = st.chunk := rfl
@[simp] theorem beginCycle_epoch (st : State) : (beginCycle st).epoch = st.epoch := rfl
@[simp] theorem beginCycle_inputs (st : State) : (beginCycle st).inputs = st.inputs.tail := rfl
@[simp] theorem beginCycle_out (st : State) : (beginCycle st).out = ⟨0, irqLine st⟩ := rfl

/-! ## The view `schedule` -/

@[simp] theorem schedule_p (st : State) : st.schedule.p = st.p := rfl
@[simp] theorem schedule_sbox (st : State) : st.schedule.sbox = st.sbox := rfl
@[simp] theorem storeWord_schedule (k : Fin 1042) (v : Word) (st : State) :
    (storeWord k v st).schedule = psWrite st.schedule k v := rfl

end Sys2Proof.Machine
end

