-- ==== Sys2Proof/Laws/Store.lean ====
section
/-! SUPPORT. Reading and writing the flat view `PS` (10_state.md R12). -/

namespace Sys2Proof.Machine

/-- Reading after one write: the written word at its own index, every other word as before. -/
theorem psRead_psWrite (ps : Schedule) (k j : Fin 1042) (v : Word) :
    psRead (psWrite ps k v) j = if j.val = k.val then v else psRead ps j := by
  unfold psRead psWrite
  by_cases hk : k.val < 18 <;> by_cases hj : j.val < 18 <;> simp only [hk, hj, dite_true, dite_false]
  · rw [Vector.getElem_set]
    simp only [eq_comm]
  · rw [if_neg (by omega)]
  · rw [if_neg (by omega)]
  · by_cases hb : (k.val - 18) / 256 = (j.val - 18) / 256
    · by_cases hi : (k.val - 18) % 256 = (j.val - 18) % 256
      · rw [if_pos (by omega)]
        simp [hb, hi]
      · rw [if_neg (by omega)]
        simp [hb, hi]
    · rw [if_neg (by omega)]
      simp [hb]

theorem psRead_psWrite_self (ps : Schedule) (k : Fin 1042) (v : Word) : psRead (psWrite ps k v) k = v := by
  rw [psRead_psWrite, if_pos rfl]

theorem psRead_psWrite_ne (ps : Schedule) (k j : Fin 1042) (v : Word) (h : j.val ≠ k.val) :
    psRead (psWrite ps k v) j = psRead ps j := by
  rw [psRead_psWrite, if_neg h]

/-- `PS[i] = P[i]` for `i < 18` (10_state.md R12). -/
theorem psRead_p (ps : Schedule) (i : Fin 18) : psRead ps ⟨i.val, by omega⟩ = ps.p[i.val] := by
  simp [psRead, i.isLt]

/-- `PS[18 + 256*b + j] = S[b][j]` (10_state.md R12). -/
theorem psRead_sbox (ps : Schedule) (b : Fin 4) (j : Fin 256) :
    psRead ps ⟨18 + 256 * b.val + j.val, by omega⟩ = ps.sbox[b.val][j.val] := by
  have h1 : (18 + 256 * b.val + j.val - 18) / 256 = b.val := by omega
  have h2 : (18 + 256 * b.val + j.val - 18) % 256 = j.val := by omega
  have h : ¬ (18 + 256 * b.val + j.val < 18) := by omega
  simp only [psRead, h, dite_false, h1, h2]

/-- Two schedules that agree in every word of `PS` are equal. -/
theorem schedule_ext (a b : Schedule) (h : ∀ k, psRead a k = psRead b k) : a = b := by
  cases a with
  | mk pa sa =>
    cases b with
    | mk pb sb =>
      have hp : pa = pb := by
        apply Vector.ext
        intro i hi
        have := h ⟨i, by omega⟩
        simpa [psRead, hi] using this
      have hs : sa = sb := by
        apply Vector.ext
        intro i hi
        apply Vector.ext
        intro j hj
        have := h ⟨18 + 256 * i + j, by omega⟩
        have e1 := psRead_sbox ⟨pa, sa⟩ ⟨i, hi⟩ ⟨j, hj⟩
        have e2 := psRead_sbox ⟨pb, sb⟩ ⟨i, hi⟩ ⟨j, hj⟩
        simp only at e1 e2
        rw [← e1, ← e2]
        exact this
      rw [hp, hs]

/-- Reading a word of a stored-to state. -/
theorem psRead_storeWord (k j : Fin 1042) (v : Word) (st : State) :
    psRead (storeWord k v st).schedule j = if j.val = k.val then v else psRead st.schedule j := by
  rw [storeWord_schedule, psRead_psWrite]

end Sys2Proof.Machine
end

