-- ==== Sys2Proof/Laws/Ops.lean ====
section
/-! SUPPORT. For each shared operation, once, everything it can do. -/

namespace Sys2Proof.Machine

/-! ## Commands -/

/-- The three outcomes of the dispatch of a command (44_host_commands.md R114 steps 4 to 6). -/
theorem dispatch_cases (n : Needs) (f : State → State) (st : State) :
    (st.busy = true ∧ dispatch n f st = raise .busy st)
      ∨ (st.busy = false ∧ (badSeq n st = true ∨ badLen n st = true ∨ badCost n st = true)
          ∧ dispatch n f st = refuseCommand n st)
      ∨ (st.busy = false ∧ badSeq n st = false ∧ badLen n st = false ∧ badCost n st = false
          ∧ dispatch n f st = f st) := by
  unfold dispatch
  cases st.busy <;> cases badSeq n st <;> cases badLen n st <;> cases badCost n st <;> simp

theorem dispatch_busy (n : Needs) (f : State → State) (st : State) (h : st.busy = true) :
    dispatch n f st = raise .busy st := by
  simp [dispatch, h]

/-- A `CTRL` write is the command its datum decodes to, or raises `E_OP` (44_host_commands.md R114). -/
theorem writeCtrl_eq (w : Word) (st : State) :
    writeCtrl w st =
      match decodeCmd w with
      | .ok c => exec c st
      | .error _ => .next (raise .op st) := by
  unfold writeCtrl
  cases hd : decodeCmd w with
  | error e => rfl
  | ok c =>
    have hc := decodeCmd_ok_width w c hd
    cases c <;> first | rfl | simp [tableRow] at hc

/-! ## The bus -/

/-- The register map is inverse to the addresses (20_memory.md R36). -/
theorem regAt_regAddr (reg : Reg) : regAt (regAddr reg) = some reg := by
  cases reg with
  | salt i => revert i; decide
  | ctext i => revert i; decide
  | key i => revert i; decide
  | _ => decide

/-- A register is found only at its own address (20_memory.md R36). -/
theorem regAddr_of_regAt (addr : BitVec 10) (reg : Reg) (h : regAt addr = some reg) : regAddr reg = addr := by
  have key : ∀ a : BitVec 10, (regAt a).all (fun r => regAddr r == a) = true := by decide +kernel
  have := key addr
  rw [h] at this
  simpa using this

theorem writeOperand_cases (f : State → State) (st : State) :
    (st.busy = true ∧ writeOperand f st = raise .busy st) ∨ (st.busy = false ∧ writeOperand f st = f st) := by
  unfold writeOperand
  cases st.busy <;> simp

/-! ## The sequencer's groups -/

/-- Everything `EndSched` can do (43_costloop.md R96). -/
theorem endSched_cases (st : State) :
    ((st.op = .keyPw ∨ st.op = .keySalt ∨ st.op = .ekskey) ∧ endSched st = finish st)
      ∨ (st.op = .crypt ∧ st.sched = .eks ∧ endSched st = startSched .kpw { st with iter := iterationCount st })
      ∨ (st.op = .crypt ∧ st.sched = .kpw ∧ endSched st = startSched .ksalt st)
      ∨ (st.op = .crypt ∧ st.sched = .ksalt ∧ st.iter = 1
          ∧ endSched st = { st with iter := 0, sched := .none, phase := .cload })
      ∨ (st.op = .crypt ∧ st.sched = .ksalt ∧ st.iter ≠ 1
          ∧ endSched st = startSched .kpw { st with iter := st.iter - 1 })
      ∨ ((st.op = .none ∨ st.op = .init ∨ st.op = .encipher ∨ (st.op = .crypt ∧ st.sched = .none))
          ∧ endSched st = st) := by
  unfold endSched
  cases ho : st.op with
  | crypt =>
    cases hs : st.sched with
    | ksalt => by_cases hi : st.iter = 1#32 <;> simp [hi]
    | _ => simp
  | _ => simp

/-- Everything that can follow the last `U_INIT` (43_costloop.md R95). -/
theorem endInit_cases (st : State) :
    (st.op = .init ∧ endInit st = finish st) ∨ (st.op = .crypt ∧ endInit st = startSched .eks st)
      ∨ (st.op ≠ .init ∧ st.op ≠ .crypt ∧ endInit st = st) := by
  unfold endInit
  cases st.op <;> simp

/-! ## The word stream -/

/-- On its domain `StreamWord` reads bytes of the string only; the default of `getD` is not used (log 15). -/
theorem streamWord_eq (b : List Byte) (off : Nat) (h : 0 < b.length) :
    streamWord b off = packBytes (b[off % b.length]'(Nat.mod_lt _ h)) (b[(off + 1) % b.length]'(Nat.mod_lt _ h))
      (b[(off + 2) % b.length]'(Nat.mod_lt _ h)) (b[(off + 3) % b.length]'(Nat.mod_lt _ h)) := by
  simp [streamWord, List.getD_eq_getElem?_getD, Nat.mod_lt, h]

theorem keyString_length (key : Vector Word 18) (n : Nat) : (keyString key n).length = min n 72 := by
  simp [keyString]

theorem saltString_length (salt : Vector Word 4) : (saltString salt).length = 16 := by
  simp [saltString]

theorem keylenLegal_iff (st : State) : keylenLegal st = true ↔ 1 ≤ st.keylen.toNat ∧ st.keylen.toNat ≤ 72 := by
  simp [keylenLegal]

theorem costLegal_iff (st : State) : costLegal st = true ↔ 4 ≤ st.cost.toNat ∧ st.cost.toNat ≤ 31 := by
  simp [costLegal]

/-- The operand of `U_XORP` in a run over the key bytes, as a function of what it reads. -/
theorem keyWord_eq (st : State) (h : 1 ≤ st.keylen.toNat ∧ st.keylen.toNat ≤ 72) :
    keyWord st = some (streamWord (keyString st.key st.keylen.toNat) st.koff.toNat) := by
  simp [keyWord, (keylenLegal_iff st).2 h]

/-- The offset after one key word (40_wordstream.md R66): `KEYLEN` is at most 72, so it fits in 7 bits. -/
theorem nextKoff_toNat (st : State) (h : 1 ≤ st.keylen.toNat ∧ st.keylen.toNat ≤ 72) :
    (nextKoff st).toNat = (st.koff.toNat + 4) % st.keylen.toNat := by
  have hlt : (st.koff.toNat + 4) % st.keylen.toNat < st.keylen.toNat := Nat.mod_lt _ (by omega)
  simp only [nextKoff, BitVec.toNat_ofNat]
  omega

/-- The iteration count of a legal cost (43_costloop.md R97). -/
theorem iterationCount_toNat (st : State) (h : st.cost.toNat ≤ 31) :
    (iterationCount st).toNat = 2 ^ st.cost.toNat := by
  have hm : (st.cost.extractLsb' 0 5).toNat = st.cost.toNat := by
    simp only [BitVec.extractLsb'_toNat, Nat.shiftRight_zero]
    omega
  have hp : 2 ^ st.cost.toNat < 2 ^ 32 := Nat.pow_lt_pow_right (by omega) (by omega)
  simp only [iterationCount, BitVec.shiftLeft_eq', BitVec.toNat_shiftLeft, hm, BitVec.toNat_ofNat,
    Nat.shiftLeft_eq]
  rw [Nat.mod_eq_of_lt (by omega : 1 < 2 ^ 32), Nat.one_mul, Nat.mod_eq_of_lt hp]

/-! ## The cipher and the schedule functions -/

@[simp] theorem encipherRounds_zero (hn : 0 ≤ 16) (b : Block) (ps : Schedule) : encipherRounds 0 hn b ps = b := rfl

/-- One more round (41_feistel.md R74). -/
theorem encipherRounds_succ (n : Nat) (hn : n + 1 ≤ 16) (b : Block) (ps : Schedule) :
    encipherRounds (n + 1) hn b ps = roundStep ⟨n + 1, by omega⟩ (encipherRounds n (by omega) b ps) ps := by
  simp [encipherRounds, Nat.fold_succ]

@[simp] theorem fill_zero (hn : 0 ≤ 521) (mix : Nat → Block → Block) (ps : Schedule) :
    fill 0 hn mix ps = (⟨0, 0⟩, ps) := rfl

/-- One more block of stage 2 (42_keyschedule.md R86). -/
theorem fill_succ (n : Nat) (hn : n + 1 ≤ 521) (mix : Nat → Block → Block) (ps : Schedule) :
    fill (n + 1) hn mix ps = fillBlock mix n (by omega) (fill n (by omega) mix ps) := by
  simp [fill, Nat.fold_succ]

@[simp] theorem xorPass_zero (hn : 0 ≤ 18) (w : Nat → Word) (ps : Schedule) : xorPass 0 hn w ps = ps := rfl

/-- One more word of stage 1 (42_keyschedule.md R86). -/
theorem xorPass_succ (n : Nat) (hn : n + 1 ≤ 18) (w : Nat → Word) (ps : Schedule) :
    xorPass (n + 1) hn w ps =
      { xorPass n (by omega) w ps with
        p := (xorPass n (by omega) w ps).p.set n ((xorPass n (by omega) w ps).p[n] ^^^ w n) } := by
  simp [xorPass, Nat.fold_succ]

/-- Stage 1 word by word: the first `n` words of `P` are XORed with theirs, the others are not touched. -/
theorem xorPass_p (n : Nat) (hn : n ≤ 18) (w : Nat → Word) (ps : Schedule) (i : Nat) (hi : i < 18) :
    (xorPass n hn w ps).p[i] = if i < n then ps.p[i] ^^^ w i else ps.p[i] := by
  induction n with
  | zero => simp
  | succ n ih =>
    rw [xorPass_succ]
    simp only [Vector.getElem_set]
    have ih' := ih (by omega)
    by_cases h : n = i
    · subst h
      have hp : (xorPass n (by omega) w ps).p[n] = ps.p[n] := by rw [ih']; simp
      rw [if_pos rfl, if_pos (by omega), hp]
    · rw [if_neg h, ih']
      by_cases h2 : i < n
      · rw [if_pos h2, if_pos (by omega)]
      · rw [if_neg h2, if_neg (by omega)]

/-- Stage 1 does not touch `S`. -/
@[simp] theorem xorPass_sbox (n : Nat) (hn : n ≤ 18) (w : Nat → Word) (ps : Schedule) :
    (xorPass n hn w ps).sbox = ps.sbox := rfl

/-! ## Runs -/

@[simp] theorem cycles_zero (st : State) : cycles 0 st = .next st := rfl

theorem cycles_succ (n : Nat) (st : State) :
    cycles (n + 1) st =
      match step st with
      | .next t => cycles n t
      | .fault f => .fault f
      | .refused r => .refused r := rfl

/-- A run of `m + n` cycles is a run of `m` and then one of `n`. -/
theorem cycles_add (m n : Nat) (st t : State) (h : cycles m st = .next t) : cycles (m + n) st = cycles n t := by
  induction m generalizing st with
  | zero =>
    rw [Nat.zero_add]
    cases h
    rfl
  | succ m ih =>
    rw [Nat.add_right_comm, cycles_succ]
    rw [cycles_succ] at h
    split at h
    · rename_i u hu
      exact ih u h
    · cases h
    · cases h

end Sys2Proof.Machine
end

