-- ==== Sys2Proof/Laws/Step.lean ====
section
/-! SUPPORT. What one clock cycle can do: `step` by cases, the frame of the engine part, the frame of the host part
while a command runs, and that the two commute (44_host_commands.md R110 (6)). -/

namespace Sys2Proof.Machine

/-! ## `step` by cases -/

theorem step_reset (st : State) (h : (currentPorts st).rst = true) : step st = .next (resetCycle (beginCycle st)) := by
  simp [step, h]

/-- A cycle without a transaction is the engine part alone. -/
theorem step_noTransaction (st : State) (hr : (currentPorts st).rst = false) (hs : (currentPorts st).sel = false) :
    step st = exec (fetchEngine st) (beginCycle st) := by
  simp [step, hr, fetchHost, hs]

theorem step_host (st : State) (h : Instr) (hr : (currentPorts st).rst = false)
    (hs : fetchHost (currentPorts st) = some h) : step st = engineAfter st h (exec h (beginCycle st)) := by
  simp [step, hr, hs]

/-- On an idle core a cycle with a transaction is the host part alone. -/
theorem step_idle (st : State) (h : Instr) (hr : (currentPorts st).rst = false)
    (hs : fetchHost (currentPorts st) = some h) (hb : st.busy = false) : step st = exec h (beginCycle st) := by
  rw [step_host st h hr hs]
  have hf : fetchEngine st = .uIdle := by simp [fetchEngine, hb]
  cases exec h (beginCycle st) with
  | next t =>
    simp only [engineAfter, hf]
    split <;> rfl
  | fault f => rfl
  | refused r => rfl

theorem fetchEngine_busy (st : State) (hb : st.busy = true) : fetchEngine st = phaseInstr st.phase := by
  simp [fetchEngine, hb]

theorem fetchEngine_idle (st : State) (hb : st.busy = false) : fetchEngine st = .uIdle := by
  simp [fetchEngine, hb]

/-! ## The two parts of a cycle -/

/-- `st` with the fields only the host part of a cycle changes, and `DONE`, taken from `x`. -/
def takeHost (x st : State) : State :=
  { st with
    done := x.done, ien := x.ien, eOp := x.eOp, eBusy := x.eBusy, eCost := x.eCost, eKeylen := x.eKeylen,
    eSeq := x.eSeq, eAddr := x.eAddr, inputs := x.inputs, out := x.out }

/-- What a host instruction other than `ABORT` does while a command runs: error flags, `IEN`, `DONE` (only to 0) and
the read datum; it always completes. -/
theorem exec_host_busy (inp : PortIn) (h : Instr) (st : State) (hf : fetchHost inp = some h) (ha : h ≠ .abort)
    (hb : st.busy = true) :
    ∃ th, exec h st = .next th ∧ th = takeHost th st ∧ (th.done = true → st.done = true)
      ∧ th.inputs = st.inputs ∧ th.out.irq = st.out.irq := by
  have hraise : ∀ e s, s = takeHost s st → s.done = st.done → s.inputs = st.inputs → s.out.irq = st.out.irq →
      (raise e s) = takeHost (raise e s) st ∧ ((raise e s).done = true → st.done = true)
        ∧ (raise e s).inputs = st.inputs ∧ (raise e s).out.irq = st.out.irq := by
    intro e s h1 h2 h3 h4
    rw [h1]
    cases e <;> simp [raise, takeHost, h2, h3, h4]
  have hself : ∀ e, (raise e st) = takeHost (raise e st) st ∧ ((raise e st).done = true → st.done = true)
        ∧ (raise e st).inputs = st.inputs ∧ (raise e st).out.irq = st.out.irq := fun e => hraise e st rfl rfl rfl rfl
  have hdisp : ∀ n f, ∃ th, Host.Outcome.next (φ := Fault) (ρ := Refusal) (dispatch n f st) = .next th
      ∧ th = takeHost th st ∧ (th.done = true → st.done = true)
      ∧ th.inputs = st.inputs ∧ th.out.irq = st.out.irq := by
    intro n f
    rw [dispatch_busy n f st hb]
    exact ⟨_, rfl, hself .busy⟩
  have hwr : ∀ addr wdata, (addr = ctrlAddr → 8 ≤ wdata.toNat) → ∃ th, execWr addr wdata st = .next th
      ∧ th = takeHost th st ∧ (th.done = true → st.done = true)
      ∧ th.inputs = st.inputs ∧ th.out.irq = st.out.irq := by
    intro addr wdata hc
    have hop : ∀ f, ∃ th, Host.Outcome.next (φ := Fault) (ρ := Refusal) (writeOperand f st) = .next th
        ∧ th = takeHost th st ∧ (th.done = true → st.done = true)
        ∧ th.inputs = st.inputs ∧ th.out.irq = st.out.irq := by
      intro f
      refine ⟨_, rfl, ?_⟩
      rw [show writeOperand f st = raise .busy st by simp [writeOperand, hb]]
      exact hself .busy
    unfold execWr
    cases hreg : regAt addr with
    | none => exact ⟨_, rfl, hself .addr⟩
    | some reg =>
      cases reg with
      | id => exact ⟨_, rfl, hself .addr⟩
      | ctext i => exact ⟨_, rfl, hself .addr⟩
      | ctrl =>
        have h8 := hc (regAddr_of_regAt addr _ hreg).symm
        simp only [writeCtrl_eq]
        rcases decodeCmd_cases wdata with h' | h' | h' | h' | h' | h' | h' | h' | h'
        iterate 8 (have := h'.1; subst this; exact absurd h8 (by decide))
        rw [h'.2]
        exact ⟨_, rfl, hself .op⟩
      | status =>
        refine ⟨_, rfl, ?_⟩
        simp [writeOnesToClear, takeHost]
        intro h1 _
        exact h1
      | ien => exact ⟨_, rfl, rfl, id, rfl, rfl⟩
      | cost => exact hop _
      | keylen => exact hop _
      | salt i => exact hop _
      | lr0 => exact hop _
      | lr1 => exact hop _
      | key i => exact hop _
  rcases (fetchHost_cases inp h hf).2 with ⟨_, rfl⟩ | ⟨_, hna, rfl⟩ | ⟨_, _, h8, rfl⟩ | ⟨_, _, hd⟩
  · show ∃ th, execRd inp.addr st = .next th ∧ _
    unfold execRd
    cases regAt inp.addr with
    | none => exact ⟨_, rfl, hraise .addr _ rfl rfl rfl rfl⟩
    | some r => exact ⟨_, rfl, rfl, id, rfl, rfl⟩
  · exact hwr _ _ (fun hc => absurd hc hna)
  · exact hwr _ _ (fun _ => h8)
  · rcases decodeCmd_cases inp.wdata with h' | h' | h' | h' | h' | h' | h' | h' | h'
    all_goals rw [h'.2] at hd
    all_goals cases hd
    · exact ⟨_, rfl, rfl, id, rfl, rfl⟩
    · exact hdisp _ _
    · exact hdisp _ _
    · exact hdisp _ _
    · exact hdisp _ _
    · exact hdisp _ _
    · exact hdisp _ _
    · exact absurd rfl ha

/-- What a micro-operation leaves alone while a command runs; and `DONE` is set exactly when the command completes. -/
structure EngineFrame (st te : State) : Prop where
  key : te.key = st.key
  salt : te.salt = st.salt
  cost : te.cost = st.cost
  keylen : te.keylen = st.keylen
  ien : te.ien = st.ien
  eOp : te.eOp = st.eOp
  eBusy : te.eBusy = st.eBusy
  eCost : te.eCost = st.eCost
  eKeylen : te.eKeylen = st.eKeylen
  eSeq : te.eSeq = st.eSeq
  eAddr : te.eAddr = st.eAddr
  op : te.op = st.op
  epoch : te.epoch = st.epoch
  inputs : te.inputs = st.inputs
  out : te.out = st.out
  psv : st.psv = true → te.psv = true
  done : te.done = if te.busy = true then st.done else true

theorem EngineFrame.finish {st te : State} (h : EngineFrame st te) : EngineFrame st (finish te) :=
  ⟨h.key, h.salt, h.cost, h.keylen, h.ien, h.eOp, h.eBusy, h.eCost, h.eKeylen, h.eSeq, h.eAddr,
    h.op, h.epoch, h.inputs, h.out, h.psv, rfl⟩

theorem EngineFrame.endSched {st te : State} (h : EngineFrame st te) : EngineFrame st (endSched te) := by
  rcases endSched_cases te with ⟨_, e⟩ | ⟨_, _, e⟩ | ⟨_, _, e⟩ | ⟨_, _, _, e⟩ | ⟨_, _, _, e⟩ | ⟨_, e⟩ <;> rw [e]
  · exact h.finish
  all_goals exact ⟨h.key, h.salt, h.cost, h.keylen, h.ien, h.eOp, h.eBusy, h.eCost, h.eKeylen, h.eSeq, h.eAddr,
    h.op, h.epoch, h.inputs, h.out, h.psv, h.done⟩

theorem EngineFrame.endInit {st te : State} (h : EngineFrame st te) : EngineFrame st (endInit te) := by
  rcases endInit_cases te with ⟨_, e⟩ | ⟨_, e⟩ | ⟨_, _, e⟩ <;> rw [e]
  · exact h.finish
  all_goals exact ⟨h.key, h.salt, h.cost, h.keylen, h.ien, h.eOp, h.eBusy, h.eCost, h.eKeylen, h.eSeq, h.eAddr,
    h.op, h.epoch, h.inputs, h.out, h.psv, h.done⟩

/-- The frame of the engine part: what no micro-operation writes. -/
theorem engine_frame (ph : Phase) (st te : State) (hb : st.busy = true) (h : exec (phaseInstr ph) st = .next te) :
    EngineFrame st te := by
  have h0 : ∀ s : State, s.busy = true → s.done = st.done → s.key = st.key → s.salt = st.salt → s.cost = st.cost →
      s.keylen = st.keylen → s.ien = st.ien → s.eOp = st.eOp → s.eBusy = st.eBusy → s.eCost = st.eCost →
      s.eKeylen = st.eKeylen → s.eSeq = st.eSeq → s.eAddr = st.eAddr → s.op = st.op → s.epoch = st.epoch →
      s.inputs = st.inputs → s.out = st.out → (st.psv = true → s.psv = true) → EngineFrame st s := by
    intro s hb' hd _ _ _ _ _ _ _ _ _ _ _ _ _ _ _ _
    constructor <;> first
      | assumption
      | rw [if_pos hb', hd]
  cases ph <;> simp only [phaseInstr, exec] at h
  · simp only [execUIdle] at h
    cases h
    exact h0 _ hb rfl rfl rfl rfl rfl rfl rfl rfl rfl rfl rfl rfl rfl rfl rfl rfl id
  · simp only [execUInit] at h
    split at h
    · split at h
      · cases h
        exact h0 _ hb rfl rfl rfl rfl rfl rfl rfl rfl rfl rfl rfl rfl rfl rfl rfl rfl id
      · cases h
        refine EngineFrame.endInit (h0 _ ?_ rfl rfl rfl rfl rfl rfl rfl rfl rfl rfl rfl rfl rfl rfl rfl rfl (fun _ => rfl))
        exact hb
    · cases h
  · simp only [execUXorp] at h
    split at h
    · split at h
      · cases h
      · split at h
        all_goals
          cases h
          exact h0 _ hb rfl rfl rfl rfl rfl rfl rfl rfl rfl rfl rfl rfl rfl rfl rfl rfl id
    · cases h
  · simp only [execUSalt] at h
    cases h
    exact h0 _ hb rfl rfl rfl rfl rfl rfl rfl rfl rfl rfl rfl rfl rfl rfl rfl rfl id
  · simp only [execURound] at h
    split at h
    · split at h
      · cases h
        exact h0 _ hb rfl rfl rfl rfl rfl rfl rfl rfl rfl rfl rfl rfl rfl rfl rfl rfl id
      · split at h
        · cases h
          exact h0 _ hb rfl rfl rfl rfl rfl rfl rfl rfl rfl rfl rfl rfl rfl rfl rfl rfl id
        · split at h
          · cases h
            exact EngineFrame.finish (h0 _ hb rfl rfl rfl rfl rfl rfl rfl rfl rfl rfl rfl rfl rfl rfl rfl rfl id)
          · cases h
            exact h0 _ hb rfl rfl rfl rfl rfl rfl rfl rfl rfl rfl rfl rfl rfl rfl rfl rfl id
    · cases h
  · simp only [execUSt0] at h
    split at h
    · cases h
      exact h0 _ hb rfl rfl rfl rfl rfl rfl rfl rfl rfl rfl rfl rfl rfl rfl rfl rfl id
    · cases h
  · simp only [execUSt1] at h
    split at h
    · split at h
      · cases h
        exact h0 _ hb rfl rfl rfl rfl rfl rfl rfl rfl rfl rfl rfl rfl rfl rfl rfl rfl id
      · cases h
        exact EngineFrame.endSched (h0 _ hb rfl rfl rfl rfl rfl rfl rfl rfl rfl rfl rfl rfl rfl rfl rfl rfl id)
    · cases h
  · simp only [execUCload] at h
    cases h
    exact h0 _ hb rfl rfl rfl rfl rfl rfl rfl rfl rfl rfl rfl rfl rfl rfl rfl rfl id
  · simp only [execUBld] at h
    split at h
    · cases h
      exact h0 _ hb rfl rfl rfl rfl rfl rfl rfl rfl rfl rfl rfl rfl rfl rfl rfl rfl id
    · cases h
  · simp only [execUBst] at h
    split at h
    · split at h
      · cases h
        exact h0 _ hb rfl rfl rfl rfl rfl rfl rfl rfl rfl rfl rfl rfl rfl rfl rfl rfl id
      · split at h
        · cases h
          exact h0 _ hb rfl rfl rfl rfl rfl rfl rfl rfl rfl rfl rfl rfl rfl rfl rfl rfl id
        · cases h
          exact EngineFrame.finish (h0 _ hb rfl rfl rfl rfl rfl rfl rfl rfl rfl rfl rfl rfl rfl rfl rfl rfl id)
    · cases h

/-- The engine part after the host part: what it gives on the fields the host part may have changed. -/
def afterHost (x te : State) : State :=
  { takeHost x te with done := if te.busy = true then x.done else true }

theorem afterHost_of_busy (x te : State) (h : te.busy = true) : afterHost x te = takeHost x te := by
  simp [afterHost, takeHost, h]

theorem finish_takeHost (x s : State) : finish (takeHost x s) = afterHost x (finish s) := rfl

/-- After a salt run that is not the last of the loop comes another password run (43_costloop.md R96). -/
theorem endSched_again (s : State) (ho : s.op = .crypt) (hs : s.sched = .ksalt) (hi : s.iter ≠ 1) :
    endSched s = startSched .kpw { s with iter := s.iter - 1 } := by
  rcases endSched_cases s with ⟨h, _⟩ | ⟨_, h, _⟩ | ⟨_, h, _⟩ | ⟨_, _, h, _⟩ | ⟨_, _, _, h⟩ | ⟨h, _⟩
  · simp [ho] at h
  · simp [hs] at h
  · simp [hs] at h
  · exact absurd h hi
  · exact h
  · simp [ho, hs] at h

theorem endSched_takeHost (x s : State) (hb : s.busy = true) : endSched (takeHost x s) = afterHost x (endSched s) := by
  obtain ⟨l, r, p, sb, ct, key, salt, cost, keylen, ien, busy, dn, psv, e1, e2, e3, e4, e5, e6, op, ph, sc, widx, rnd,
    koff, sidx, iter, pass, chunk, ep, ins, out⟩ := s
  simp only at hb
  subst hb
  cases op <;> try rfl
  cases sc <;> try rfl
  by_cases hi : iter = 1
  · subst hi
    rfl
  · rw [endSched_again _ rfl rfl hi, endSched_again _ rfl rfl hi]
    rfl

theorem endInit_takeHost (x s : State) (hb : s.busy = true) : endInit (takeHost x s) = afterHost x (endInit s) := by
  obtain ⟨l, r, p, sb, ct, key, salt, cost, keylen, ien, busy, dn, psv, e1, e2, e3, e4, e5, e6, op, ph, sc, widx, rnd,
    koff, sidx, iter, pass, chunk, ep, ins, out⟩ := s
  simp only at hb
  subst hb
  cases op <;> rfl

/-- The outcome of a micro-operation does not depend on what the host part changes, but for `DONE`, and it passes
what the host part changed through (20_memory.md R44, 44_host_commands.md R110 (6)). -/
theorem engine_takeHost (ph : Phase) (x st : State) (hb : st.busy = true) :
    exec (phaseInstr ph) (takeHost x st) =
      match exec (phaseInstr ph) st with
      | .next te => .next (afterHost x te)
      | .fault f => .fault f
      | .refused r => .refused r := by
  have hbusy : ∀ a t : State, t.busy = true → a = takeHost x t →
      Host.Outcome.next (φ := Fault) (ρ := Refusal) a = .next (afterHost x t) := by
    intro a t ht ha
    rw [ha, afterHost_of_busy x t ht]
  have hinit : ∀ a t : State, t.busy = true → a = takeHost x t →
      Host.Outcome.next (φ := Fault) (ρ := Refusal) (endInit a) = .next (afterHost x (endInit t)) := by
    intro a t ht ha
    rw [ha, endInit_takeHost x t ht]
  have hsched : ∀ a t : State, t.busy = true → a = takeHost x t →
      Host.Outcome.next (φ := Fault) (ρ := Refusal) (endSched a) = .next (afterHost x (endSched t)) := by
    intro a t ht ha
    rw [ha, endSched_takeHost x t ht]
  cases ph <;> simp only [phaseInstr, exec]
  · exact hbusy _ _ hb rfl
  · have hw : (takeHost x st).widx = st.widx := rfl
    unfold execUInit
    simp only [hw]
    by_cases h : st.widx.toNat < 1042
    · by_cases h2 : st.widx.toNat < 1041
      · simp only [dif_pos h, if_pos h2]
        exact hbusy _ _ hb rfl
      · simp only [dif_pos h, if_neg h2]
        exact hinit _ _ hb rfl
    · simp only [dif_neg h]
  · have hw : (takeHost x st).widx = st.widx := rfl
    have hx : xorpOperand (takeHost x st) = xorpOperand st := rfl
    unfold execUXorp
    simp only [hw, hx]
    by_cases h : st.widx.toNat < 18
    · simp only [dif_pos h]
      cases xorpOperand st with
      | none => rfl
      | some w =>
        by_cases h2 : st.widx.toNat < 17
        · simp only [if_pos h2]
          exact hbusy _ _ hb rfl
        · simp only [if_neg h2]
          exact hbusy _ _ hb rfl
    · simp only [dif_neg h]
  · exact hbusy _ _ hb rfl
  · have hw : (takeHost x st).rnd = st.rnd := rfl
    have hs : (takeHost x st).sched = st.sched := rfl
    have ho : (takeHost x st).op = st.op := rfl
    unfold execURound
    simp only [hw, hs, ho]
    by_cases h : 1 ≤ st.rnd.toNat ∧ st.rnd.toNat ≤ 16
    · by_cases h2 : st.rnd.toNat < 16
      · simp only [dif_pos h, if_pos h2]
        exact hbusy _ _ hb rfl
      · by_cases h3 : st.sched ≠ .none
        · simp only [dif_pos h, if_neg h2, if_pos h3]
          exact hbusy _ _ hb rfl
        · by_cases h4 : st.op = .encipher
          · simp only [dif_pos h, if_neg h2, if_neg h3, if_pos h4]
            rfl
          · simp only [dif_pos h, if_neg h2, if_neg h3, if_neg h4]
            exact hbusy _ _ hb rfl
    · simp only [dif_neg h]
  · have hw : (takeHost x st).widx = st.widx := rfl
    unfold execUSt0
    simp only [hw]
    by_cases h : st.widx.toNat < 1042
    · simp only [dif_pos h]
      exact hbusy _ _ hb rfl
    · simp only [dif_neg h]
  · have hw : (takeHost x st).widx = st.widx := rfl
    have hs : (takeHost x st).sched = st.sched := rfl
    unfold execUSt1
    simp only [hw, hs]
    by_cases h : st.widx.toNat + 1 < 1042
    · by_cases h2 : st.widx.toNat < 1040
      · simp only [dif_pos h, if_pos h2]
        exact hbusy _ _ hb rfl
      · simp only [dif_pos h, if_neg h2]
        exact hsched _ _ hb rfl
    · simp only [dif_neg h]
  · exact hbusy _ _ hb rfl
  · have hc : (takeHost x st).chunk = st.chunk := rfl
    have ht : (takeHost x st).ctext = st.ctext := rfl
    unfold execUBld
    simp only [hc, ht]
    by_cases h : st.chunk.toNat < 3
    · simp only [dif_pos h]
      exact hbusy _ _ hb rfl
    · simp only [dif_neg h]
  · have hc : (takeHost x st).chunk = st.chunk := rfl
    have hp : (takeHost x st).pass = st.pass := rfl
    have ht : (takeHost x st).ctext = st.ctext := rfl
    unfold execUBst
    simp only [hc, hp, ht]
    by_cases h : st.chunk.toNat < 3
    · by_cases h2 : st.chunk.toNat < 2
      · simp only [dif_pos h, if_pos h2]
        exact hbusy _ _ hb rfl
      · by_cases h3 : st.pass.toNat < 63
        · simp only [dif_pos h, if_neg h2, if_pos h3]
          exact hbusy _ _ hb rfl
        · simp only [dif_pos h, if_neg h2, if_neg h3]
          rfl
    · simp only [dif_neg h]

/-- `st` with every field an access to an idle core can write without starting a command taken from `x`: the error
flags, `DONE`, `IEN`, the operand registers and the read datum. -/
def takeAccess (x st : State) : State :=
  { st with
    l := x.l, r := x.r, key := x.key, salt := x.salt, cost := x.cost, keylen := x.keylen
    done := x.done, ien := x.ien, eOp := x.eOp, eBusy := x.eBusy, eCost := x.eCost, eKeylen := x.eKeylen,
    eSeq := x.eSeq, eAddr := x.eAddr, out := x.out }

/-- Everything a host instruction can do on an idle core: an access that starts nothing, one of the six acceptances
of 44_host_commands.md R115 (each with its preconditions), or `ABORT`. It always completes. -/
theorem exec_host_idle (inp : PortIn) (h : Instr) (st : State) (hf : fetchHost inp = some h) (hb : st.busy = false) :
    ∃ t, exec h st = .next t ∧ t.out.irq = st.out.irq ∧
      ((t = takeAccess t st)
        ∨ (h = .init ∧ t = startInit (accept .init st))
        ∨ (h = .encipher ∧ st.psv = true ∧ t = startEncipher (accept .encipher st))
        ∨ (h = .keyPw ∧ st.psv = true ∧ keylenLegal st = true ∧ t = startSched .kpw (accept .keyPw st))
        ∨ (h = .keySalt ∧ st.psv = true ∧ t = startSched .ksalt (accept .keySalt st))
        ∨ (h = .ekskey ∧ st.psv = true ∧ keylenLegal st = true ∧ t = startSched .eks (accept .ekskey st))
        ∨ (h = .crypt ∧ keylenLegal st = true ∧ costLegal st = true ∧ t = startInit (accept .crypt st))
        ∨ (h = .abort ∧ exec .abort st = .next t)) := by
  have hraise : ∀ e s, s = takeAccess s st → raise e s = takeAccess (raise e s) st := by
    intro e s h1
    rw [h1]
    cases e <;> rfl
  have hirq : ∀ e s, (raise e s).out = s.out := by
    intro e s
    simp
  have hdisp : ∀ n f, (∃ t, Host.Outcome.next (φ := Fault) (ρ := Refusal) (dispatch n f st) = .next t
        ∧ t.out.irq = st.out.irq ∧ t = takeAccess t st)
      ∨ (badSeq n st = false ∧ badLen n st = false ∧ badCost n st = false ∧ dispatch n f st = f st) := by
    intro n f
    rcases dispatch_cases n f st with ⟨h1, _⟩ | ⟨_, _, e⟩ | ⟨_, h1, h2, h3, e⟩
    · rw [hb] at h1
      cases h1
    · left
      rw [e]
      exact ⟨_, rfl, rfl, rfl⟩
    · exact .inr ⟨h1, h2, h3, e⟩
  have hwr : ∀ addr wdata, (addr = ctrlAddr → 8 ≤ wdata.toNat) → ∃ t, execWr addr wdata st = .next t
      ∧ t.out.irq = st.out.irq ∧ t = takeAccess t st := by
    intro addr wdata hc
    have hop : ∀ f, writeOperand f st = f st := by
      intro f
      simp [writeOperand, hb]
    unfold execWr
    simp only [hop]
    cases hreg : regAt addr with
    | none => exact ⟨_, rfl, congrArg _ (hirq _ _), hraise _ _ rfl⟩
    | some reg =>
      cases reg with
      | id => exact ⟨_, rfl, congrArg _ (hirq _ _), hraise _ _ rfl⟩
      | ctext i => exact ⟨_, rfl, congrArg _ (hirq _ _), hraise _ _ rfl⟩
      | ctrl =>
        have h8 := hc (regAddr_of_regAt addr _ hreg).symm
        simp only [writeCtrl_eq]
        rcases decodeCmd_cases wdata with h' | h' | h' | h' | h' | h' | h' | h' | h'
        iterate 8 (have := h'.1; subst this; exact absurd h8 (by decide))
        rw [h'.2]
        exact ⟨_, rfl, congrArg _ (hirq _ _), hraise _ _ rfl⟩
      | _ => exact ⟨_, rfl, rfl, rfl⟩
  rcases (fetchHost_cases inp h hf).2 with ⟨_, rfl⟩ | ⟨_, hna, rfl⟩ | ⟨_, _, h8, rfl⟩ | ⟨_, _, hd⟩
  · show ∃ t, execRd inp.addr st = .next t ∧ _
    unfold execRd
    cases regAt inp.addr with
    | none => exact ⟨_, rfl, (congrArg PortOut.irq (hirq _ _)).trans rfl, .inl (hraise _ _ rfl)⟩
    | some r => exact ⟨_, rfl, rfl, .inl rfl⟩
  · obtain ⟨t, h1, h2, h3⟩ := hwr inp.addr inp.wdata (fun hc => absurd hc hna)
    exact ⟨t, h1, h2, .inl h3⟩
  · obtain ⟨t, h1, h2, h3⟩ := hwr inp.addr inp.wdata (fun _ => h8)
    exact ⟨t, h1, h2, .inl h3⟩
  · rcases decodeCmd_cases inp.wdata with h' | h' | h' | h' | h' | h' | h' | h' | h'
    all_goals rw [h'.2] at hd
    all_goals cases hd
    · exact ⟨_, rfl, rfl, .inl rfl⟩
    · rcases hdisp ⟨false, false, false⟩ (fun s => startInit (accept .init s)) with ⟨t, h1, h2, h3⟩ | ⟨_, _, _, e⟩
      · exact ⟨t, h1, h2, .inl h3⟩
      · exact ⟨_, congrArg Host.Outcome.next e, rfl, .inr (.inl ⟨rfl, rfl⟩)⟩
    · rcases hdisp ⟨true, false, false⟩ (fun s => startEncipher (accept .encipher s)) with ⟨t, h1, h2, h3⟩ | ⟨a, _, _, e⟩
      · exact ⟨t, h1, h2, .inl h3⟩
      · exact ⟨_, congrArg Host.Outcome.next e, rfl, .inr (.inr (.inl ⟨rfl, by simpa [badSeq] using a, rfl⟩))⟩
    · rcases hdisp ⟨true, true, false⟩ (fun s => startSched .kpw (accept .keyPw s)) with ⟨t, h1, h2, h3⟩ | ⟨a, b, _, e⟩
      · exact ⟨t, h1, h2, .inl h3⟩
      · exact ⟨_, congrArg Host.Outcome.next e, rfl, .inr (.inr (.inr (.inl ⟨rfl, by simpa [badSeq] using a,
          by simpa [badLen] using b, rfl⟩)))⟩
    · rcases hdisp ⟨true, false, false⟩ (fun s => startSched .ksalt (accept .keySalt s)) with
        ⟨t, h1, h2, h3⟩ | ⟨a, _, _, e⟩
      · exact ⟨t, h1, h2, .inl h3⟩
      · exact ⟨_, congrArg Host.Outcome.next e, rfl, .inr (.inr (.inr (.inr (.inl ⟨rfl, by simpa [badSeq] using a, rfl⟩))))⟩
    · rcases hdisp ⟨true, true, false⟩ (fun s => startSched .eks (accept .ekskey s)) with ⟨t, h1, h2, h3⟩ | ⟨a, b, _, e⟩
      · exact ⟨t, h1, h2, .inl h3⟩
      · exact ⟨_, congrArg Host.Outcome.next e, rfl, .inr (.inr (.inr (.inr (.inr (.inl ⟨rfl, by simpa [badSeq] using a,
          by simpa [badLen] using b, rfl⟩)))))⟩
    · rcases hdisp ⟨false, true, true⟩ (fun s => startInit (accept .crypt s)) with ⟨t, h1, h2, h3⟩ | ⟨_, b, c, e⟩
      · exact ⟨t, h1, h2, .inl h3⟩
      · exact ⟨_, congrArg Host.Outcome.next e, rfl, .inr (.inr (.inr (.inr (.inr (.inr (.inl ⟨rfl, by simpa [badLen] using b,
          by simpa [badCost] using c, rfl⟩))))))⟩
    · exact ⟨_, rfl, rfl, .inr (.inr (.inr (.inr (.inr (.inr (.inr ⟨rfl, rfl⟩))))))⟩

/-! ## A whole cycle -/

/-- `abort_now` (44_host_commands.md R110 (3)) is exactly the fetching of `ABORT`. -/
theorem fetchHost_abort_iff (inp : PortIn) : fetchHost inp = some .abort ↔ abortNow inp := by
  constructor
  · intro h
    obtain ⟨hs, h'⟩ := fetchHost_cases inp _ h
    rcases h' with ⟨_, h'⟩ | ⟨_, _, h'⟩ | ⟨_, _, _, h'⟩ | ⟨hw, ha, hd⟩
    · cases h'
    · cases h'
    · cases h'
    · refine ⟨hs, hw, ha, ?_⟩
      rcases decodeCmd_cases inp.wdata with h' | h' | h' | h' | h' | h' | h' | h' | h'
      all_goals rw [h'.2] at hd
      all_goals first
        | (cases hd; done)
        | exact h'.1
  · rintro ⟨a1, a2, a3, a4⟩
    cases inp
    simp only at a1 a2 a3 a4
    subst a1 a2 a3 a4
    simp only [fetchHost, if_true, decodeAccess, decodeBus_busWord, Option.some.injEq]
    decide

/-- `ABORT` replaces the engine part (44_host_commands.md R110 (3), R123). -/
theorem step_abort (st : State) (hr : (currentPorts st).rst = false) (ha : abortNow (currentPorts st)) :
    step st = exec .abort (beginCycle st) := by
  rw [step_host st .abort hr ((fetchHost_abort_iff _).2 ha)]
  rfl

/-- A busy cycle the host does not disturb: the host part gives `th`, which differs from the pre-edge state in what
the host part may change, and the step is the micro-operation of the PRE-EDGE state with that passed through. -/
theorem step_busy (st : State) (hb : st.busy = true) (hu : undisturbed (currentPorts st)) :
    ∃ th, th = takeHost th (beginCycle st) ∧ (th.done = true → st.done = true)
      ∧ th.inputs = st.inputs.tail ∧ th.out.irq = irqLine st
      ∧ (fetchHost (currentPorts st) = none → th = beginCycle st)
      ∧ (∀ h, fetchHost (currentPorts st) = some h → exec h (beginCycle st) = .next th)
      ∧ step st =
          match exec (phaseInstr st.phase) (beginCycle st) with
          | .next te => .next (afterHost th te)
          | .fault f => .fault f
          | .refused r => .refused r := by
  cases hf : fetchHost (currentPorts st) with
  | none =>
    refine ⟨beginCycle st, rfl, id, rfl, rfl, fun _ => rfl, ?_, ?_⟩
    · intro h hh
      cases hh
    · have hs : step st = exec (phaseInstr st.phase) (beginCycle st) := by
        unfold step
        rw [hu.1, hf, fetchEngine_busy st hb]
        rfl
      rw [hs]
      exact engine_takeHost st.phase (beginCycle st) (beginCycle st) hb
  | some h =>
    have ha : h ≠ .abort := by
      rintro rfl
      exact hu.2 ((fetchHost_abort_iff _).1 hf)
    obtain ⟨th, h1, h2, h3, h4, h5⟩ := exec_host_busy _ h (beginCycle st) hf ha hb
    refine ⟨th, h2, h3, h4, h5, ?_, ?_, ?_⟩
    · intro hh
      cases hh
    · intro h' hh
      cases hh
      exact h1
    · rw [step_host st h hu.1 hf, h1, engineAfter]
      simp only [if_neg ha]
      rw [fetchEngine_busy st hb]
      conv => lhs; rw [h2]
      exact engine_takeHost st.phase th (beginCycle st) hb

/-- What `step` can be: the reset cycle, an idle cycle without a transaction, an access to an idle core, an `ABORT` of
a running command, or a busy cycle that the host does not disturb. -/
theorem step_cases (st : State) :
    ((currentPorts st).rst = true ∧ step st = .next (resetCycle (beginCycle st)))
      ∨ ((currentPorts st).rst = false ∧ st.busy = false
          ∧ ((fetchHost (currentPorts st) = none ∧ step st = .next (beginCycle st))
            ∨ ∃ h, fetchHost (currentPorts st) = some h ∧ step st = exec h (beginCycle st)))
      ∨ ((currentPorts st).rst = false ∧ st.busy = true ∧ abortNow (currentPorts st)
          ∧ step st = exec .abort (beginCycle st))
      ∨ (st.busy = true ∧ undisturbed (currentPorts st)) := by
  cases hr : (currentPorts st).rst
  · refine .inr ?_
    cases hb : st.busy
    · refine .inl ⟨rfl, rfl, ?_⟩
      cases hf : fetchHost (currentPorts st) with
      | none =>
        refine .inl ⟨rfl, ?_⟩
        unfold step
        rw [hr, hf, fetchEngine_idle st hb]
        rfl
      | some h => exact .inr ⟨h, rfl, step_idle st h hr hf hb⟩
    · refine .inr ?_
      by_cases ha : abortNow (currentPorts st)
      · exact .inl ⟨rfl, rfl, ha, step_abort st hr ha⟩
      · exact .inr ⟨rfl, hr, ha⟩
  · exact .inl ⟨rfl, step_reset st hr⟩

end Sys2Proof.Machine
end

