-- ==== Sys2Proof/Laws/Run.lean ====
section
/-! SUPPORT. Runs of the engine alone, and that the machine's cycles follow them while the host does not disturb
(43_costloop.md R106). -/

namespace Sys2Proof.Machine

/-- `n` busy cycles of the engine alone: the micro-operations `phase` selects, with no host; none when the core is not
busy in one of them or a micro-operation stops. Irreducible, so that nothing tries to evaluate thousands of cycles. -/
@[irreducible] def engineCycles : Nat → State → Option State
  | 0, st => some st
  | n + 1, st =>
    if st.busy = true then
      match exec (phaseInstr st.phase) st with
      | .next t => engineCycles n t
      | .fault _ => none
      | .refused _ => none
    else none

@[simp] theorem engineCycles_zero (st : State) : engineCycles 0 st = some st := by
  rw [engineCycles]

theorem engineCycles_succ (n : Nat) (st t : State) (hb : st.busy = true) (h : exec (phaseInstr st.phase) st = .next t) :
    engineCycles (n + 1) st = engineCycles n t := by
  rw [engineCycles, if_pos hb, h]

theorem engineCycles_one (st t : State) (hb : st.busy = true) (h : exec (phaseInstr st.phase) st = .next t) :
    engineCycles 1 st = some t := by
  rw [engineCycles_succ 0 st t hb h, engineCycles_zero]

theorem engineCycles_add (m n : Nat) (st t : State) (h : engineCycles m st = some t) :
    engineCycles (m + n) st = engineCycles n t := by
  induction m generalizing st with
  | zero =>
    rw [engineCycles_zero] at h
    cases h
    rw [Nat.zero_add]
  | succ m ih =>
    rw [Nat.add_right_comm]
    rw [engineCycles] at h ⊢
    split at h
    · rename_i hb
      rw [if_pos hb]
      split at h
      · exact ih _ h
      · cases h
      · cases h
    · cases h

/-- One busy cycle the host does not disturb does what the engine alone does, up to what the host part changes; a
completion sets `DONE`. -/
theorem step_engine (st te : State) (hb : st.busy = true) (hu : undisturbed (currentPorts st))
    (he : exec (phaseInstr st.phase) st = .next te) :
    ∃ t, step st = .next t ∧ EngineAgree te t ∧ t.inputs = st.inputs.tail ∧ (te.busy = false → t.done = true) := by
  obtain ⟨th, _, _, h3, _, _, _, h7⟩ := step_busy st hb hu
  have hbeg : beginCycle st = takeHost (beginCycle st) st := rfl
  rw [hbeg, engine_takeHost st.phase (beginCycle st) st hb, he] at h7
  refine ⟨_, h7, rfl, h3, ?_⟩
  intro hn
  simp [afterHost, takeHost, hn]

/-- A run of the engine alone, from a state that agrees, up to what the host changes, with the machine's: the
machine goes through the same run whatever the host does, short of `ABORT` and reset. -/
theorem cycles_of_engineCycles (n : Nat) (s st t : State) (ha : EngineAgree s st) (hu : undisturbedFor n st)
    (h : engineCycles n s = some t) :
    ∃ t', cycles n st = .next t' ∧ EngineAgree t t' ∧ busyFor n st ∧ (0 < n → t.busy = false → t'.done = true) := by
  induction n generalizing s st with
  | zero =>
    rw [engineCycles_zero] at h
    cases h
    exact ⟨st, rfl, ha, fun k hk => absurd hk (Nat.not_lt_zero k), fun h => absurd h (Nat.lt_irrefl 0)⟩
  | succ n ih =>
    rw [engineCycles] at h
    split at h
    swap
    · cases h
    rename_i hbs
    split at h
    swap
    · cases h
    swap
    · cases h
    rename_i u hu1
    have hb : st.busy = true := by
      rw [ha]
      exact hbs
    have hph : st.phase = s.phase := by rw [ha]
    have hcur : undisturbed (currentPorts st) := by
      unfold undisturbedFor at hu
      unfold currentPorts
      cases hin : st.inputs with
      | nil => exact ⟨rfl, fun h => absurd h.1 (by decide)⟩
      | cons a l =>
        rw [hin] at hu
        exact hu a (by simp)
    have hst : st = takeHost st s := ha
    have hex : exec (phaseInstr st.phase) st = .next (afterHost st u) := by
      rw [hph]
      conv => lhs; rw [hst]
      rw [engine_takeHost s.phase st s hbs, hu1]
    obtain ⟨v, hv1, hv2, hv3, hv4⟩ := step_engine st _ hb hcur hex
    have huv : EngineAgree u v := by
      unfold EngineAgree
      rw [hv2]
      rfl
    have hun : undisturbedFor n v := by
      intro inp hm
      rw [hv3] at hm
      apply hu inp
      cases hin : st.inputs with
      | nil => rw [hin] at hm; simp at hm
      | cons a l =>
        rw [hin] at hm
        simp only [List.tail_cons] at hm
        simp [hm]
    obtain ⟨t', k1, k2, k3, k4⟩ := ih u v huv hun h
    refine ⟨t', ?_, k2, ?_, ?_⟩
    · rw [cycles_succ, hv1]
      exact k1
    · intro k hk
      cases k with
      | zero => exact ⟨st, rfl, hb⟩
      | succ k =>
        obtain ⟨w, w1, w2⟩ := k3 k (by omega)
        refine ⟨w, ?_, w2⟩
        rw [cycles_succ, hv1]
        exact w1
    · intro _ hn
      cases n with
      | zero =>
        rw [engineCycles_zero] at h
        cases h
        cases k1
        exact hv4 hn
      | succ n => exact k4 (Nat.succ_pos n) hn

end Sys2Proof.Machine
end

