-- ==== Sys2Proof/Laws/EngineRuns.lean ====
section
/-! SUPPORT. The runs of the engine, stage by stage: one encipherment, stage 1 and stage 2 of a schedule run, `INIT`,
and the passes of `CRYPT` (41_feistel.md R73, 42_keyschedule.md R86, R87, 43_costloop.md R95 to R101). -/

namespace Sys2Proof.Machine

/-- The state with another block and another schedule. -/
def withBlock (b : Block) (ps : Schedule) (st : State) : State :=
  { st with l := b.l, r := b.r, p := ps.p, sbox := ps.sbox }

theorem withBlock_self (st : State) : withBlock ⟨st.l, st.r⟩ st.schedule st = st := rfl

/-- The first rounds of an encipherment (41_feistel.md R73, R74). -/
theorem engine_rounds (st : State) (hb : st.busy = true) (hp : st.phase = .round) (hr : st.rnd = 1) (n : Nat) (hn : n ≤ 15) :
    engineCycles n st = some { withBlock (encipherRounds n (by omega) ⟨st.l, st.r⟩ st.schedule) st.schedule st with
      rnd := BitVec.ofNat 5 (n + 1) } := by
  induction n with
  | zero =>
    rw [engineCycles_zero]
    congr 1
    rw [show BitVec.ofNat 5 (0 + 1) = st.rnd from hr.symm]
    rfl
  | succ n ih =>
    rw [engineCycles_add n 1 _ _ (ih (by omega))]
    have hrn : (BitVec.ofNat 5 (n + 1)).toNat = n + 1 := by
      rw [BitVec.toNat_ofNat]
      omega
    refine engineCycles_one _ _ (by exact hb) ?_
    show exec (phaseInstr st.phase) _ = _
    rw [hp]
    simp only [phaseInstr, exec, execURound, hrn]
    rw [dif_pos (by omega), if_pos (by omega)]
    rw [encipherRounds_succ]
    congr 2
    rw [← BitVec.toNat_inj, BitVec.toNat_add, hrn]
    simp

/-- The last round of the encipherment of a schedule run leads to `U_ST0` (41_feistel.md R73). -/
theorem engine_encipher_run (st : State) (hb : st.busy = true) (hp : st.phase = .round) (hr : st.rnd = 1)
    (hs : st.sched ≠ .none) :
    engineCycles 16 st =
      some { withBlock (encipher ⟨st.l, st.r⟩ st.schedule) st.schedule st with rnd := 16, phase := .st0 } := by
  rw [engineCycles_add 15 1 _ _ (engine_rounds st hb hp hr 15 (le_refl _))]
  unfold encipher
  rw [encipherRounds_succ]
  generalize encipherRounds 15 _ _ _ = b
  refine engineCycles_one _ _ (by exact hb) ?_
  show exec (phaseInstr st.phase) _ = _
  rw [hp]
  simp only [phaseInstr, exec, execURound]
  rw [dif_pos (by decide), if_neg (by decide), if_pos (by exact hs)]
  rfl

/-- The last round of `ENCIPHER` completes it (41_feistel.md R73, 43_costloop.md R104). -/
theorem engine_encipher_command (st : State) (hb : st.busy = true) (hp : st.phase = .round) (hr : st.rnd = 1)
    (hs : st.sched = .none) (ho : st.op = .encipher) :
    engineCycles 16 st =
      some (finish { withBlock (encipher ⟨st.l, st.r⟩ st.schedule) st.schedule st with rnd := 16 }) := by
  rw [engineCycles_add 15 1 _ _ (engine_rounds st hb hp hr 15 (le_refl _))]
  unfold encipher
  rw [encipherRounds_succ]
  generalize encipherRounds 15 _ _ _ = b
  refine engineCycles_one _ _ (by exact hb) ?_
  show exec (phaseInstr st.phase) _ = _
  rw [hp]
  simp only [phaseInstr, exec, execURound]
  rw [dif_pos (by decide), if_neg (by decide), if_neg (by simp [withBlock, hs]), if_pos (by exact ho)]
  rfl

/-- The last round of a chunk of `CRYPT` leads to `U_BST` (41_feistel.md R73). -/
theorem engine_encipher_chunk (st : State) (hb : st.busy = true) (hp : st.phase = .round) (hr : st.rnd = 1)
    (hs : st.sched = .none) (ho : st.op = .crypt) :
    engineCycles 16 st =
      some { withBlock (encipher ⟨st.l, st.r⟩ st.schedule) st.schedule st with rnd := 16, phase := .bst } := by
  rw [engineCycles_add 15 1 _ _ (engine_rounds st hb hp hr 15 (le_refl _))]
  unfold encipher
  rw [encipherRounds_succ]
  generalize encipherRounds 15 _ _ _ = b
  refine engineCycles_one _ _ (by exact hb) ?_
  show exec (phaseInstr st.phase) _ = _
  rw [hp]
  simp only [phaseInstr, exec, execURound]
  rw [dif_pos (by decide), if_neg (by decide), if_neg (by simp [withBlock, hs]), if_neg (by simp [withBlock, ho])]
  rfl

theorem execUSt0_eq (st : State) (k : Fin 1042) (h : st.widx.toNat = k.val) :
    execUSt0 st = .next { storeWord k st.l st with phase := .st1 } := by
  have hk : (⟨st.widx.toNat, by omega⟩ : Fin 1042) = k := Fin.ext h
  unfold execUSt0
  rw [dif_pos (by omega), hk]

theorem execUSt1_more (st : State) (k : Fin 1042) (h : st.widx.toNat + 1 = k.val) (hl : k.val < 1041) :
    execUSt1 st = .next { storeWord k st.r st with
      widx := st.widx + 2, rnd := 1, phase := blockPhase st.sched } := by
  have hk : (⟨st.widx.toNat + 1, by omega⟩ : Fin 1042) = k := Fin.ext h
  unfold execUSt1
  rw [dif_pos (by omega)]
  simp only
  rw [if_pos (by omega), hk]

theorem execUSt1_last (st : State) (h : st.widx.toNat = 1040) :
    execUSt1 st = .next (endSched (storeWord ⟨1041, by omega⟩ st.r st)) := by
  have hk : (⟨st.widx.toNat + 1, by omega⟩ : Fin 1042) = ⟨1041, by omega⟩ := Fin.ext (congrArg (· + 1) h)
  unfold execUSt1
  rw [dif_pos (by omega)]
  simp only
  rw [if_neg (by omega), hk]

/-- One block of a schedule run, from its first round to its second store (41_feistel.md R73, 42_keyschedule.md
R84). -/
theorem engine_block (st : State) (m : Nat) (hm : m < 521) (hb : st.busy = true) (hp : st.phase = .round)
    (hr : st.rnd = 1) (hs : st.sched ≠ .none) (hw : st.widx.toNat = 2 * m) :
    engineCycles 17 st = some
      { withBlock (encipher ⟨st.l, st.r⟩ st.schedule)
          (psWrite st.schedule ⟨2 * m, by omega⟩ (encipher ⟨st.l, st.r⟩ st.schedule).l) st with
        rnd := 16, phase := .st1 } := by
  rw [engineCycles_add 16 1 _ _ (engine_encipher_run st hb hp hr hs)]
  refine engineCycles_one _ _ (by exact hb) ?_
  exact execUSt0_eq _ ⟨2 * m, by omega⟩ hw

/-- A block that is not the last of its run, to the start of the next (42_keyschedule.md R85). -/
theorem engine_block_more (st : State) (m : Nat) (hm : m < 520) (hb : st.busy = true) (hp : st.phase = .round)
    (hr : st.rnd = 1) (hs : st.sched ≠ .none) (hw : st.widx.toNat = 2 * m) :
    engineCycles 18 st = some
      { withBlock (fillBlock (fun _ b => b) m (by omega) (⟨st.l, st.r⟩, st.schedule)).1
          (fillBlock (fun _ b => b) m (by omega) (⟨st.l, st.r⟩, st.schedule)).2 st with
        widx := st.widx + 2, rnd := 1, phase := blockPhase st.sched } := by
  rw [engineCycles_add 17 1 _ _ (engine_block st m (by omega) hb hp hr hs hw)]
  refine engineCycles_one _ _ (by exact hb) ?_
  exact execUSt1_more _ ⟨2 * m + 1, by omega⟩ (congrArg (· + 1) hw) (show 2 * m + 1 < 1041 by omega)

/-- The last block of a run ends with `EndSched` (42_keyschedule.md R85). -/
theorem engine_block_last (st : State) (hb : st.busy = true) (hp : st.phase = .round)
    (hr : st.rnd = 1) (hs : st.sched ≠ .none) (hw : st.widx.toNat = 1040) :
    engineCycles 18 st = some
      (endSched { withBlock (fillBlock (fun _ b => b) 520 (by omega) (⟨st.l, st.r⟩, st.schedule)).1
          (fillBlock (fun _ b => b) 520 (by omega) (⟨st.l, st.r⟩, st.schedule)).2 st with
        rnd := 16, phase := .st1 }) := by
  rw [engineCycles_add 17 1 _ _ (engine_block st 520 (by omega) hb hp hr hs hw)]
  refine engineCycles_one _ _ (by exact hb) ?_
  exact execUSt1_last _ hw

/-! ## Stage 2 of a schedule run -/

/-- A state at the start of block `m` of a schedule run, in phase `ph`. -/
def atBlock (b : Block) (ps : Schedule) (m : Nat) (ph : Phase) (st : State) : State :=
  { withBlock b ps st with widx := BitVec.ofNat 11 (2 * m), rnd := 1, phase := ph }

theorem atBlock_widx (b : Block) (ps : Schedule) (m : Nat) (hm : m < 1024) (ph : Phase) (st : State) :
    (atBlock b ps m ph st).widx.toNat = 2 * m := by
  show (BitVec.ofNat 11 (2 * m)).toNat = _
  rw [BitVec.toNat_ofNat]
  omega

theorem engine_atBlock (b : Block) (ps : Schedule) (m : Nat) (hm : m < 520) (st : State) (hb : st.busy = true)
    (hs : st.sched ≠ .none) :
    engineCycles 18 (atBlock b ps m .round st) =
      some (atBlock (fillBlock (fun _ b => b) m (by omega) (b, ps)).1 (fillBlock (fun _ b => b) m (by omega) (b, ps)).2
        (m + 1) (blockPhase st.sched) st) := by
  rw [engine_block_more (atBlock b ps m .round st) m hm hb rfl rfl hs (atBlock_widx b ps m (by omega) .round st)]
  have hw : (atBlock b ps m .round st).widx + 2 = BitVec.ofNat 11 (2 * (m + 1)) := by
    rw [← BitVec.toNat_inj, BitVec.toNat_add, atBlock_widx b ps m (by omega) .round st, BitVec.toNat_ofNat]
    rfl
  rw [hw]
  rfl

/-- The first blocks of a run over the key or the salt bytes (42_keyschedule.md R86). -/
theorem engine_fill (ps : Schedule) (st : State) (hb : st.busy = true) (hs : st.sched ≠ .none) (he : st.sched ≠ .eks)
    (n : Nat) (hn : n ≤ 520) :
    engineCycles (18 * n) (atBlock ⟨0, 0⟩ ps 0 .round st) =
      some (atBlock (fill n (by omega) (fun _ b => b) ps).1 (fill n (by omega) (fun _ b => b) ps).2 n .round st) := by
  induction n with
  | zero => exact engineCycles_zero _
  | succ n ih =>
    rw [Nat.mul_succ, engineCycles_add _ _ _ _ (ih (by omega)), engine_atBlock _ _ n (by omega) st hb hs, fill_succ]
    simp only [blockPhase, if_neg he]

/-- `U_SALT` before block `m` (42_keyschedule.md R81). -/
theorem engine_salt (b : Block) (ps : Schedule) (m : Nat) (st : State) (hb : st.busy = true) :
    engineCycles 1 (atBlock b ps m .salt { st with sidx := BitVec.ofNat 2 (2 * m) }) =
      some (atBlock (saltMix st.salt m b) ps m .round { st with sidx := BitVec.ofNat 2 (2 * (m + 1)) }) := by
  refine engineCycles_one _ _ (by exact hb) ?_
  have e0 : (BitVec.ofNat 2 (2 * m)).toNat = 2 * m % 4 := by rw [BitVec.toNat_ofNat]
  have e1 : (BitVec.ofNat 2 (2 * m) + 1).toNat = (2 * m + 1) % 4 := by
    rw [BitVec.toNat_add, e0]
    show (2 * m % 4 + 1) % 4 = _
    omega
  have e2 : BitVec.ofNat 2 (2 * m) + 2 = BitVec.ofNat 2 (2 * (m + 1)) := by
    rw [← BitVec.toNat_inj, BitVec.toNat_add, e0, BitVec.toNat_ofNat]
    show (2 * m % 4 + 2) % 4 = _
    omega
  show execUSalt _ = _
  simp only [execUSalt, atBlock, withBlock, saltWord, saltMix, e0, e1, e2]

/-- The first blocks of a salted run (42_keyschedule.md R81, R87). -/
theorem engine_fill_salted (ps : Schedule) (st : State) (hb : st.busy = true) (he : st.sched = .eks)
    (n : Nat) (hn : n ≤ 520) :
    engineCycles (19 * n) (atBlock ⟨0, 0⟩ ps 0 .salt { st with sidx := 0 }) =
      some (atBlock (fill n (by omega) (saltMix st.salt) ps).1 (fill n (by omega) (saltMix st.salt) ps).2 n .salt
        { st with sidx := BitVec.ofNat 2 (2 * n) }) := by
  induction n with
  | zero => exact engineCycles_zero _
  | succ n ih =>
    rw [Nat.mul_succ, engineCycles_add _ _ _ _ (ih (by omega)), fill_succ]
    generalize fill n (by omega) (saltMix st.salt) ps = acc
    obtain ⟨b, qs⟩ := acc
    have h1 := engine_salt b qs n st hb
    rw [engineCycles_add 1 18 _ _ h1,
      engine_atBlock _ _ n (by omega) { st with sidx := BitVec.ofNat 2 (2 * (n + 1)) } hb (by simp [he])]
    simp only [blockPhase, he, if_true]
    rfl

/-- Stage 2 of a run over the key or the salt bytes, whole (42_keyschedule.md R86, R90). -/
theorem engine_stage2 (ps : Schedule) (st : State) (hb : st.busy = true) (hs : st.sched ≠ .none) (he : st.sched ≠ .eks) :
    engineCycles 9378 (atBlock ⟨0, 0⟩ ps 0 .round st) =
      some (endSched { withBlock (fill 521 (by omega) (fun _ b => b) ps).1 (fill 521 (by omega) (fun _ b => b) ps).2 st
        with widx := 1040, rnd := 16, phase := .st1 }) := by
  rw [show 9378 = 18 * 520 + 18 from rfl, engineCycles_add _ _ _ _ (engine_fill ps st hb hs he 520 (le_refl _)),
    fill_succ 520]
  generalize fill 520 (by omega) (fun _ b => b) ps = acc
  obtain ⟨b, qs⟩ := acc
  rw [engine_block_last (atBlock b qs 520 .round st) hb rfl rfl hs (atBlock_widx b qs 520 (by omega) .round st)]
  rfl

/-- Stage 2 of a salted run, whole (42_keyschedule.md R87, R90). -/
theorem engine_stage2_salted (ps : Schedule) (st : State) (hb : st.busy = true) (he : st.sched = .eks) :
    engineCycles 9899 (atBlock ⟨0, 0⟩ ps 0 .salt { st with sidx := 0 }) =
      some (endSched
        { withBlock (fill 521 (by omega) (saltMix st.salt) ps).1 (fill 521 (by omega) (saltMix st.salt) ps).2 st
          with widx := 1040, sidx := 2, rnd := 16, phase := .st1 }) := by
  rw [show 9899 = 19 * 520 + (1 + 18) from rfl, engineCycles_add _ _ _ _ (engine_fill_salted ps st hb he 520 (le_refl _)),
    fill_succ 520]
  generalize fill 520 (by omega) (saltMix st.salt) ps = acc
  obtain ⟨b, qs⟩ := acc
  have h1 := engine_salt b qs 520 st hb
  rw [engineCycles_add 1 18 _ _ h1, engine_block_last (atBlock (saltMix st.salt 520 b) qs 520 .round { st with sidx := BitVec.ofNat 2 (2 * (520 + 1)) })
    hb rfl rfl (by simp [atBlock, withBlock, he]) (atBlock_widx _ qs 520 (by omega) .round _)]
  rfl

/-! ## Stage 1 of a schedule run -/

/-- A state in which stage 1 of a run is about to mix word `i`. -/
def atWord (ps : Schedule) (i : Nat) (koff : BitVec 7) (sidx : BitVec 2) (st : State) : State :=
  { st with p := ps.p, sbox := ps.sbox, widx := BitVec.ofNat 11 i, koff := koff, sidx := sidx, phase := .xorp }

/-- What `U_XORP` does with the operand `w` (42_keyschedule.md R80). -/
theorem execUXorp_more (ps : Schedule) (i : Nat) (hi : i < 17) (koff : BitVec 7) (sidx : BitVec 2) (st : State) (w : Word)
    (hw : xorpOperand (atWord ps i koff sidx st) = some w) :
    execUXorp (atWord ps i koff sidx st) = .next (atWord { ps with p := ps.p.set i (ps.p[i] ^^^ w) } (i + 1)
      (if st.sched = SchedKind.ksalt then koff else nextKoff (atWord ps i koff sidx st))
      (if st.sched = SchedKind.ksalt then sidx + 1 else sidx) st) := by
  have hn : (atWord ps i koff sidx st).widx.toNat = i := by
    show (BitVec.ofNat 11 i).toNat = i
    rw [BitVec.toNat_ofNat]
    omega
  have hx : (atWord ps i koff sidx st).widx + 1 = BitVec.ofNat 11 (i + 1) := by
    rw [← BitVec.toNat_inj, BitVec.toNat_add, hn, BitVec.toNat_ofNat]
    rfl
  unfold execUXorp
  rw [dif_pos (by omega), hw]
  simp only [hn, hx]
  rw [if_pos hi]
  rfl

theorem execUXorp_last (ps : Schedule) (koff : BitVec 7) (sidx : BitVec 2) (st : State) (w : Word)
    (hw : xorpOperand (atWord ps 17 koff sidx st) = some w) :
    execUXorp (atWord ps 17 koff sidx st) = .next (atBlock ⟨0, 0⟩ { ps with p := ps.p.set 17 (ps.p[17] ^^^ w) } 0
      (blockPhase st.sched)
      { st with
        koff := if st.sched = SchedKind.ksalt then koff else nextKoff (atWord ps 17 koff sidx st)
        sidx := 0 }) := by
  have hn : (atWord ps 17 koff sidx st).widx.toNat = 17 := rfl
  unfold execUXorp
  rw [dif_pos (by omega), hw]
  simp only [hn]
  rfl

/-- The operand of word `i` and the offset after it, in a run over the key bytes (40_wordstream.md R66). -/
theorem xorp_key (ps : Schedule) (i : Nat) (st : State) (hs : st.sched ≠ .ksalt)
    (hk : 1 ≤ st.keylen.toNat ∧ st.keylen.toNat ≤ 72) :
    xorpOperand (atWord ps i (BitVec.ofNat 7 (4 * i % st.keylen.toNat)) 0 st) =
        some (streamWord (keyString st.key st.keylen.toNat) (4 * i))
      ∧ nextKoff (atWord ps i (BitVec.ofNat 7 (4 * i % st.keylen.toNat)) 0 st) =
        BitVec.ofNat 7 (4 * (i + 1) % st.keylen.toNat) := by
  have hlt : 4 * i % st.keylen.toNat < st.keylen.toNat := Nat.mod_lt _ (by omega)
  have hko : (BitVec.ofNat 7 (4 * i % st.keylen.toNat)).toNat = 4 * i % st.keylen.toNat := by
    rw [BitVec.toNat_ofNat]
    omega
  have hlen : (keyString st.key st.keylen.toNat).length = st.keylen.toNat := by
    rw [keyString_length]
    omega
  constructor
  · unfold xorpOperand
    rw [if_neg (by exact hs), keyWord_eq (atWord ps i (BitVec.ofNat 7 (4 * i % st.keylen.toNat)) 0 st) hk]
    show some (streamWord (keyString st.key st.keylen.toNat) (BitVec.ofNat 7 (4 * i % st.keylen.toNat)).toNat) = _
    rw [hko, streamWord_eq _ _ (by omega), streamWord_eq _ _ (by omega)]
    simp only [hlen, Nat.mod_add_mod, Nat.mod_mod]
  · show BitVec.ofNat 7 (((BitVec.ofNat 7 (4 * i % st.keylen.toNat)).toNat + 4) % st.keylen.toNat) = _
    rw [hko, Nat.mod_add_mod, Nat.mul_succ]

/-- Stage 1 over the key bytes, its first words (42_keyschedule.md R80, R86, 40_wordstream.md R66). -/
theorem engine_xorp_key (ps : Schedule) (st : State) (hb : st.busy = true) (hs : st.sched ≠ .ksalt)
    (hk : 1 ≤ st.keylen.toNat ∧ st.keylen.toNat ≤ 72) (n : Nat) (hn : n ≤ 17) :
    engineCycles n (atWord ps 0 0 0 st) =
      some (atWord (xorPass n (by omega) (fun i => streamWord (keyString st.key st.keylen.toNat) (4 * i)) ps) n
        (BitVec.ofNat 7 (4 * n % st.keylen.toNat)) 0 st) := by
  induction n with
  | zero =>
    rw [engineCycles_zero, Nat.mul_zero, Nat.zero_mod]
    rfl
  | succ n ih =>
    rw [engineCycles_add n 1 _ _ (ih (by omega)), xorPass_succ]
    generalize xorPass n (by omega) (fun i => streamWord (keyString st.key st.keylen.toNat) (4 * i)) ps = qs
    obtain ⟨hop, hnk⟩ := xorp_key qs n st hs hk
    refine engineCycles_one _ _ (by exact hb) ?_
    show execUXorp _ = _
    rw [execUXorp_more qs n (by omega) _ _ st _ hop, if_neg hs, if_neg hs, hnk]

/-- Stage 1 over the salt bytes, its first words (42_keyschedule.md R80, R86, 40_wordstream.md R67). -/
theorem engine_xorp_salt (ps : Schedule) (st : State) (hb : st.busy = true) (hs : st.sched = .ksalt)
    (w : Nat → Word) (hw : ∀ i, w i = st.salt[i % 4]) (n : Nat) (hn : n ≤ 17) :
    engineCycles n (atWord ps 0 0 0 st) =
      some (atWord (xorPass n (by omega) w ps) n 0 (BitVec.ofNat 2 n) st) := by
  induction n with
  | zero => exact engineCycles_zero _
  | succ n ih =>
    rw [engineCycles_add n 1 _ _ (ih (by omega)), xorPass_succ]
    generalize xorPass n (by omega) w ps = qs
    refine engineCycles_one _ _ (by exact hb) ?_
    have hop : xorpOperand (atWord qs n 0 (BitVec.ofNat 2 n) st) = some (w n) := by
      unfold xorpOperand
      rw [if_pos (by exact hs), hw]
      rfl
    have hsi : BitVec.ofNat 2 n + 1 = BitVec.ofNat 2 (n + 1) := by
      rw [← BitVec.toNat_inj, BitVec.toNat_add, BitVec.toNat_ofNat, BitVec.toNat_ofNat]
      show (n % 4 + 1) % 4 = (n + 1) % 4
      omega
    show execUXorp _ = _
    rw [execUXorp_more qs n (by omega) _ _ st _ hop, if_pos hs, if_pos hs, hsi]

/-- Stage 1 over the key bytes, whole. -/
theorem engine_stage1_key (ps : Schedule) (st : State) (hb : st.busy = true) (hs : st.sched ≠ .ksalt)
    (hk : 1 ≤ st.keylen.toNat ∧ st.keylen.toNat ≤ 72) :
    engineCycles 18 (atWord ps 0 0 0 st) =
      some (atBlock ⟨0, 0⟩ (xorPass 18 (by omega) (fun i => streamWord (keyString st.key st.keylen.toNat) (4 * i)) ps) 0
        (blockPhase st.sched) { st with koff := BitVec.ofNat 7 (72 % st.keylen.toNat), sidx := 0 }) := by
  refine (engineCycles_add 17 1 _ _ (engine_xorp_key ps st hb hs hk 17 (le_refl _))).trans ?_
  rw [xorPass_succ 17]
  generalize xorPass 17 (by omega) (fun i => streamWord (keyString st.key st.keylen.toNat) (4 * i)) ps = qs
  obtain ⟨hop, hnk⟩ := xorp_key qs 17 st hs hk
  refine engineCycles_one _ _ (by exact hb) ?_
  show execUXorp _ = _
  rw [execUXorp_last qs _ 0 st _ hop, if_neg hs, hnk]

/-- Stage 1 over the salt bytes, whole. -/
theorem engine_stage1_salt (ps : Schedule) (st : State) (hb : st.busy = true) (hs : st.sched = .ksalt)
    (w : Nat → Word) (hw : ∀ i, w i = st.salt[i % 4]) :
    engineCycles 18 (atWord ps 0 0 0 st) =
      some (atBlock ⟨0, 0⟩ (xorPass 18 (by omega) w ps) 0 .round { st with koff := 0, sidx := 0 }) := by
  refine (engineCycles_add 17 1 _ _ (engine_xorp_salt ps st hb hs w hw 17 (le_refl _))).trans ?_
  rw [xorPass_succ 17]
  generalize xorPass 17 (by omega) w ps = qs
  have hop : xorpOperand (atWord qs 17 0 (BitVec.ofNat 2 17) st) = some (w 17) := by
    unfold xorpOperand
    rw [if_pos (by exact hs), hw]
    rfl
  refine engineCycles_one _ _ (by exact hb) ?_
  show execUXorp _ = _
  rw [execUXorp_last qs _ _ st _ hop, if_pos hs, hs]
  rfl

/-! ## Whole runs -/

/-- The state at `EndSched`: the block and the schedule of the run, and the counters as the run leaves them. -/
def atEnd (acc : Block × Schedule) (kind : SchedKind) (koff : BitVec 7) (sidx : BitVec 2) (st : State) : State :=
  { withBlock acc.1 acc.2 st with
    sched := kind, koff := koff, sidx := sidx, widx := 1040, rnd := 16, phase := .st1 }

/-- A run over the key bytes, from `StartSched` to `EndSched` (42_keyschedule.md R83, R86, R90). -/
theorem engine_run_key (st : State) (hb : st.busy = true) (hk : 1 ≤ st.keylen.toNat ∧ st.keylen.toNat ≤ 72) :
    engineCycles 9396 (startSched .kpw st) =
      some (endSched (atEnd
        (fill 521 (by omega) (fun _ b => b)
          (xorPass 18 (by omega) (fun i => streamWord (keyString st.key st.keylen.toNat) (4 * i)) st.schedule))
        .kpw (BitVec.ofNat 7 (72 % st.keylen.toNat)) 0 st)) := by
  have h0 : startSched .kpw st = atWord st.schedule 0 0 0 { st with sched := .kpw } := rfl
  rw [h0, show 9396 = 18 + 9378 from rfl,
    engineCycles_add 18 _ _ _ (engine_stage1_key st.schedule { st with sched := .kpw } hb (by simp) hk)]
  generalize xorPass 18 (by omega) (fun i => streamWord (keyString st.key st.keylen.toNat) (4 * i)) st.schedule = qs
  exact engine_stage2 qs { st with
    sched := .kpw, koff := BitVec.ofNat 7 (72 % st.keylen.toNat), sidx := 0 } hb (by simp) (by simp)

/-- A run over the salt bytes, from `StartSched` to `EndSched` (42_keyschedule.md R83, R86, R90). -/
theorem engine_run_salt (st : State) (hb : st.busy = true) (w : Nat → Word) (hw : ∀ i, w i = st.salt[i % 4]) :
    engineCycles 9396 (startSched .ksalt st) =
      some (endSched (atEnd (fill 521 (by omega) (fun _ b => b) (xorPass 18 (by omega) w st.schedule))
        .ksalt 0 0 st)) := by
  have h0 : startSched .ksalt st = atWord st.schedule 0 0 0 { st with sched := .ksalt } := rfl
  rw [h0, show 9396 = 18 + 9378 from rfl,
    engineCycles_add 18 _ _ _ (engine_stage1_salt st.schedule { st with sched := .ksalt } hb rfl w hw)]
  generalize xorPass 18 (by omega) w st.schedule = qs
  exact engine_stage2 qs { st with sched := .ksalt, koff := 0, sidx := 0 } hb (by simp) (by simp)

/-- A salted run, from `StartSched` to `EndSched` (42_keyschedule.md R83, R87, R90). -/
theorem engine_run_eks (st : State) (hb : st.busy = true) (hk : 1 ≤ st.keylen.toNat ∧ st.keylen.toNat ≤ 72) :
    engineCycles 9917 (startSched .eks st) =
      some (endSched (atEnd
        (fill 521 (by omega) (saltMix st.salt)
          (xorPass 18 (by omega) (fun i => streamWord (keyString st.key st.keylen.toNat) (4 * i)) st.schedule))
        .eks (BitVec.ofNat 7 (72 % st.keylen.toNat)) 2 st)) := by
  have h0 : startSched .eks st = atWord st.schedule 0 0 0 { st with sched := .eks } := rfl
  rw [h0, show 9917 = 18 + 9899 from rfl,
    engineCycles_add 18 _ _ _ (engine_stage1_key st.schedule { st with sched := .eks } hb (by simp) hk)]
  generalize xorPass 18 (by omega) (fun i => streamWord (keyString st.key st.keylen.toNat) (4 * i)) st.schedule = qs
  exact engine_stage2_salted qs { st with
    sched := .eks, koff := BitVec.ofNat 7 (72 % st.keylen.toNat), sidx := 0 } hb rfl

/-- The two words a block of stage 2 stores are its block (42_keyschedule.md R86). -/
theorem fillBlock_stored (mix : Nat → Block → Block) (m : Nat) (hm : m < 521) (acc : Block × Schedule) :
    psRead (fillBlock mix m hm acc).2 ⟨2 * m, by omega⟩ = (fillBlock mix m hm acc).1.l
      ∧ psRead (fillBlock mix m hm acc).2 ⟨2 * m + 1, by omega⟩ = (fillBlock mix m hm acc).1.r := by
  simp only [fillBlock]
  generalize encipher (mix m acc.1) acc.2 = b
  rw [psRead_psWrite, psRead_psWrite, psRead_psWrite]
  simp

/-- The last block of a run is `S[3][254]`, `S[3][255]` (10_state.md R12). -/
theorem fill_last (mix : Nat → Block → Block) (ps : Schedule) :
    (fill 521 (by omega) mix ps).1.l = (fill 521 (by omega) mix ps).2.sbox[3][254]
      ∧ (fill 521 (by omega) mix ps).1.r = (fill 521 (by omega) mix ps).2.sbox[3][255] := by
  rw [fill_succ 520]
  obtain ⟨h1, h2⟩ := fillBlock_stored mix 520 (by omega) (fill 520 (by omega) mix ps)
  exact ⟨h1.symm.trans (psRead_sbox _ 3 254), h2.symm.trans (psRead_sbox _ 3 255)⟩

/-! ## `U_INIT` -/

/-- The schedule after the first `n` words of the constants have been copied. -/
def initWords (n : Nat) (hn : n ≤ 1042) (ps : Schedule) : Schedule :=
  Nat.fold n (fun k hk qs => psWrite qs ⟨k, by omega⟩ (romWord ⟨k, by omega⟩)) ps

theorem initWords_succ (n : Nat) (hn : n + 1 ≤ 1042) (ps : Schedule) :
    initWords (n + 1) hn ps = psWrite (initWords n (by omega) ps) ⟨n, by omega⟩ (romWord ⟨n, by omega⟩) := by
  simp [initWords, Nat.fold_succ]

theorem psRead_initWords (n : Nat) (hn : n ≤ 1042) (ps : Schedule) (k : Fin 1042) (hk : k.val < n) :
    psRead (initWords n hn ps) k = romWord k := by
  induction n with
  | zero => omega
  | succ n ih =>
    rw [initWords_succ, psRead_psWrite]
    split
    · rename_i h
      congr 1
      exact Fin.ext h.symm
    · rename_i h
      have h' : k.val ≠ n := h
      exact ih (by omega) (by omega)

/-- The first words of `U_INIT` (43_costloop.md R95). -/
theorem engine_init_words (st : State) (hb : st.busy = true) (hp : st.phase = .init) (hw : st.widx = 0) (n : Nat)
    (hn : n ≤ 1041) :
    engineCycles n st = some { st with
      p := (initWords n (by omega) st.schedule).p, sbox := (initWords n (by omega) st.schedule).sbox,
      widx := BitVec.ofNat 11 n } := by
  induction n with
  | zero =>
    rw [engineCycles_zero, show BitVec.ofNat 11 0 = st.widx from hw.symm]
    rfl
  | succ n ih =>
    rw [engineCycles_add n 1 _ _ (ih (by omega)), initWords_succ]
    generalize initWords n (by omega) st.schedule = qs
    refine engineCycles_one _ _ (by exact hb) ?_
    have hn' : (BitVec.ofNat 11 n).toNat = n := by
      rw [BitVec.toNat_ofNat]
      omega
    have hx : BitVec.ofNat 11 n + 1 = BitVec.ofNat 11 (n + 1) := by
      rw [← BitVec.toNat_inj, BitVec.toNat_add, hn', BitVec.toNat_ofNat]
      rfl
    show exec (phaseInstr st.phase) _ = _
    rw [hp]
    simp only [phaseInstr, exec, execUInit, hn', hx]
    rw [dif_pos (by omega), if_pos (by omega)]
    rfl

theorem execUInit_last (st : State) (h : st.widx.toNat = 1041) :
    execUInit st =
      .next (endInit { storeWord ⟨1041, by omega⟩ (romWord ⟨1041, by omega⟩) st with psv := true }) := by
  have hk : (⟨st.widx.toNat, by omega⟩ : Fin 1042) = ⟨1041, by omega⟩ := Fin.ext h
  unfold execUInit
  rw [dif_pos (by omega)]
  simp only
  rw [if_neg (by omega), hk]

/-- The last `U_INIT` (43_costloop.md R95). -/
theorem engine_init_last (qs : Schedule) (st : State) (hb : st.busy = true) (hp : st.phase = .init) :
    engineCycles 1 { st with p := qs.p, sbox := qs.sbox, widx := BitVec.ofNat 11 1041 } = some (endInit { st with
      p := (psWrite qs ⟨1041, by omega⟩ (romWord ⟨1041, by omega⟩)).p
      sbox := (psWrite qs ⟨1041, by omega⟩ (romWord ⟨1041, by omega⟩)).sbox
      widx := BitVec.ofNat 11 1041, psv := true }) := by
  refine engineCycles_one _ _ (by exact hb) ?_
  show exec (phaseInstr st.phase) _ = _
  rw [hp]
  refine (execUInit_last _ rfl).trans ?_
  generalize romWord ⟨1041, by omega⟩ = w
  rfl

/-- `INIT`, to the step that follows its last word (43_costloop.md R95). -/
theorem engine_init (st : State) (hb : st.busy = true) (hp : st.phase = .init) (hw : st.widx = 0) :
    engineCycles 1042 st = some (endInit { st with
      p := (initWords 1042 (by omega) st.schedule).p, sbox := (initWords 1042 (by omega) st.schedule).sbox,
      widx := BitVec.ofNat 11 1041, psv := true }) := by
  have h := engine_init_last (initWords 1041 (by omega) st.schedule) st hb hp
  rw [← initWords_succ 1041 (by omega) st.schedule] at h
  rw [← engineCycles_add 1041 1 _ _ (engine_init_words st hb hp hw 1041 (by omega))] at h
  exact h

/-! ## The passes of `CRYPT` -/

/-- A state in phase `ph` of chunk `c` of pass `n`. -/
def atChunk (ct : Vector Word 6) (n c : Nat) (ph : Phase) (b : Block) (rnd : BitVec 5) (st : State) : State :=
  { st with
    ctext := ct, pass := BitVec.ofNat 6 n, chunk := BitVec.ofNat 2 c, phase := ph, l := b.l, r := b.r, rnd := rnd }

/-- One chunk: load and sixteen rounds (43_costloop.md R99, 41_feistel.md R73). -/
theorem engine_chunk (ct : Vector Word 6) (n : Nat) (c : Fin 3) (b : Block) (r : BitVec 5) (st : State)
    (hb : st.busy = true) (hs : st.sched = .none) (ho : st.op = .crypt) :
    engineCycles 17 (atChunk ct n c.val .bld b r st) =
      some (atChunk ct n c.val .bst (encipher ⟨ct[2 * c.val], ct[2 * c.val + 1]⟩ st.schedule) 16 st) := by
  have hc : (BitVec.ofNat 2 c.val).toNat = c.val := by
    rw [BitVec.toNat_ofNat]
    omega
  have h1 : engineCycles 1 (atChunk ct n c.val .bld b r st) =
      some (atChunk ct n c.val .round ⟨ct[2 * c.val], ct[2 * c.val + 1]⟩ 1 st) := by
    refine engineCycles_one _ _ (by exact hb) ?_
    show execUBld _ = _
    simp only [execUBld, atChunk, hc]
    rw [dif_pos (by omega)]
  have h2 := engine_encipher_chunk (atChunk ct n c.val .round ⟨ct[2 * c.val], ct[2 * c.val + 1]⟩ 1 st) hb rfl rfl hs ho
  have h3 : encipher ⟨(atChunk ct n c.val .round ⟨ct[2 * c.val], ct[2 * c.val + 1]⟩ 1 st).l,
        (atChunk ct n c.val .round ⟨ct[2 * c.val], ct[2 * c.val + 1]⟩ 1 st).r⟩
      (atChunk ct n c.val .round ⟨ct[2 * c.val], ct[2 * c.val + 1]⟩ 1 st).schedule
      = encipher ⟨ct[2 * c.val], ct[2 * c.val + 1]⟩ st.schedule := rfl
  rw [h3] at h2
  rw [show 17 = 1 + 16 from rfl, engineCycles_add 1 16 _ _ h1, h2]
  generalize encipher ⟨ct[2 * c.val], ct[2 * c.val + 1]⟩ st.schedule = e
  rfl

/-- What `U_BST` does with chunk `c` of pass `n` (43_costloop.md R100). -/
theorem execUBst_eq (ct : Vector Word 6) (n : Nat) (hn : n < 64) (c : Fin 3) (b : Block) (r : BitVec 5) (st : State) :
    execUBst (atChunk ct n c.val .bst b r st) = .next
      (if c.val < 2 then atChunk ((ct.set (2 * c.val) b.l).set (2 * c.val + 1) b.r) n (c.val + 1) .bld b r st
        else if n < 63 then atChunk ((ct.set (2 * c.val) b.l).set (2 * c.val + 1) b.r) (n + 1) 0 .bld b r st
        else finish (atChunk ((ct.set (2 * c.val) b.l).set (2 * c.val + 1) b.r) n c.val .bst b r st)) := by
  have hc : (BitVec.ofNat 2 c.val).toNat = c.val := by
    rw [BitVec.toNat_ofNat]
    omega
  have hp : (BitVec.ofNat 6 n).toNat = n := by
    rw [BitVec.toNat_ofNat]
    omega
  have hc1 : BitVec.ofNat 2 c.val + 1 = BitVec.ofNat 2 (c.val + 1) := by
    rw [← BitVec.toNat_inj, BitVec.toNat_add, hc, BitVec.toNat_ofNat]
    rfl
  have hp1 : BitVec.ofNat 6 n + 1 = BitVec.ofNat 6 (n + 1) := by
    rw [← BitVec.toNat_inj, BitVec.toNat_add, hp, BitVec.toNat_ofNat]
    rfl
  simp only [execUBst, atChunk, hc, hp, hc1, hp1]
  rw [dif_pos (by omega)]
  by_cases h1 : c.val < 2
  · rw [if_pos h1, if_pos h1]
  · rw [if_neg h1, if_neg h1]
    by_cases h2 : n < 63
    · rw [if_pos h2, if_pos h2]
      rfl
    · rw [if_neg h2, if_neg h2]

/-- One chunk with its store. -/
theorem engine_chunk_stored (ct : Vector Word 6) (n : Nat) (hn : n < 64) (c : Fin 3) (b : Block) (r : BitVec 5) (st : State)
    (hb : st.busy = true) (hs : st.sched = .none) (ho : st.op = .crypt) :
    engineCycles 18 (atChunk ct n c.val .bld b r st) = some
      (if c.val < 2 then
          atChunk (encryptChunk st.schedule c ct) n (c.val + 1) .bld
            (encipher ⟨ct[2 * c.val], ct[2 * c.val + 1]⟩ st.schedule) 16 st
        else if n < 63 then
          atChunk (encryptChunk st.schedule c ct) (n + 1) 0 .bld
            (encipher ⟨ct[2 * c.val], ct[2 * c.val + 1]⟩ st.schedule) 16 st
        else
          finish (atChunk (encryptChunk st.schedule c ct) n c.val .bst
            (encipher ⟨ct[2 * c.val], ct[2 * c.val + 1]⟩ st.schedule) 16 st)) := by
  rw [show 18 = 17 + 1 from rfl, engineCycles_add 17 1 _ _ (engine_chunk ct n c b r st hb hs ho)]
  refine engineCycles_one _ _ (by exact hb) ?_
  exact execUBst_eq ct n hn c _ 16 st

/-- Two chunks of a pass and the start of the third. -/
theorem engine_two_chunks (ct : Vector Word 6) (n : Nat) (hn : n < 64) (b : Block) (r : BitVec 5) (st : State)
    (hb : st.busy = true) (hs : st.sched = .none) (ho : st.op = .crypt) :
    ∃ b', engineCycles 36 (atChunk ct n 0 .bld b r st) =
      some (atChunk (encryptChunk st.schedule 1 (encryptChunk st.schedule 0 ct)) n 2 .bld b' 16 st) := by
  have h0 := engine_chunk_stored ct n hn 0 b r st hb hs ho
  rw [if_pos (by decide)] at h0
  have h1 := engine_chunk_stored (encryptChunk st.schedule 0 ct) n hn 1
    (encipher ⟨ct[0], ct[1]⟩ st.schedule) 16 st hb hs ho
  rw [if_pos (by decide)] at h1
  exact ⟨_, (engineCycles_add 18 18 _ _ h0).trans h1⟩

/-- One pass that is not the last (43_costloop.md R101). -/
theorem engine_pass (ct : Vector Word 6) (n : Nat) (hn : n < 63) (b : Block) (r : BitVec 5) (st : State)
    (hb : st.busy = true) (hs : st.sched = .none) (ho : st.op = .crypt) :
    ∃ b', engineCycles 54 (atChunk ct n 0 .bld b r st) =
      some (atChunk (encryptPass st.schedule ct) (n + 1) 0 .bld b' 16 st) := by
  obtain ⟨b', h⟩ := engine_two_chunks ct n (by omega) b r st hb hs ho
  have h2 := engine_chunk_stored (encryptChunk st.schedule 1 (encryptChunk st.schedule 0 ct)) n (by omega) 2 b' 16 st
    hb hs ho
  rw [if_neg (by decide), if_pos hn] at h2
  exact ⟨_, (engineCycles_add 36 18 _ _ h).trans h2⟩

/-- The first passes (43_costloop.md R101). -/
theorem engine_passes (ct : Vector Word 6) (b : Block) (r : BitVec 5) (st : State)
    (hb : st.busy = true) (hs : st.sched = .none) (ho : st.op = .crypt) (n : Nat) (hn : n ≤ 63) :
    ∃ b' r', engineCycles (54 * n) (atChunk ct 0 0 .bld b r st) =
      some (atChunk ((encryptPass st.schedule)^[n] ct) n 0 .bld b' r' st) := by
  induction n with
  | zero => exact ⟨b, r, engineCycles_zero _⟩
  | succ n ih =>
    obtain ⟨b1, r1, h1⟩ := ih (by omega)
    obtain ⟨b2, h2⟩ := engine_pass ((encryptPass st.schedule)^[n] ct) n (by omega) b1 r1 st hb hs ho
    refine ⟨b2, 16, ?_⟩
    rw [Nat.mul_succ, engineCycles_add _ _ _ _ h1, h2, Function.iterate_succ_apply']

/-- The words of the last chunk are the block it was enciphered to. -/
theorem encryptChunk_last (ps : Schedule) (ct : Vector Word 6) :
    (encipher ⟨ct[4], ct[5]⟩ ps).l = (encryptChunk ps 2 ct)[4]
      ∧ (encipher ⟨ct[4], ct[5]⟩ ps).r = (encryptChunk ps 2 ct)[5] := by
  simp [encryptChunk]

/-- The 64 passes, to the completion of `CRYPT` (43_costloop.md R100, R101). -/
theorem engine_all_passes (ct : Vector Word 6) (b : Block) (r : BitVec 5) (st : State)
    (hb : st.busy = true) (hs : st.sched = .none) (ho : st.op = .crypt) :
    ∃ b', engineCycles 3456 (atChunk ct 0 0 .bld b r st) =
        some (finish (atChunk ((encryptPass st.schedule)^[64] ct) 63 2 .bst b' 16 st))
      ∧ b'.l = ((encryptPass st.schedule)^[64] ct)[4] ∧ b'.r = ((encryptPass st.schedule)^[64] ct)[5] := by
  obtain ⟨b1, r1, h1⟩ := engine_passes ct b r st hb hs ho 63 (le_refl _)
  rw [Function.iterate_succ_apply' _ 63]
  generalize (encryptPass st.schedule)^[63] ct = ct' at *
  obtain ⟨b2, h2⟩ := engine_two_chunks ct' 63 (by omega) b1 r1 st hb hs ho
  have h3 := engine_chunk_stored (encryptChunk st.schedule 1 (encryptChunk st.schedule 0 ct')) 63 (by omega) 2 b2 16 st
    hb hs ho
  rw [if_neg (by decide), if_neg (by decide)] at h3
  refine ⟨_, (engineCycles_add (54 * 63) 54 _ _ h1).trans ((engineCycles_add 36 18 _ _ h2).trans h3), ?_, ?_⟩
  · exact (encryptChunk_last st.schedule _).1
  · exact (encryptChunk_last st.schedule _).2

end Sys2Proof.Machine
end

