-- ==== Sys2Proof/Laws/CommandRuns.lean ====
section
/-! SUPPORT. From the engine's stretches to whole commands: what a completed run leaves behind, and the cost loop
(42_keyschedule.md R88, R91; 43_costloop.md R102). The results of the long folds stand for variables here: a term that
still holds `fill 521 …` is one the kernel may try to evaluate. -/

namespace Sys2Proof.Machine

/-! ## The constants -/

/-- The original schedule holds the constant store (15_constants.md R30). -/
theorem psRead_scheduleOrig (k : Fin 1042) : psRead scheduleOrig k = romWord k := by
  unfold psRead romWord
  split
  · simp [scheduleOrig, pOrig]
  · simp [scheduleOrig, sOrig]

/-- After 1042 `U_INIT` the schedule is the original one (43_costloop.md R95). -/
theorem initWords_all (ps : Schedule) : initWords 1042 (by omega) ps = scheduleOrig := by
  apply schedule_ext
  intro k
  rw [psRead_initWords _ _ _ _ k.isLt, psRead_scheduleOrig]

/-! ## A schedule run computes its function -/

theorem keyFn_eq (data : List Byte) (ps : Schedule) :
    (fill 521 (by omega) (fun _ b => b) (xorPass 18 (by omega) (fun i => streamWord data (4 * i)) ps)).2
      = keyFn data ps := by
  rw [keyFn]

theorem eksKeyFn_eq (content : List Byte) (salt : Vector Word 4) (ps : Schedule) :
    (fill 521 (by omega) (saltMix salt) (xorPass 18 (by omega) (fun i => streamWord content (4 * i)) ps)).2
      = eksKeyFn content salt ps := by
  rw [eksKeyFn]

/-- A password run computes `Key` of the key bytes (42_keyschedule.md R88, R91). -/
theorem engine_key_run (st : State) (hb : st.busy = true) (hk : 1 ≤ st.keylen.toNat ∧ st.keylen.toNat ≤ 72) :
    ∃ acc : Block × Schedule, acc.2 = keyFn (keyString st.key st.keylen.toNat) st.schedule
      ∧ acc.1.l = acc.2.sbox[3][254] ∧ acc.1.r = acc.2.sbox[3][255]
      ∧ engineCycles 9396 (startSched .kpw st)
        = some (endSched (atEnd acc .kpw (BitVec.ofNat 7 (72 % st.keylen.toNat)) 0 st)) :=
  ⟨_, keyFn_eq _ _, (fill_last _ _).1, (fill_last _ _).2, engine_run_key st hb hk⟩

/-- A salt run computes `Key` of the salt bytes (42_keyschedule.md R88, R91), the stream of the salt bytes being the
registers (40_wordstream.md R67). -/
theorem engine_salt_run (st : State) (hb : st.busy = true)
    (hw : ∀ i, streamWord (saltString st.salt) (4 * i) = st.salt[i % 4]) :
    ∃ acc : Block × Schedule, acc.2 = keyFn (saltString st.salt) st.schedule
      ∧ acc.1.l = acc.2.sbox[3][254] ∧ acc.1.r = acc.2.sbox[3][255]
      ∧ engineCycles 9396 (startSched .ksalt st) = some (endSched (atEnd acc .ksalt 0 0 st)) :=
  ⟨_, keyFn_eq _ _, (fill_last _ _).1, (fill_last _ _).2, engine_run_salt st hb _ hw⟩

/-- A salted run computes `EksKey` (42_keyschedule.md R88, R91). -/
theorem engine_eks_run (st : State) (hb : st.busy = true) (hk : 1 ≤ st.keylen.toNat ∧ st.keylen.toNat ≤ 72) :
    ∃ acc : Block × Schedule, acc.2 = eksKeyFn (keyString st.key st.keylen.toNat) st.salt st.schedule
      ∧ acc.1.l = acc.2.sbox[3][254] ∧ acc.1.r = acc.2.sbox[3][255]
      ∧ engineCycles 9917 (startSched .eks st)
        = some (endSched (atEnd acc .eks (BitVec.ofNat 7 (72 % st.keylen.toNat)) 2 st)) :=
  ⟨_, eksKeyFn_eq _ _ _, (fill_last _ _).1, (fill_last _ _).2, engine_run_eks st hb hk⟩

/-! ## A schedule run that ends its command -/

theorem endSched_atEnd_finish (acc : Block × Schedule) (kind : SchedKind) (koff : BitVec 7) (sidx : BitVec 2) (st : State)
    (ho : st.op = .keyPw ∨ st.op = .keySalt ∨ st.op = .ekskey) :
    endSched (atEnd acc kind koff sidx st) = finish (atEnd acc kind koff sidx st) := by
  have h : (atEnd acc kind koff sidx st).op = st.op := rfl
  unfold endSched
  rw [h]
  rcases ho with h | h | h <;> rw [h]

/-- What the machine holds after `n` undisturbed cycles of a run that ends its command (42_keyschedule.md R91). -/
theorem cycles_of_finished_run (n : Nat) (hn : 0 < n) (start st : State) (acc : Block × Schedule) (kind : SchedKind)
    (koff : BitVec 7) (sidx : BitVec 2) (hu : undisturbedFor n start)
    (h : engineCycles n start = some (finish (atEnd acc kind koff sidx st))) :
    ∃ t, cycles n start = .next t ∧ busyFor n start ∧ t.schedule = acc.2 ∧ t.l = acc.1.l ∧ t.r = acc.1.r
      ∧ t.busy = false ∧ t.done = true ∧ t.psv = st.psv ∧ t.op = st.op ∧ t.phase = .idle ∧ t.sched = .none
      ∧ t.widx = 1040 ∧ t.rnd = 16 ∧ t.koff = koff ∧ t.sidx = sidx
      ∧ t.ctext = st.ctext ∧ t.key = st.key ∧ t.salt = st.salt ∧ t.cost = st.cost ∧ t.keylen = st.keylen := by
  obtain ⟨t, h1, h2, h3, h4⟩ := cycles_of_engineCycles n start start _ rfl hu h
  have hd := h4 hn rfl
  refine ⟨t, h1, h3, ?_⟩
  rw [h2] at hd ⊢
  exact ⟨rfl, rfl, rfl, rfl, hd, rfl, rfl, rfl, rfl, rfl, rfl, rfl, rfl, rfl, rfl, rfl, rfl, rfl⟩

/-! ## The cost loop -/

/-- In `CRYPT` a password run is followed by a salt run (43_costloop.md R96). -/
theorem endSched_atEnd_kpw (acc : Block × Schedule) (koff : BitVec 7) (sidx : BitVec 2) (st : State) (ho : st.op = .crypt) :
    endSched (atEnd acc .kpw koff sidx st) = startSched .ksalt (atEnd acc .kpw koff sidx st) := by
  have h : (atEnd acc .kpw koff sidx st).op = st.op := rfl
  have hs : (atEnd acc .kpw koff sidx st).sched = .kpw := rfl
  unfold endSched
  rw [h, ho, hs]

/-- What a stretch of `CRYPT` does not change. -/
def CryptFrame (st t : State) : Prop :=
  t.busy = true ∧ t.op = .crypt ∧ t.psv = st.psv ∧ t.key = st.key ∧ t.salt = st.salt ∧ t.cost = st.cost
    ∧ t.keylen = st.keylen

theorem CryptFrame.trans {a b c : State} (h1 : CryptFrame a b) (h2 : CryptFrame b c) : CryptFrame a c := by
  obtain ⟨-, -, p1, k1, s1, c1, l1⟩ := h1
  obtain ⟨b2, o2, p2, k2, s2, c2, l2⟩ := h2
  exact ⟨b2, o2, p2.trans p1, k2.trans k1, s2.trans s1, c2.trans c1, l2.trans l1⟩

theorem cryptFrame_atEnd (acc : Block × Schedule) (kind : SchedKind) (koff : BitVec 7) (sidx : BitVec 2) (st : State)
    (hb : st.busy = true) (ho : st.op = .crypt) : CryptFrame st (atEnd acc kind koff sidx st) :=
  ⟨hb, ho, rfl, rfl, rfl, rfl, rfl⟩

/-- One repetition of step 3 of `Crypt`, up to its `EndSched` (43_costloop.md R101, R102): a password run and a salt
run; `w` is the stream of the salt bytes. -/
theorem engine_cost_step (st : State) (hb : st.busy = true) (ho : st.op = .crypt)
    (hk : 1 ≤ st.keylen.toNat ∧ st.keylen.toNat ≤ 72)
    (hw : ∀ i, streamWord (saltString st.salt) (4 * i) = st.salt[i % 4]) :
    ∃ t : State, engineCycles 18792 (startSched .kpw st) = some (endSched t)
      ∧ t.schedule = costStep (keyString st.key st.keylen.toNat) st.salt st.schedule
      ∧ t.sched = .ksalt ∧ t.iter = st.iter ∧ CryptFrame st t := by
  obtain ⟨a1, ha1, -, -, h1⟩ := engine_key_run st hb hk
  rw [endSched_atEnd_kpw _ _ _ _ ho] at h1
  have f1 := cryptFrame_atEnd a1 .kpw (BitVec.ofNat 7 (72 % st.keylen.toNat)) 0 st hb ho
  have s1 : (atEnd a1 .kpw (BitVec.ofNat 7 (72 % st.keylen.toNat)) 0 st).schedule = a1.2 := rfl
  have i1 : (atEnd a1 .kpw (BitVec.ofNat 7 (72 % st.keylen.toNat)) 0 st).iter = st.iter := rfl
  generalize atEnd a1 .kpw (BitVec.ofNat 7 (72 % st.keylen.toNat)) 0 st = u at h1 f1 s1 i1
  obtain ⟨a2, ha2, -, -, h2⟩ := engine_salt_run u f1.1 (by rw [f1.2.2.2.2.1]; exact hw)
  refine ⟨_, (engineCycles_add 9396 9396 _ _ h1).trans h2, ?_, rfl, i1,
    f1.trans (cryptFrame_atEnd a2 .ksalt 0 0 u f1.1 f1.2.1)⟩
  have s2 : (atEnd a2 .ksalt 0 0 u).schedule = a2.2 := rfl
  rw [s2, ha2, s1, ha1, f1.2.2.2.2.1, costStep]

/-- Step 3 of `Crypt`: `n + 1` repetitions, then the final passes begin (43_costloop.md R97, R102). -/
theorem engine_cost_loop (n : Nat) : ∀ st : State, st.busy = true → st.op = .crypt →
    (1 ≤ st.keylen.toNat ∧ st.keylen.toNat ≤ 72) →
    (∀ i, streamWord (saltString st.salt) (4 * i) = st.salt[i % 4]) → st.iter.toNat = n + 1 →
    ∃ t, engineCycles (18792 * (n + 1)) (startSched .kpw st) = some t
      ∧ t.schedule = (costStep (keyString st.key st.keylen.toNat) st.salt)^[n + 1] st.schedule
      ∧ t.phase = .cload ∧ t.sched = .none ∧ CryptFrame st t := by
  induction n with
  | zero =>
    intro st hb ho hk hw hi
    obtain ⟨u, h1, h2, h3, h4, h5⟩ := engine_cost_step st hb ho hk hw
    have hone : u.iter = 1 := by
      rw [h4, ← BitVec.toNat_inj, hi]
      rfl
    have he : endSched u = { u with iter := 0, sched := .none, phase := .cload } := by
      simp [endSched, h5.2.1, h3, hone]
    rw [he] at h1
    exact ⟨_, h1, h2, rfl, rfl, h5⟩
  | succ n ih =>
    intro st hb ho hk hw hi
    obtain ⟨u, h1, h2, h3, h4, h5⟩ := engine_cost_step st hb ho hk hw
    have hne : u.iter ≠ 1 := by
      intro h
      rw [← h4, h] at hi
      simp at hi
    rw [endSched_again u h5.2.1 h3 hne] at h1
    obtain ⟨hub, huo, hup, huk, hus, huc, hul⟩ := h5
    have hit : ({ u with iter := u.iter - 1 } : State).iter.toNat = n + 1 := by
      show (u.iter - 1).toNat = n + 1
      rw [h4, BitVec.toNat_sub, hi]
      have := st.iter.isLt
      simp
      omega
    obtain ⟨t, t1, t2, t3, t4, t5⟩ := ih { u with iter := u.iter - 1 } hub huo
      (by show 1 ≤ u.keylen.toNat ∧ _; rw [hul]; exact hk) (by show ∀ i, streamWord (saltString u.salt) _ = _; rw [hus]; exact hw)
      hit
    refine ⟨t, ?_, ?_, t3, t4, CryptFrame.trans ⟨hub, huo, hup, huk, hus, huc, hul⟩ t5⟩
    · rw [show 18792 * (n + 1 + 1) = 18792 + 18792 * (n + 1) by omega]
      exact (engineCycles_add _ _ _ _ h1).trans t1
    · rw [t2, Function.iterate_succ_apply _ (n + 1), ← h2]
      show (costStep (keyString u.key u.keylen.toNat) u.salt)^[n + 1] u.schedule = _
      rw [huk, hul, hus]

/-- What the machine holds after `n` undisturbed cycles that end with the last `U_BST` of `CRYPT`
(43_costloop.md R100, R104). -/
theorem cycles_of_finished_passes (n : Nat) (hn : 0 < n) (start st : State) (ct : Vector Word 6) (b : Block)
    (hu : undisturbedFor n start) (h : engineCycles n start = some (finish (atChunk ct 63 2 .bst b 16 st))) :
    ∃ t, cycles n start = .next t ∧ busyFor n start ∧ t.ctext = ct ∧ t.schedule = st.schedule ∧ t.l = b.l ∧ t.r = b.r
      ∧ t.busy = false ∧ t.done = true ∧ t.psv = st.psv ∧ t.op = st.op ∧ t.phase = .idle
      ∧ t.key = st.key ∧ t.salt = st.salt ∧ t.cost = st.cost ∧ t.keylen = st.keylen := by
  obtain ⟨t, h1, h2, h3, h4⟩ := cycles_of_engineCycles n start start _ rfl hu h
  have hd := h4 hn rfl
  refine ⟨t, h1, h3, ?_⟩
  rw [h2] at hd ⊢
  exact ⟨rfl, rfl, rfl, rfl, rfl, hd, rfl, rfl, rfl, rfl, rfl, rfl, rfl⟩

/-- Step 4 of `Crypt`, from `U_CLOAD` to the completion (43_costloop.md R98, R101). -/
theorem engine_final_passes (st : State) (hb : st.busy = true) (hp : st.phase = .cload) (hs : st.sched = .none)
    (ho : st.op = .crypt) :
    ∃ (ct : Vector Word 6) (b : Block), ct = (encryptPass st.schedule)^[64] cOrig ∧ b.l = ct[4] ∧ b.r = ct[5]
      ∧ engineCycles (1 + 3456) st = some (finish (atChunk ct 63 2 .bst b 16 st)) := by
  have h1 : engineCycles 1 st = some (atChunk cOrig 0 0 .bld ⟨st.l, st.r⟩ st.rnd st) := by
    refine engineCycles_one _ _ hb ?_
    rw [hp]
    rfl
  obtain ⟨b, h2, h3, h4⟩ := engine_all_passes cOrig ⟨st.l, st.r⟩ st.rnd st hb hs ho
  exact ⟨_, b, rfl, h3, h4, (engineCycles_add _ _ _ _ h1).trans h2⟩

end Sys2Proof.Machine
end

