-- ==== Sys2Proof/Laws/PerInstr.lean ====
section
/-! SUPPORT. The per-instruction family `MatchesTableRow`: the encoding of an instruction, whatever its operands,
matches the row of the opcode table that is its own (30_encoding.md R60). -/

namespace Sys2Proof.Laws.MatchesTableRow

open Sys2Proof

/-- Width, mask and pattern of the row of `i` match the encoding of `i`. -/
def Statement (i : Instr) : Prop := rowMatches (tableRow i) (encode i) = true

/-- The mask of the two `BUS` rows keeps the `wr` bit alone. -/
theorem busWord_and_mask (w : Bool) (addr : BitVec 10) (wdata : Word) :
    (busWord w addr wdata).toNat &&& 0x40000000000 = w.toNat * 0x40000000000 := by
  have h := Nat.and_two_pow (busWord w addr wdata).toNat 42
  rw [← BitVec.getLsbD, busWord_wrBit] at h
  exact h

theorem rd (addr : BitVec 10) : Statement (.rd addr) := by
  have h : (busWord false addr 0).toNat &&& 0x40000000000 = 0 := busWord_and_mask false addr 0
  simp only [Statement, rowMatches, encodedNat, tableRow, encode, h]
  rfl

theorem wr (addr : BitVec 10) (wdata : Word) : Statement (.wr addr wdata) := by
  have h : (busWord true addr wdata).toNat &&& 0x40000000000 = 0x40000000000 := busWord_and_mask true addr wdata
  simp only [Statement, rowMatches, encodedNat, tableRow, encode, h]
  rfl

theorem nop : Statement .nop := by unfold Statement; decide
theorem init : Statement .init := by unfold Statement; decide
theorem encipher : Statement .encipher := by unfold Statement; decide
theorem keyPw : Statement .keyPw := by unfold Statement; decide
theorem keySalt : Statement .keySalt := by unfold Statement; decide
theorem ekskey : Statement .ekskey := by unfold Statement; decide
theorem crypt : Statement .crypt := by unfold Statement; decide
theorem abort : Statement .abort := by unfold Statement; decide
theorem uIdle : Statement .uIdle := by unfold Statement; decide
theorem uInit : Statement .uInit := by unfold Statement; decide
theorem uXorp : Statement .uXorp := by unfold Statement; decide
theorem uSalt : Statement .uSalt := by unfold Statement; decide
theorem uRound : Statement .uRound := by unfold Statement; decide
theorem uSt0 : Statement .uSt0 := by unfold Statement; decide
theorem uSt1 : Statement .uSt1 := by unfold Statement; decide
theorem uCload : Statement .uCload := by unfold Statement; decide
theorem uBld : Statement .uBld := by unfold Statement; decide
theorem uBst : Statement .uBst := by unfold Statement; decide

end Sys2Proof.Laws.MatchesTableRow
end

