-- ==== Sys2Proof/Tests/Slice0.lean ====
section
/-! SUPPORT. The model's own tests: the smoke test of `WellFormed`, words written out from the encodings of
30_encoding.md, vectors of 95_test_vectors.md (named V.., T..) on single steps, and for every statement with
hypotheses a witness that meets them. -/

namespace Sys2Proof.Tests.Slice0

open Sys2Proof Sys2Proof.Machine

/-! ## Helpers -/

/-- The reset state with all of `P` and `S` zero, so that it evaluates. -/
def blank : State := { State.reset with p := Vector.replicate 18 0, sbox := Vector.replicate 4 (Vector.replicate 256 0) }

/-- An idle core with a schedule, the longest key and the lowest cost. -/
def ready : State := { blank with psv := true, keylen := 72, cost := 4 }

/-- S-boxes that are zero but for one word in each bank. -/
def boxes (b0 b1 b2 b3 : Nat × Word) : SBoxes :=
  (#v[b0, b1, b2, b3] : Vector (Nat × Word) 4).map fun x => (Vector.replicate 256 0).set! x.1 x.2

/-- The lookups of row V15a. -/
def boxesV15a : SBoxes := boxes (36, 0xe65525f3) (63, 0x183eb331) (106, 0x647d0862) (136, 0x4040cb08)

/-- The same with the P-array of 15_constants.md R31 and the words of `S_ORIG` that V15a reads. -/
def readyOrig : State := { ready with p := pOrig, sbox := boxesV15a }

/-- The last round of an `ENCIPHER` command. -/
def lastRound : State := { readyOrig with rnd := 16, op := .encipher, busy := true, phase := .round }

/-- A bus read and a bus write. -/
def reads (addr : BitVec 10) : PortIn := ⟨false, true, false, addr, 0⟩
def writes (addr : BitVec 10) (wdata : Word) : PortIn := ⟨false, true, true, addr, wdata⟩

/-- The outcome is a next state with the property. -/
def nextWith (o : Host.Outcome State Fault Refusal) (f : State → Bool) : Bool :=
  match o with
  | .next t => f t
  | .fault _ => false
  | .refused _ => false

/-- The first step after placing a row's word answers a next state with the property. -/
def firstStep (st : State) (nbits w : Nat) (f : State → Bool) : Bool := nextWith (step (st.withFetchWord nbits w)) f

/-- The key bytes "password123" and the salt of Part 1 of 95_test_vectors.md. -/
def pw11 : List Byte := [0x70, 0x61, 0x73, 0x73, 0x77, 0x6f, 0x72, 0x64, 0x31, 0x32, 0x33]
def salt1 : Vector Word 4 := #v[0x4fce3ff4#32, 0x71aecac2#32, 0xb3cff128#32, 0x2920db9d#32]

/-! ## WellFormed: the one check, with the ill-formed term it refuses -/

theorem test_illFormed_crypt_as_write : illFormed (.wr 0x004 6) = some .commandWrittenAsBusWrite := by decide
theorem test_illFormed_nop_as_write : illFormed (.wr 0x004 0) = some .commandWrittenAsBusWrite := by decide
theorem test_wellFormed_illegal_word : illFormed (.wr 0x004 8) = none := by decide
theorem test_wellFormed_other_address : illFormed (.wr 0x010 6) = none := by decide

/-! ## Decoding: words written out from 30_encoding.md R50 to R54, R58, one for each constructor -/

/-- `RD STATUS`: wr 0, addr 00 0000 1000. -/
theorem test_decode_rd :
    decodeTableWord 48 0b0_0000001000_00000000000000000000000000000000 = some (.rd 0x008) := by decide
/-- `WR COST, 10`: wr 1, addr 00 0001 0000. -/
theorem test_decode_wr :
    decodeTableWord 48 0b1_0000010000_00000000000000000000000000001010 = some (.wr 0x010 10) := by decide
/-- The `wdata` bits of a read are ignored. -/
theorem test_decode_rd_datum :
    decodeTableWord 48 0b0_1111111100_11111111111111111111111111111111 = some (.rd 0x3fc) := by decide
theorem test_decode_nop : decodeTableWord 32 0b0000 = some .nop := by decide
theorem test_decode_init : decodeTableWord 32 0b0001 = some .init := by decide
theorem test_decode_encipher : decodeTableWord 32 0b0010 = some .encipher := by decide
theorem test_decode_keyPw : decodeTableWord 32 0b0011 = some .keyPw := by decide
theorem test_decode_keySalt : decodeTableWord 32 0b0100 = some .keySalt := by decide
theorem test_decode_ekskey : decodeTableWord 32 0b0101 = some .ekskey := by decide
theorem test_decode_crypt : decodeTableWord 32 0b0110 = some .crypt := by decide
theorem test_decode_abort : decodeTableWord 32 0b0111 = some .abort := by decide
theorem test_decode_uIdle : decodeTableWord 8 0b0000 = some .uIdle := by decide
theorem test_decode_uInit : decodeTableWord 8 0b0001 = some .uInit := by decide
theorem test_decode_uXorp : decodeTableWord 8 0b0010 = some .uXorp := by decide
theorem test_decode_uSalt : decodeTableWord 8 0b0011 = some .uSalt := by decide
theorem test_decode_uRound : decodeTableWord 8 0b0100 = some .uRound := by decide
theorem test_decode_uSt0 : decodeTableWord 8 0b0101 = some .uSt0 := by decide
theorem test_decode_uSt1 : decodeTableWord 8 0b0110 = some .uSt1 := by decide
theorem test_decode_uCload : decodeTableWord 8 0b0111 = some .uCload := by decide
theorem test_decode_uBld : decodeTableWord 8 0b1000 = some .uBld := by decide
theorem test_decode_uBst : decodeTableWord 8 0b1001 = some .uBst := by decide
/-- Illegal command words: `opc` 8 and 15, a bit above `opc`, the top bit (R51, R52). -/
theorem test_decode_illegal_commands :
    [8, 15, 0x16, 0x80000006].map (decodeTableWord 32) = [none, none, none, none] := by decide
/-- `phase` codes 10 and 15 (R53 (d)). -/
theorem test_decode_illegal_phases : [10, 15].map (decodeTableWord 8) = [none, none] := by decide
/-- Two-level decoding (R60): `WR CTRL, 6` is `CRYPT`, `WR CTRL, 8` stays a write. -/
theorem test_decode_two_levels :
    decodeAccess 0x40400000006 = .crypt ∧ decodeAccess 0x40400000008 = .wr 0x004 8 := by decide

/-! ## The constant store: the check figures of 15_constants.md R34 -/

theorem test_pOrig_figures :
    Nat.fold 18 (fun i hi acc => (acc.1 + pOrigWord ⟨i, hi⟩, acc.2 ^^^ pOrigWord ⟨i, hi⟩)) ((0, 0) : Word × Word)
      = (0x8e4d14cc, 0xb73ad7ea) := by decide +kernel
theorem test_sOrig_figures :
    (List.finRange 4).map (fun b =>
        Nat.fold 256 (fun j hj acc => (acc.1 + sOrigWord b ⟨j, hj⟩, acc.2 ^^^ sOrigWord b ⟨j, hj⟩)) ((0, 0) : Word × Word))
      = [(0x4b745115, 0x4eb4db7f), (0x72ff37b2, 0xc727e122), (0x2ac02b91, 0x462a5d01), (0xf43e3a88, 0x1779e2bc)] := by
  decide +kernel
theorem test_cOrig_sum : cOrig.toList.foldl (· + ·) 0 = 0x51899c21 := by decide

/-! ## Functions -/

/-- V10, V10a, V10d. -/
theorem test_streamWord_wraps :
    streamWord pw11 8 = 0x31323370 ∧ streamWord pw11 9 = 0x32337061 ∧ streamWord pw11 12 = 0x61737377 := by decide
/-- V12, V12c, V13. -/
theorem test_streamWord_short :
    streamWord [0x61] 5 = 0x61616161 ∧ streamWord [0x61, 0x62, 0x63] 0 = 0x61626361
      ∧ streamWord [0xff, 0x00, 0x80, 0x7f, 0x01] 3 = 0x7f01ff00 := by decide
/-- V15c and V15a: the four lookups of each are put where the table gives them. -/
theorem test_feistelF :
    feistelF 0x01020304 (boxes (1, 0x98dfb5ac) (2, 0xdb75092e) (3, 0x94692934) (4, 0x5cb0679e)) = 0x3cedff8c
      ∧ feistelF 0x243f6a88 boxesV15a = 0xdb2f9c4e := by decide +kernel
/-- V18a: which word of `P` goes to which half. -/
theorem test_encipher_halves :
    encipher ⟨0, 0⟩ ⟨Vector.ofFn fun k => BitVec.ofNat 32 (k.val + 1), blank.sbox⟩ = ⟨0x00000002, 0x00000011⟩ := by
  decide +kernel

/-! ## Single steps -/

/-- The first step after placing each row's word at reset answers a next state. -/
theorem test_every_row_steps :
    ([(48, 0x00800000000), (48, 0x41000000005), (32, 0), (32, 1), (32, 2), (32, 3), (32, 4), (32, 5), (32, 6),
        (32, 7), (8, 0), (8, 1), (8, 2), (8, 3), (8, 4), (8, 5), (8, 6), (8, 7), (8, 8), (8, 9)] : List (Nat × Nat)).all
      (fun x => firstStep State.reset x.1 x.2 fun _ => true) = true := by decide +kernel

/-- V50. -/
theorem test_rd_id : nextWith (exec (.rd 0x000) blank) (fun t => t.out.rdata == 0x42463136) = true := by decide
/-- V53c. -/
theorem test_rd_misaligned :
    nextWith (exec (.rd 0x012) { blank with cost := 7 })
      (fun t => t.out.rdata == 0 && readValue t 0x008 == 0x00002000) = true := by decide
/-- V53e: no aliasing of a misaligned address. -/
theorem test_wr_misaligned :
    nextWith (exec (.wr 0x005 6) ready) (fun t => readValue t 0x008 == 0x00002004) = true := by decide
/-- V54a. -/
theorem test_wr_status :
    nextWith (exec (.wr 0x008 0x2000) { blank with eSeq := true, eAddr := true })
      (fun t => readValue t 0x008 == 0x00001000) = true := by decide
/-- V68b. -/
theorem test_nop : firstStep blank 32 0 (fun t => readValue t 0x008 == 0) = true := by decide
/-- 95_test_vectors.md 3.3: `INIT` running. -/
theorem test_init : firstStep ready 32 1 (fun t => readValue t 0x008 == 0x00010011) = true := by decide
/-- V67 and 3.3. -/
theorem test_encipher_refused : firstStep blank 32 2 (fun t => readValue t 0x008 == 0x00001000) = true := by decide
theorem test_encipher : firstStep ready 32 2 (fun t => readValue t 0x008 == 0x00020045 && t.rnd == 1) = true := by decide
/-- V67b and 3.3. -/
theorem test_keyPw_refused : firstStep blank 32 3 (fun t => readValue t 0x008 == 0x00001800) = true := by decide
theorem test_keyPw : firstStep ready 32 3 (fun t => readValue t 0x008 == 0x00030025) = true := by decide
/-- V67c and 3.3. -/
theorem test_keySalt_refused : firstStep blank 32 4 (fun t => readValue t 0x008 == 0x00001000) = true := by decide
theorem test_keySalt : firstStep ready 32 4 (fun t => readValue t 0x008 == 0x00040025) = true := by decide
/-- V67a and 3.3. -/
theorem test_ekskey_refused :
    firstStep { blank with keylen := 12 } 32 5 (fun t => readValue t 0x008 == 0x00001000) = true := by decide
theorem test_ekskey : firstStep ready 32 5 (fun t => readValue t 0x008 == 0x00050025) = true := by decide
/-- V64 and V62. -/
theorem test_crypt_refused :
    firstStep { blank with keylen := 12, cost := 0x80000004 } 32 6 (fun t => readValue t 0x008 == 0x00000400) = true := by
  decide
theorem test_crypt :
    firstStep { blank with keylen := 12, cost := 4 } 32 6 (fun t => readValue t 0x008 == 0x00060011) = true := by decide
/-- V69c. -/
theorem test_abort :
    firstStep { ready with busy := true, op := .crypt, phase := .round, eBusy := true, l := 5 } 32 7
      (fun t => readValue t 0x008 == 0x00000200 && t.l == 0) = true := by decide

theorem test_uIdle : firstStep { blank with l := 5 } 8 0 (fun t => t.l == 5 && t.phase == .idle) = true := by decide
/-- The first and the last word copied: `ROM[0]`, `ROM[1041]` (15_constants.md R31, R32). -/
theorem test_uInit_first :
    nextWith (exec .uInit { blank with op := .init }) (fun t => t.p[0] == 0x243f6a88 && t.widx == 1) = true := by
  decide +kernel
theorem test_uInit_last :
    nextWith (exec .uInit { blank with op := .init, busy := true, phase := .init, widx := 1041 })
      (fun t => t.sbox[3][255] == 0x3ac372e6 && readValue t 0x008 == 0x00010006) = true := by
  decide +kernel
/-- T1, cycles 1 and 4: `P[0] ^= 70617373`, and `koff` wraps from 8 to 0. -/
theorem test_uXorp_first :
    nextWith (exec .uXorp { readyOrig with sched := .kpw, keylen := 12, key := (Vector.replicate 18 0).set 0 0x70617373 })
      (fun t => t.p[0] == 0x545e19fb && t.koff == 4 && t.widx == 1) = true := by decide +kernel
theorem test_uXorp_koff_wraps :
    nextWith (exec .uXorp { ready with sched := .kpw, keylen := 12, koff := 8, widx := 2 }) (fun t => t.koff == 0) = true := by
  decide
/-- T2, cycle 38. -/
theorem test_uSalt :
    nextWith (exec .uSalt { ready with salt := salt1, l := 0x3d993639, r := 0x035a95ba, sidx := 2 })
      (fun t => t.l == 0x8e56c711 && t.r == 0x2a7a4e27 && t.sidx == 0) = true := by decide
/-- V16, round 1. -/
theorem test_uRound_first :
    nextWith (exec .uRound { readyOrig with rnd := 1 })
      (fun t => t.l == 0x243f6a88 && t.r == 0x5e8c949d && t.rnd == 2) = true := by decide +kernel
/-- Round 16 with `F = 0`: `L = R ^ P[17]` as in V16, `R = L ^ P[16]` by hand. -/
theorem test_uRound_last :
    nextWith (exec .uRound { lastRound with sbox := blank.sbox, l := 0x1094ac9c, r := 0xf91464d7 })
      (fun t => t.l == 0x706d9fcc && t.r == 0x82827945 && readValue t 0x008 == 0x00020006) = true := by decide +kernel
/-- T1, cycles 9395 and 9396. -/
theorem test_uSt0 :
    nextWith (exec .uSt0 { ready with widx := 1040, l := 0x806c297a })
      (fun t => t.sbox[3][254] == 0x806c297a && t.sbox[3][255] == 0 && t.phase == .st1) = true := by decide +kernel
theorem test_uSt1 :
    nextWith (exec .uSt1 { ready with widx := 1040, op := .keyPw, sched := .kpw, busy := true, phase := .st1, r := 0x2d0d9ce4 })
      (fun t => t.sbox[3][255] == 0x2d0d9ce4 && readValue t 0x008 == 0x00030006 && t.sched == .none) = true := by
  decide +kernel
/-- 43_costloop.md R97, V62: `iter` is loaded with 10H at the end of the `SCH_EKS` run. -/
theorem test_uSt1_loads_iter :
    nextWith (exec .uSt1 { ready with widx := 1040, op := .crypt, sched := .eks })
      (fun t => t.iter == 0x10 && t.sched == .kpw && t.phase == .xorp) = true := by decide +kernel
theorem test_uCload : nextWith (exec .uCload ready) (fun t => t.ctext[0] == 0x4f727068 && t.phase == .bld) = true := by
  decide
theorem test_uBld :
    nextWith (exec .uBld { ready with chunk := 2, ctext := #v[1#32, 2, 3, 4, 5, 6] })
      (fun t => t.l == 5 && t.r == 6 && t.rnd == 1 && t.phase == .round) = true := by decide
theorem test_uBst :
    nextWith (exec .uBst { ready with chunk := 2, pass := 63, busy := true, op := .crypt, phase := .bst, l := 8, r := 9 })
      (fun t => t.ctext[4] == 8 && t.ctext[5] == 9 && readValue t 0x008 == 0x00060006) = true := by decide
/-- 44_host_commands.md R125: `Finish` at the edge of a write that clears `DONE` wins. -/
theorem test_finish_wins :
    nextWith (step { lastRound with inputs := [writes 0x008 0xffffffff], sbox := blank.sbox }) (fun t => t.done && !t.busy) = true := by decide +kernel

/-! ## Witnesses: for each statement with hypotheses, a state and operands that meet them, at the ends of their ranges -/

/-- A running core in the given phase, with legal operands. -/
def running (ph : Phase) : State := selectPhase ph ready

theorem witness_ResetCycleGivesResetState :
    ∃ (inp : PortIn) (rest : List PortIn),
      ({ ready with inputs := [⟨true, true, true, 0x004, 6⟩, portIdle] } : State).inputs = inp :: rest ∧ inp.rst = true :=
  ⟨_, _, rfl, rfl⟩

theorem witness_RegisterMapIsExact :
    (∀ a ∈ [0x001, 0x002, 0x018, 0x01C, 0x038, 0x03C, 0x058, 0x07C, 0x0C8, 0x3FC],
      reservedOrMisaligned (BitVec.ofNat 10 a))
      ∧ ∀ a ∈ [0x000, 0x014, 0x020, 0x02C, 0x030, 0x034, 0x040, 0x054, 0x080, 0x0C4],
        ¬ reservedOrMisaligned (BitVec.ofNat 10 a) := by
  unfold reservedOrMisaligned
  decide

theorem witness_ReadReturnsMappedValue :
    (0x020#10).toNat = 0x020 + 4 * (0 : Fin 4).val ∧ (0x02C#10).toNat = 0x020 + 4 * (3 : Fin 4).val
      ∧ (0x040#10).toNat = 0x040 + 4 * (0 : Fin 6).val ∧ (0x054#10).toNat = 0x040 + 4 * (5 : Fin 6).val
      ∧ (0x080#10).toNat = 0x080 + 4 * (0 : Fin 18).val ∧ (0x0C4#10).toNat = 0x080 + 4 * (17 : Fin 18).val := by
  decide

theorem witness_ReadChangesAtMostEAddr :
    reservedOrMisaligned 0x0C8 ∧ ¬ reservedOrMisaligned 0x0C4 ∧ ¬ reservedOrMisaligned 0x054 ∧ (running .bst).busy = true := by
  unfold reservedOrMisaligned
  decide

theorem witness_WriteEffectByRegister_addr :
    reservedOrMisaligned 0x3FF ∧ (∃ i : Fin 6, (0x040#10).toNat = 0x040 + 4 * i.val)
      ∧ ∃ i : Fin 6, (0x054#10).toNat = 0x040 + 4 * i.val := by
  unfold reservedOrMisaligned
  decide

theorem witness_WriteEffectByRegister_busy :
    (∀ a ∈ [0x010, 0x014, 0x020, 0x02C, 0x030, 0x034, 0x080, 0x0C4], operandAddress (BitVec.ofNat 10 a))
      ∧ (running .round).busy = true := by
  unfold operandAddress
  decide

theorem witness_WriteEffectByRegister_idle :
    ready.busy = false ∧ (0x02C#10).toNat = 0x020 + 4 * (3 : Fin 4).val
      ∧ (0x0C4#10).toNat = 0x080 + 4 * (17 : Fin 18).val := by decide

theorem witness_IllegalCommandWordRaisesEOp :
    8 ≤ ((8#32).extractLsb' 0 4).toNat ∧ (0x16#32).extractLsb' 4 28 ≠ 0#28 ∧ (0x80000006#32).extractLsb' 4 28 ≠ 0#28 := by
  decide

theorem witness_AcceptanceOfCommands_high :
    ({ ready with cost := 31 } : State).busy = false ∧ ({ ready with cost := 31 } : State).psv = true
      ∧ 1 ≤ ({ ready with cost := 31 } : State).keylen.toNat ∧ ({ ready with cost := 31 } : State).keylen.toNat ≤ 72
      ∧ 4 ≤ ({ ready with cost := 31 } : State).cost.toNat ∧ ({ ready with cost := 31 } : State).cost.toNat ≤ 31 := by
  decide

theorem witness_AcceptanceOfCommands_low :
    ({ ready with keylen := 1 } : State).busy = false ∧ ({ ready with keylen := 1 } : State).psv = true
      ∧ 1 ≤ ({ ready with keylen := 1 } : State).keylen.toNat ∧ ({ ready with keylen := 1 } : State).keylen.toNat ≤ 72
      ∧ 4 ≤ ({ ready with keylen := 1 } : State).cost.toNat ∧ ({ ready with keylen := 1 } : State).cost.toNat ≤ 31 := by
  decide

theorem witness_BusyCoreRefusesAccesses :
    (running .xorp).busy = true
      ∧ (Instr.crypt = .init ∨ Instr.crypt = .encipher ∨ Instr.crypt = .keyPw ∨ Instr.crypt = .keySalt
        ∨ Instr.crypt = .ekskey ∨ Instr.crypt = .crypt)
      ∧ operandAddress 0x010 ∧ operandAddress 0x0C4 ∧ ∃ w, Instr.wr 0x008 0x200 = .wr 0x008#10 w := by
  refine ⟨by decide, by decide, ?_, ?_, _, rfl⟩ <;> (unfold operandAddress; decide)

/-- Nothing legal; no schedule but a key; a schedule but no key; the cost just outside. -/
theorem witness_PreconditionsRaiseTheirFlags :
    (blank.busy = false ∧ blank.psv = false ∧ ¬ (1 ≤ blank.keylen.toNat ∧ blank.keylen.toNat ≤ 72)
      ∧ ¬ (4 ≤ blank.cost.toNat ∧ blank.cost.toNat ≤ 31))
    ∧ (({ ready with psv := false } : State).psv = false ∧ 1 ≤ ready.keylen.toNat ∧ ready.keylen.toNat ≤ 72)
    ∧ (({ ready with keylen := 73 } : State).psv = true
      ∧ ¬ (1 ≤ ({ ready with keylen := 73 } : State).keylen.toNat ∧ ({ ready with keylen := 73 } : State).keylen.toNat ≤ 72)
      ∧ 4 ≤ ready.cost.toNat ∧ ready.cost.toNat ≤ 31)
    ∧ ¬ (4 ≤ ({ ready with cost := 3 } : State).cost.toNat ∧ ({ ready with cost := 3 } : State).cost.toNat ≤ 31)
    ∧ ¬ (4 ≤ ({ ready with cost := 32 } : State).cost.toNat ∧ ({ ready with cost := 32 } : State).cost.toNat ≤ 31) := by
  decide

theorem witness_CountersOutOfRangeStop :
    1042 ≤ ({ ready with widx := 1042 } : State).widx.toNat ∧ 1041 ≤ ({ ready with widx := 1041 } : State).widx.toNat
      ∧ 18 ≤ ({ ready with widx := 18 } : State).widx.toNat
      ∧ (({ blank with widx := 17 } : State).widx.toNat ≤ 17 ∧ blank.sched ≠ .ksalt
        ∧ ¬ (1 ≤ blank.keylen.toNat ∧ blank.keylen.toNat ≤ 72))
      ∧ ready.rnd.toNat = 0 ∧ 17 ≤ ({ ready with rnd := 17 } : State).rnd.toNat
      ∧ ({ ready with chunk := 3 } : State).chunk.toNat = 3 := by
  decide

theorem witness_UInitCopiesOneWord :
    (running .init).widx.toNat ≤ 1041 ∧ (running .init).widx.toNat < 1041
      ∧ ({ running .init with widx := 1041 } : State).widx.toNat = 1041 ∧ (running .init).op = .init
      ∧ ({ running .init with op := .crypt } : State).op = .crypt := by
  decide

theorem witness_UXorpMixesOneWord :
    (∃ st : State, st.widx.toNat = 17 ∧ st.sched = .ksalt)
      ∧ (∃ st : State, st.widx.toNat = 17 ∧ st.sched = .kpw ∧ 1 ≤ st.keylen.toNat ∧ st.keylen.toNat ≤ 72)
      ∧ ∃ st : State, st.widx.toNat < 17 ∧ st.sched = .eks ∧ 1 ≤ st.keylen.toNat ∧ st.keylen.toNat ≤ 72 :=
  ⟨⟨{ running .xorp with widx := 17 }, by decide⟩, ⟨{ running .xorp with widx := 17, sched := .kpw }, by decide⟩,
    ⟨{ running .xorp with widx := 16, sched := .eks, keylen := 1 }, by decide⟩⟩

theorem witness_URoundPerformsOneRound :
    ((1 : Fin 18).val = (running .round).rnd.toNat)
      ∧ (∃ st : State, (16 : Fin 18).val = st.rnd.toNat ∧ st.sched ≠ .none)
      ∧ (∃ st : State, (16 : Fin 18).val = st.rnd.toNat ∧ st.sched = .none ∧ st.op = .encipher)
      ∧ ∃ st : State, (16 : Fin 18).val = st.rnd.toNat ∧ st.sched = .none ∧ st.op = .crypt :=
  ⟨by decide, ⟨{ running .st0 with rnd := 16 }, by decide⟩, ⟨{ running .round with rnd := 16 }, by decide⟩,
    ⟨{ running .bst with rnd := 16 }, by decide⟩⟩

theorem witness_USt0StoresFirstWord :
    (running .st0).widx.toNat ≤ 1040 ∧ ({ running .st0 with widx := 1040 } : State).widx.toNat ≤ 1040 := by decide

theorem witness_USt1StoresSecondWord :
    (running .st1).widx.toNat < 1040
      ∧ (∃ st : State, st.widx.toNat = 1040 ∧ (st.op = .keyPw ∨ st.op = .keySalt ∨ st.op = .ekskey))
      ∧ (∃ st : State, st.widx.toNat = 1040 ∧ st.op = .crypt ∧ st.sched = .eks)
      ∧ (∃ st : State, st.widx.toNat = 1040 ∧ st.op = .crypt ∧ st.sched = .kpw)
      ∧ (∃ st : State, st.widx.toNat = 1040 ∧ st.op = .crypt ∧ st.sched = .ksalt ∧ st.iter = 1)
      ∧ ∃ st : State, st.widx.toNat = 1040 ∧ st.op = .crypt ∧ st.sched = .ksalt ∧ st.iter ≠ 1 :=
  ⟨by decide, ⟨{ running .st1 with widx := 1040 }, by decide⟩,
    ⟨{ running .st1 with widx := 1040, op := .crypt, sched := .eks }, by decide⟩,
    ⟨{ running .st1 with widx := 1040, op := .crypt, sched := .kpw }, by decide⟩,
    ⟨{ running .st1 with widx := 1040, op := .crypt, iter := 1 }, by decide⟩,
    ⟨{ running .st1 with widx := 1040, op := .crypt, iter := 2 }, by decide⟩⟩

theorem witness_UBldLoadsChunk : (2 : Fin 3).val = ({ running .bld with chunk := 2 } : State).chunk.toNat := by decide

theorem witness_UBstStoresChunk :
    (running .bst).chunk.toNat < 2 ∧ (∃ st : State, st.chunk.toNat = 2 ∧ st.pass.toNat < 63)
      ∧ ∃ st : State, st.chunk.toNat = 2 ∧ st.pass.toNat = 63 :=
  ⟨by decide, ⟨{ running .bst with chunk := 2, pass := 62 }, by decide⟩,
    ⟨{ running .bst with chunk := 2, pass := 63 }, by decide⟩⟩

theorem witness_FeistelFunctionFormula :
    (255 : Fin 256).val = (0xff00807f#32).toNat / 2 ^ 24 ∧ (0 : Fin 256).val = (0xff00807f#32).toNat / 2 ^ 16 % 256
      ∧ (128 : Fin 256).val = (0xff00807f#32).toNat / 2 ^ 8 % 256 ∧ (127 : Fin 256).val = (0xff00807f#32).toNat % 256 := by
  decide

theorem witness_RoundStepCases :
    (1 : Fin 18).val = 1 ∧ ((15 : Fin 18).val % 2 = 1 ∧ 3 ≤ (15 : Fin 18).val ∧ (15 : Fin 18).val ≤ 15)
      ∧ ((2 : Fin 18).val % 2 = 0 ∧ 2 ≤ (2 : Fin 18).val ∧ (2 : Fin 18).val ≤ 14) ∧ (16 : Fin 18).val = 16 := by decide

theorem witness_EncipherIsBijective : 1 ≤ (16 : Fin 18).val ∧ (16 : Fin 18).val ≤ 16 := by decide

theorem witness_EncipherWithZeroSBoxes : ∀ (b : Fin 4) (j : Fin 256), blank.schedule.sbox[b][j] = 0 := by
  intro b j
  simp [blank, State.schedule]

/-- A string of one byte, at an offset beyond it. -/
theorem witness_StreamWordIsCyclic :
    ∃ (b : List Byte) (i : Fin b.length), i.val = 5 % b.length ∧ i.val = (5 + 1) % b.length
      ∧ i.val = (5 + 2) % b.length ∧ i.val = (5 + 3) % b.length :=
  ⟨[0x61], 0, by decide⟩

theorem witness_SeventyTwoBytesSuffice : 72 < (List.replicate 73 (0x61 : Byte)).length ∧ 17 < 18 := by decide

theorem witness_StepRunsTheDecodedInstruction_host :
    ∃ (i : Instr) (w : BitVec 43) (st : State), i.wellFormed ∧ accessWord i = some w
      ∧ st.inputs = portOfAccess w :: [] ∧ st.busy = false :=
  ⟨.crypt, 0x40400000006, { ready with inputs := [writes 0x004 6] }, by decide, by decide, by decide, by decide⟩

theorem witness_StepRunsTheDecodedInstruction_engine :
    (currentPorts (running .bst)).rst = false ∧ (currentPorts (running .bst)).sel = false
      ∧ (running .bst).busy = true ∧ decode (.uop (phaseCode (running .bst).phase)) = .ok .uBst := by
  refine ⟨by decide, by decide, by decide, rfl⟩

/-- A read with a datum on `wdata`. -/
theorem witness_StepRunsTheDecodedInstruction_read :
    ∃ st : State, (currentPorts st).rst = false ∧ (currentPorts st).sel = true ∧ (currentPorts st).wr = false
      ∧ (currentPorts st).wdata = 0xffffffff ∧ st.busy = false :=
  ⟨{ ready with inputs := [⟨false, true, false, 0x008, 0xffffffff⟩] }, by decide⟩

/-- A quiet cycle in which `wr` is high all the same, and one after the host's list is exhausted. -/
theorem witness_StepRunsTheDecodedInstruction_quiet :
    (∃ st : State, (currentPorts st).rst = false ∧ (currentPorts st).sel = false ∧ st.busy = false
        ∧ (currentPorts st).wr = true)
      ∧ (currentPorts ready).rst = false ∧ (currentPorts ready).sel = false ∧ ready.busy = false :=
  ⟨⟨{ ready with inputs := [⟨false, false, true, 0x010, 5⟩] }, by decide⟩, by decide⟩

theorem witness_StepIsSimultaneous :
    ∃ (st te th : State) (h : Instr), st.busy = true ∧ (currentPorts st).rst = false
      ∧ fetchHost (currentPorts st) = some h ∧ h ≠ .abort
      ∧ exec h (beginCycle st) = .next th ∧ exec (phaseInstr st.phase) (beginCycle st) = .next te :=
  ⟨{ running .cload with inputs := [writes 0x010 5] }, _, _, .wr 0x010 5, by decide, by decide, by decide, by decide,
    rfl, rfl⟩

theorem witness_AbortSuppressesTheEngine :
    (currentPorts { running .round with inputs := [writes 0x004 7] }).rst = false
      ∧ abortNow (currentPorts { running .round with inputs := [writes 0x004 7] }) := by
  unfold abortNow
  decide

theorem witness_IrqIsEnabledDone : ∃ st t : State, step st = .next t ∧ (st.ien && st.done) = true :=
  ⟨{ ready with ien := true, done := true }, _, rfl, rfl⟩

theorem witness_ErrorFlagsAreSticky :
    ∃ st t : State, (currentPorts st).rst = false ∧ step st = .next t ∧ st.eAddr = true ∧ t.eAddr = false :=
  ⟨{ ready with eAddr := true, inputs := [writes 0x008 0x2000] }, _, by decide, rfl, by decide⟩

theorem witness_OperandsAreFrozenWhileBusy :
    ∃ st t : State, st.busy = true ∧ (currentPorts st).rst = false ∧ step st = .next t :=
  ⟨{ running .cload with inputs := [writes 0x010 5] }, _, by decide, by decide, rfl⟩

theorem witness_HostCannotReachTheSchedule :
    ∃ st t : State, st.busy = false ∧ step st = .next t ∧ t.psv = true :=
  ⟨{ ready with inputs := [writes 0x080 5] }, _, by decide, rfl, by decide⟩

theorem witness_InvariantRunning :
    SeqInv (running .init) ∧ SeqInv (running .xorp) ∧ SeqInv (running .salt) ∧ SeqInv (running .round) ∧ SeqInv (running .st0)
      ∧ SeqInv (running .st1) ∧ SeqInv (running .cload) ∧ SeqInv (running .bld) ∧ SeqInv (running .bst) := by
  simp [SeqInv, PhaseInv, OperandInv, inRun, inPasses, runsKind, pairIndex, saltIndexOk, running, selectPhase, startSched,
    startEncipher, ready]

theorem witness_StepIsTotalAndKeepsInvariant : SeqInv (running .bst) := witness_InvariantRunning.2.2.2.2.2.2.2.2

theorem witness_OnlyCryptAndAbortChangeCtext :
    ∃ st t : State, SeqInv st ∧ undisturbed (currentPorts st) ∧ ¬ (st.busy = true ∧ st.op = .crypt) ∧ step st = .next t :=
  ⟨running .salt, _, witness_InvariantRunning.2.2.1, by unfold undisturbed abortNow; decide, by decide, rfl⟩

theorem witness_PhaseFollowsTheTable :
    ∃ st t : State, SeqInv st ∧ st.busy = true ∧ undisturbed (currentPorts st) ∧ step st = .next t :=
  ⟨running .bld, _, witness_InvariantRunning.2.2.2.2.2.2.2.1, by decide, by unfold undisturbed abortNow; decide, rfl⟩

theorem witness_ReadsHideSecrets :
    HostAgree (running .round) { running .round with key := Vector.replicate 18 1, l := 7, p := pOrig } := by
  simp [HostAgree, running, selectPhase]

theorem witness_UnspecifiedTablesAreUnobservable :
    ∃ s t s' : State, SeqInv s ∧ AgreeButUnspecified s t ∧ step s = .next s' ∧ s.phase = .init ∧ t.p ≠ s.p :=
  ⟨running .init, { running .init with p := Vector.replicate 18 1 }, _, witness_InvariantRunning.1,
    by simp [AgreeButUnspecified, running, selectPhase, agreeBelow], rfl, by decide, by decide⟩

theorem witness_TimingIsIndependentOfData :
    ∃ s t s' : State, TimingAgree s t ∧ step s = .next s' ∧ t.keylen ≠ s.keylen ∧ t.salt ≠ s.salt :=
  ⟨running .salt, { running .salt with keylen := 1, salt := salt1 }, _,
    ⟨rfl, rfl, rfl, rfl, rfl, rfl, rfl, rfl, rfl, rfl, rfl, rfl, by decide, .nil⟩, rfl, by decide, by decide⟩

theorem witness_HostActivityDoesNotDisturbRun :
    ∃ s t s' : State, EngineAgree s t ∧ s.busy = true ∧ undisturbed (currentPorts s) ∧ undisturbed (currentPorts t)
      ∧ step s = .next s' ∧ t.inputs ≠ s.inputs :=
  ⟨running .salt, { running .salt with inputs := [writes 0x004 6] }, _, rfl, by decide,
    by unfold undisturbed abortNow; decide, by unfold undisturbed abortNow; decide, rfl, by decide⟩

/-- The hypotheses of the six command runs, at both ends of the operands' ranges, with a host that reads meanwhile. -/
theorem witness_CommandRuns :
    ∀ n : Nat, ∀ st ∈ [{ ready with inputs := [reads 0x008], keylen := 1, cost := 31 }, { ready with inputs := [reads 0x008] }],
      st.busy = false ∧ st.psv = true ∧ 1 ≤ st.keylen.toNat ∧ st.keylen.toNat ≤ 72 ∧ 4 ≤ st.cost.toNat
        ∧ st.cost.toNat ≤ 31 ∧ undisturbedFor n st := by
  intro n st h
  have hu : undisturbed (reads 0x008) := by unfold undisturbed abortNow; decide
  have hr : ∀ inp ∈ [reads 0x008].take n, undisturbed inp := fun inp hi => by
    rw [List.mem_singleton.mp (List.mem_of_mem_take hi)]; exact hu
  simp only [List.mem_cons, List.not_mem_nil, or_false] at h
  obtain rfl | rfl := h
  · exact ⟨rfl, rfl, by decide, by decide, by decide, by decide, hr⟩
  · exact ⟨rfl, rfl, by decide, by decide, by decide, by decide, hr⟩

theorem witness_DecodeOfEncode : decode (.cmd 7) = .ok .abort ∧ decode (.uop 9) = .ok .uBst := ⟨rfl, rfl⟩

theorem witness_FetchOfPresentedInstruction :
    ((Instr.wr 0x004 8).wellFormed ∧ accessWord (.wr 0x004 8) = some 0x40400000008)
      ∧ (∃ inp : PortIn, inp.sel = true ∧ inp.wr = false ∧ inp.addr = 0x004 ∧ inp.wdata = 6)
      ∧ portIdle.sel = false :=
  ⟨by decide, ⟨⟨false, true, false, 0x004, 6⟩, by decide⟩, by decide⟩

end Sys2Proof.Tests.Slice0
end

