-- ==== Sys2Proof/Proofs/Reset.lean ====
section
/-! PROOFS. The state after reset (10_state.md R27). The bus read of a register at its own address and the value of
`STATUS` in a quiet core are stated for every state, for use beyond reset. -/

namespace Sys2Proof.Machine

/-! ## What a read returns -/

/-- 44_host_commands.md R111: a read at a register's own address returns that register. -/
@[simp] theorem readValue_regAddr (st : State) (reg : Reg) : readValue st (regAddr reg) = readReg st reg := by
  simp only [readValue, regAt_regAddr]

theorem readValue_status (st : State) : readValue st 0x008#10 = statusWord st := readValue_regAddr st .status

/-- 10_state.md R20: `STATUS` is 0 in an idle core without command code, `DONE`, `PSV` and error flags, whatever
`phase` holds. -/
theorem statusWord_eq_zero {st : State} (hop : st.op = .none) (hbusy : st.busy = false) (hdone : st.done = false)
    (hpsv : st.psv = false) (heOp : st.eOp = false) (heBusy : st.eBusy = false) (heCost : st.eCost = false)
    (heKeylen : st.eKeylen = false) (heSeq : st.eSeq = false) (heAddr : st.eAddr = false) : statusWord st = 0 := by
  simp only [statusWord, hop, hbusy, hdone, hpsv, heOp, heBusy, heCost, heKeylen, heSeq, heAddr, Bool.false_eq_true,
    if_false]
  decide

/-! ## The registers of several words after reset -/

theorem reset_ctext (i : Fin 6) : State.reset.ctext[i] = 0 := Vector.getElem_replicate i.isLt

theorem reset_key (i : Fin 18) : State.reset.key[i] = 0 := Vector.getElem_replicate i.isLt

theorem reset_salt (i : Fin 4) : State.reset.salt[i] = 0 := Vector.getElem_replicate i.isLt

/-- `STATUS` reads 0 after reset (10_state.md R27). -/
theorem readValue_status_reset : readValue State.reset 0x008#10 = 0 :=
  (readValue_status _).trans (statusWord_eq_zero rfl rfl rfl rfl rfl rfl rfl rfl rfl rfl)

/-- Settles O1: the single-word elements are the literals of `State.reset`, the arrays hold 0 at every index, and
`STATUS` is composed of elements that are 0. -/
theorem resetStateValues : Obligations.ResetStateValues := by
  unfold Obligations.ResetStateValues
  exact ⟨rfl, rfl, -- `L`, `R`
    reset_ctext, reset_key, reset_salt, rfl, rfl, -- `CTEXT`, `KEY`, `SALT`, `COST`, `KEYLEN`
    rfl, rfl, rfl, rfl, -- `IEN`, `BUSY`, `DONE`, `PSV`
    rfl, rfl, rfl, rfl, rfl, rfl, -- the error flags
    rfl, rfl, rfl, -- `op`, `phase`, `sched`
    rfl, rfl, rfl, rfl, rfl, rfl, rfl, -- the counters
    readValue_status_reset⟩

end Sys2Proof.Machine
end

