-- ==== Sys2Proof/Proofs/WordStream.lean ====
section
/-! PROOFS. The word stream (40_wordstream.md R65): `StreamWord` depends on its offset modulo the length only. -/

namespace Sys2Proof.Machine

/-- 40_wordstream.md R66: offsets that agree modulo the length give the same word, since each of the four indices is
reduced modulo the length. -/
theorem streamWord_congr {b : List Byte} {off off' : Nat} (h : off % b.length = off' % b.length) :
    streamWord b off = streamWord b off' := by
  have hadd (k : Nat) : (off + k) % b.length = (off' + k) % b.length := Nat.add_mod_eq_add_mod_right k h
  simp only [streamWord, h, hadd]

/-- 40_wordstream.md R66: a key offset kept reduced modulo the length reads the same word. -/
theorem streamWord_mod_length (b : List Byte) (off : Nat) : streamWord b (off % b.length) = streamWord b off :=
  streamWord_congr (Nat.mod_mod off b.length)

/-- Settles O31: `streamWord_eq` gives the bytes at the four reduced indices (the string is not empty, since it has an
index), and `streamWord_mod_length` the reduced offset. -/
theorem streamWordIsCyclic : Obligations.StreamWordIsCyclic := by
  unfold Obligations.StreamWordIsCyclic
  intro b off i0 i1 i2 i3 h0 h1 h2 h3
  have hpos : 0 < b.length := i0.pos
  refine ⟨?_, streamWord_mod_length b off⟩
  rw [streamWord_eq b off hpos]
  simp only [packBytes, Fin.getElem_fin, h0, h1, h2, h3]

end Sys2Proof.Machine
end

