-- ==== Sys2Proof/Proofs/Feistel.lean ====
section
/-! PROOFS. The function `F` and the round step (41_feistel.md R70, R72). The value of a byte of a word and the
equation of each case of `roundStep` are stated for use beyond these two. -/

namespace Sys2Proof.Machine

/-! ## The function `F` -/

/-- 41_feistel.md R71 (c): a byte of a word is a logical shift right and a mask. -/
theorem byteOf_toNat (w : Word) (n : Fin 4) : (byteOf w n).toNat = w.toNat / 2 ^ (24 - 8 * n.val) % 256 := by
  simp only [byteOf, BitVec.extractLsb'_toNat, Nat.shiftRight_eq_div_pow, Nat.reducePow]

/-- A bank is read at the value of the byte that addresses it. -/
theorem bankRead_of_toNat_eq (bank : SBank) {i : BitVec 8} {j : Fin 256} (h : j.val = i.toNat) :
    bankRead bank i = bank[j] := by
  simp only [bankRead, Fin.getElem_fin, h]

/-- Settles O25: each of the four indices is the value of one byte of `x`; the topmost needs no mask, since `x` has 32
bits. -/
theorem feistelFunctionFormula : Obligations.FeistelFunctionFormula := by
  unfold Obligations.FeistelFunctionFormula
  intro x s a b c d ha hb hc hd
  have h0 : a.val = (byteOf x 0).toNat := by
    have htop : x.toNat / 2 ^ 24 < 256 := by omega
    rw [ha, byteOf_toNat]
    exact (Nat.mod_eq_of_lt htop).symm
  have h1 : b.val = (byteOf x 1).toNat := hb.trans (byteOf_toNat x 1).symm
  have h2 : c.val = (byteOf x 2).toNat := hc.trans (byteOf_toNat x 2).symm
  have h3 : d.val = (byteOf x 3).toNat := by
    rw [hd, byteOf_toNat]
    simp
  rw [feistelF, bankRead_of_toNat_eq _ h0, bankRead_of_toNat_eq _ h1, bankRead_of_toNat_eq _ h2,
    bankRead_of_toNat_eq _ h3]

/-! ## The round step, case by case -/

section
variable {rnd : Fin 18} (b : Block) (ps : Schedule)

/-- 41_feistel.md R72: round 1, with the input whitening. -/
theorem roundStep_first (h : rnd.val = 1) : roundStep rnd b ps =
    ⟨b.l ^^^ ps.p[0], b.r ^^^ feistelF (b.l ^^^ ps.p[0]) ps.sbox ^^^ ps.p[1]⟩ := by
  rw [roundStep, if_pos h]

/-- 41_feistel.md R72: an odd round other than the first changes the right half. -/
theorem roundStep_odd (hodd : rnd.val % 2 = 1) (h1 : rnd.val ≠ 1) : roundStep rnd b ps =
    ⟨b.l, b.r ^^^ feistelF b.l ps.sbox ^^^ ps.p[rnd]⟩ := by
  have h16 : rnd.val ≠ 16 := by omega
  rw [roundStep, if_neg h1, if_neg h16, if_pos hodd, Fin.getElem_fin]

/-- 41_feistel.md R72: an even round other than the last changes the left half. -/
theorem roundStep_even (heven : rnd.val % 2 = 0) (h16 : rnd.val ≠ 16) : roundStep rnd b ps =
    ⟨b.l ^^^ feistelF b.r ps.sbox ^^^ ps.p[rnd], b.r⟩ := by
  have h1 : rnd.val ≠ 1 := by omega
  have hodd : rnd.val % 2 ≠ 1 := by omega
  rw [roundStep, if_neg h1, if_neg h16, if_neg hodd, Fin.getElem_fin]

/-- 41_feistel.md R72: round 16, with the output whitening and the exchange. -/
theorem roundStep_last (h : rnd.val = 16) : roundStep rnd b ps =
    ⟨b.r ^^^ ps.p[17], b.l ^^^ feistelF b.r ps.sbox ^^^ ps.p[16]⟩ := by
  have h1 : rnd.val ≠ 1 := by omega
  rw [roundStep, if_neg h1, if_pos h]

end

/-- Settles O26: the four equations of `roundStep`; an odd round from 3 on is not the first, an even one up to 14 not
the last. -/
theorem roundStepCases : Obligations.RoundStepCases := by
  unfold Obligations.RoundStepCases
  intro rnd b ps
  refine ⟨roundStep_first b ps, ?odd, ?even, roundStep_last b ps⟩
  case odd =>
    intro hodd hge _
    exact roundStep_odd b ps hodd (by omega)
  case even =>
    intro heven _ hle
    exact roundStep_even b ps heven (by omega)

end Sys2Proof.Machine
end

