-- ==== Sys2Proof/Proofs/KeySchedule.lean ====
section
/-! PROOFS. The first store of a block of the key schedule (42_keyschedule.md R84). The frame of a store to `PS` is
stated for use beyond it. -/

namespace Sys2Proof.Machine

/-- A store to `PS` changes no element other than `P` and `S` (10_state.md R12). -/
theorem storeWord_frame (k : Fin 1042) (v : Word) (st : State) :
    storeWord k v st = { st with p := (storeWord k v st).p, sbox := (storeWord k v st).sbox } := rfl

/-- 42_keyschedule.md R84 on the instruction: `U_ST0` at an index of `PS` is a store of `L` there and the move to
`PH_ST1`. -/
theorem exec_uSt0 (st : State) (k : Fin 1042) (h : st.widx.toNat = k.val) :
    exec .uSt0 st = .next { storeWord k st.l st with phase := .st1 } :=
  execUSt0_eq st k h

/-- Settles O20: `exec_uSt0` names the next state, `psRead_storeWord` reads every word of its schedule, and by
`storeWord_frame` nothing else but the phase differs. -/
theorem uSt0StoresFirstWord : Obligations.USt0StoresFirstWord := by
  unfold Obligations.USt0StoresFirstWord
  intro st hw
  obtain ⟨k, hk⟩ : ∃ k : Fin 1042, st.widx.toNat = k.val := ⟨⟨st.widx.toNat, by omega⟩, rfl⟩
  rw [hk]
  have frame := congrArg (fun t : State => { t with phase := .st1 }) (storeWord_frame k st.l st)
  exact ⟨{ storeWord k st.l st with phase := .st1 }, exec_uSt0 st k hk, fun j => psRead_storeWord k j st.l st, frame⟩

end Sys2Proof.Machine
end

