-- ==== Sys2Proof/Proofs/CostLoop.lean ====
section
/-! PROOFS. The load of a chunk into the block (43_costloop.md R99). -/

namespace Sys2Proof.Machine

/-- 43_costloop.md R99: at a chunk of `CTEXT`, the load takes its guarded branch, with the words at the chunk's pair
of indices. -/
theorem execUBld_eq (st : State) (c : Fin 3) (h : st.chunk.toNat = c.val) :
    execUBld st = .next { st with
      l := st.ctext[2 * c.val], r := st.ctext[2 * c.val + 1], rnd := 1, phase := .round } := by
  have hlt : st.chunk.toNat < 3 := by omega
  rw [execUBld, dif_pos hlt]
  simp only [h]

/-- Settles O23: `U_BLD` runs `execUBld`, whose next state `execUBld_eq` names in full. -/
theorem uBldLoadsChunk : Obligations.UBldLoadsChunk := by
  unfold Obligations.UBldLoadsChunk
  intro st c hc
  exact execUBld_eq st c hc.symm

end Sys2Proof.Machine
end

