-- ==== Sys2Proof/Proofs/HostCommands.lean ====
section
/-! PROOFS. Bus reads, and the two operations without effect (44_host_commands.md R111, R112, R116). Which addresses
have a register, what a read returns by address, and the next state of a read are stated for use beyond the reads. -/

namespace Sys2Proof.Machine

/-! ## Addresses -/

/-- 20_memory.md R36, R39: an address has no register exactly when it is misaligned or reserved. -/
theorem regAt_eq_none_iff (addr : BitVec 10) : regAt addr = none ↔ reservedOrMisaligned addr := by
  unfold reservedOrMisaligned
  fun_cases regAt addr <;> simp only [reduceCtorEq, false_iff, true_iff] <;> omega

theorem exists_regAt_of_mapped {addr : BitVec 10} (h : ¬ reservedOrMisaligned addr) : ∃ reg, regAt addr = some reg :=
  Option.ne_none_iff_exists'.mp (mt (regAt_eq_none_iff addr).mp h)

theorem aligned_of_mapped {addr : BitVec 10} (h : ¬ reservedOrMisaligned addr) : addr.toNat % 4 = 0 :=
  not_not.mp fun hmis => h (.inl hmis)

/-- An aligned address within a block of `n` registers, the first of them at `base`, is that of one of them. -/
theorem exists_index_of_aligned {a base n : Nat} (ha : a % 4 = 0) (hbase : base % 4 = 0) (hle : base ≤ a)
    (hlt : a < base + 4 * n) : ∃ i : Fin n, a = base + 4 * i.val :=
  ⟨⟨(a - base) / 4, by omega⟩, by dsimp only; omega⟩

/-! ## What a read returns, by address -/

/-- `readValue_regAddr`, for an address known by its number. -/
theorem readValue_of_toNat {addr : BitVec 10} {n : Nat} (st : State) (reg : Reg) (haddr : addr.toNat = n)
    (hreg : regAddr reg = BitVec.ofNat 10 n) : readValue st addr = readReg st reg := by
  obtain ⟨-, rfl⟩ := BitVec.toNat_eq_nat.mp haddr
  rw [← hreg, readValue_regAddr]

theorem readValue_ctrl {addr : BitVec 10} (st : State) (h : addr.toNat = 0x004) : readValue st addr = 0 :=
  readValue_of_toNat st .ctrl h rfl

theorem readValue_ien (st : State) : readValue st 0x00C#10 = 0#31 ++ BitVec.ofBool st.ien := by
  have hread : readValue st 0x00C#10 = BitVec.setWidth 32 (BitVec.ofBool st.ien) := readValue_regAddr st .ien
  rw [hread]
  cases st.ien <;> rfl

theorem readValue_salt {addr : BitVec 10} (st : State) (i : Fin 4) (h : addr.toNat = 0x020 + 4 * i.val) :
    readValue st addr = st.salt[i] :=
  readValue_of_toNat st (.salt i) h rfl

theorem readValue_lr0 {addr : BitVec 10} (st : State) (h : addr.toNat = 0x030) :
    readValue st addr = hiddenWhileBusy st st.l :=
  readValue_of_toNat st .lr0 h rfl

theorem readValue_lr1 {addr : BitVec 10} (st : State) (h : addr.toNat = 0x034) :
    readValue st addr = hiddenWhileBusy st st.r :=
  readValue_of_toNat st .lr1 h rfl

theorem readValue_ctext {addr : BitVec 10} (st : State) (i : Fin 6) (h : addr.toNat = 0x040 + 4 * i.val) :
    readValue st addr = hiddenWhileBusy st st.ctext[i] :=
  readValue_of_toNat st (.ctext i) h rfl

theorem readValue_key {addr : BitVec 10} (st : State) (i : Fin 18) (h : addr.toNat = 0x080 + 4 * i.val) :
    readValue st addr = 0 :=
  readValue_of_toNat st (.key i) h rfl

theorem readValue_unmapped {addr : BitVec 10} (st : State) (h : reservedOrMisaligned addr) : readValue st addr = 0 := by
  rw [readValue, (regAt_eq_none_iff addr).mpr h]

/-! ## Reads that return 0 from a mapped address (44_host_commands.md R112) -/

theorem hiddenWhileBusy_busy {st : State} (w : Word) (h : st.busy = true) : hiddenWhileBusy st w = 0 := if_pos h

/-- The write-only registers `CTRL` and `KEYi` read as 0. -/
theorem readValue_writeOnly {addr : BitVec 10} (st : State) (hal : addr.toNat % 4 = 0)
    (h : addr.toNat = 0x004 ∨ (0x080 ≤ addr.toNat ∧ addr.toNat ≤ 0x0C4)) : readValue st addr = 0 := by
  obtain hctrl | ⟨hle, hge⟩ := h
  · exact readValue_ctrl st hctrl
  · obtain ⟨i, hi⟩ := exists_index_of_aligned (n := 18) hal rfl hle (by omega)
    exact readValue_key st i hi

/-- `LR0`, `LR1` and `CTEXTi` read as 0 while a command runs. -/
theorem readValue_hidden {addr : BitVec 10} {st : State} (hbusy : st.busy = true) (hal : addr.toNat % 4 = 0)
    (h : addr.toNat = 0x030 ∨ addr.toNat = 0x034 ∨ (0x040 ≤ addr.toNat ∧ addr.toNat ≤ 0x054)) :
    readValue st addr = 0 := by
  obtain hlr0 | hlr1 | ⟨hle, hge⟩ := h
  · exact (readValue_lr0 st hlr0).trans (hiddenWhileBusy_busy _ hbusy)
  · exact (readValue_lr1 st hlr1).trans (hiddenWhileBusy_busy _ hbusy)
  · obtain ⟨i, hi⟩ := exists_index_of_aligned (n := 6) hal rfl hle (by omega)
    exact (readValue_ctext st i hi).trans (hiddenWhileBusy_busy _ hbusy)

/-! ## The state after a read -/

/-- 44_host_commands.md R112: a read of a mapped address drives the output port and assigns nothing. -/
theorem exec_rd_mapped {addr : BitVec 10} (st : State) (h : ¬ reservedOrMisaligned addr) :
    exec (.rd addr) st = .next { st with out := { st.out with rdata := readValue st addr } } := by
  obtain ⟨reg, hreg⟩ := exists_regAt_of_mapped h
  simp only [exec, execRd, hreg]

/-- 44_host_commands.md R112: a read of an address without register also sets `E_ADDR`. -/
theorem exec_rd_unmapped {addr : BitVec 10} (st : State) (h : reservedOrMisaligned addr) :
    exec (.rd addr) st =
      .next { st with eAddr := true, out := { st.out with rdata := readValue st addr } } := by
  simp only [exec, execRd, (regAt_eq_none_iff addr).mpr h, raise]

/-- 44_host_commands.md R111: a read of any address answers, with `readValue` on the output port. -/
theorem exec_rd_rdata (st : State) (addr : BitVec 10) :
    ∃ t, exec (.rd addr) st = .next t ∧ t.out.rdata = readValue st addr := by
  by_cases h : reservedOrMisaligned addr
  · exact ⟨_, exec_rd_unmapped st h, rfl⟩
  · exact ⟨_, exec_rd_mapped st h, rfl⟩

/-- Settles O4: the datum is `readValue` by `exec_rd_rdata`, and each row of the table is a `readValue` at the
address of its register. -/
theorem readReturnsMappedValue : Obligations.ReadReturnsMappedValue := by
  unfold Obligations.ReadReturnsMappedValue
  intro st addr
  obtain ⟨t, hexec, hdata⟩ := exec_rd_rdata st addr
  refine ⟨t, hexec, ?_⟩
  rw [hdata]
  refine ⟨?id, ?ctrl, ?status, ?ien, ?cost, ?keylen, readValue_salt st, ?lr0, ?lr1, readValue_ctext st,
    readValue_key st, readValue_unmapped st⟩ <;> rintro rfl
  case id => exact readValue_regAddr st .id
  case ctrl => exact readValue_ctrl st rfl
  case status => exact readValue_status st
  case ien => exact readValue_ien st
  case cost => exact readValue_regAddr st .cost
  case keylen => exact readValue_regAddr st .keylen
  case lr0 => exact readValue_lr0 st rfl
  case lr1 => exact readValue_lr1 st rfl

/-- Settles O5: `exec_rd_unmapped` and `exec_rd_mapped` name the two next states; a mapped address is aligned, so
the zeros are those of `readValue_writeOnly` and `readValue_hidden`. -/
theorem readChangesAtMostEAddr : Obligations.ReadChangesAtMostEAddr := by
  unfold Obligations.ReadChangesAtMostEAddr
  intro st addr
  constructor
  · intro hunmapped
    exact ⟨_, exec_rd_unmapped st hunmapped, rfl⟩
  · intro hmapped
    have hal := aligned_of_mapped hmapped
    exact ⟨_, exec_rd_mapped st hmapped, rfl, readValue_writeOnly st hal, fun hbusy => readValue_hidden hbusy hal⟩

/-! ## The operations without effect -/

theorem exec_nop (st : State) : exec .nop st = .next st := rfl

theorem exec_uIdle (st : State) : exec .uIdle st = .next st := rfl

/-- Settles O14: each of the two is the arm that answers the state it was given. -/
theorem nopAndUIdleChangeNothing : Obligations.NopAndUIdleChangeNothing := by
  unfold Obligations.NopAndUIdleChangeNothing
  exact fun st => ⟨exec_nop st, exec_uIdle st⟩

end Sys2Proof.Machine
end

/-! PROOFS. Two of the refusals (60_exceptions.md R131, R132): an illegal command word, and the accesses that a busy
core refuses. That a command is its dispatch, and what a write does by the register at its address, are stated for
use beyond the two. -/

namespace Sys2Proof.Machine

/-! ## Writes to the control registers (44_host_commands.md R113) -/

theorem exec_wr_ctrl (st : State) (wdata : Word) : exec (.wr 0x004#10 wdata) st = writeCtrl wdata st := by
  have hreg : regAt 0x004#10 = some .ctrl := regAt_regAddr .ctrl
  simp only [exec, execWr, hreg]

theorem exec_wr_status (st : State) (wdata : Word) :
    exec (.wr 0x008#10 wdata) st = .next (writeOnesToClear wdata st) := by
  have hreg : regAt 0x008#10 = some .status := regAt_regAddr .status
  simp only [exec, execWr, hreg]

theorem exec_wr_ien (st : State) (wdata : Word) :
    exec (.wr 0x00C#10 wdata) st = .next { st with ien := wdata.getLsbD 0 } := by
  have hreg : regAt 0x00C#10 = some .ien := regAt_regAddr .ien
  simp only [exec, execWr, hreg]

/-! ## Illegal command words -/

/-- 30_encoding.md R51: a command word fails the check by its upper bits or by its code. -/
theorem wellFormedCommandWord_eq_false_iff (w : Word) :
    wellFormedCommandWord w = false ↔ w.extractLsb' 4 28 ≠ 0#28 ∨ 8 ≤ (w.extractLsb' 0 4).toNat := by
  simp only [wellFormedCommandWord, Bool.and_eq_false_iff, beq_eq_false_iff_ne, decide_eq_false_iff_not, not_le,
    Nat.lt_iff_add_one_le]

theorem decodeCmd_of_illFormed {w : Word} (h : wellFormedCommandWord w = false) :
    decodeCmd w = .error (.illegalCommand w) :=
  if_neg (Bool.eq_false_iff.mp h)

/-- 44_host_commands.md R114 step 1: the check of the word comes before everything else, `BUSY` included. -/
theorem writeCtrl_of_illFormed {w : Word} (st : State) (h : wellFormedCommandWord w = false) :
    writeCtrl w st = .next (raise .op st) := by
  simp only [writeCtrl_eq, decodeCmd_of_illFormed h]

/-- Settles O8: such a word is not well-formed, and `raise` sets `E_OP` alone. -/
theorem illegalCommandWordRaisesEOp : Obligations.IllegalCommandWordRaisesEOp := by
  unfold Obligations.IllegalCommandWordRaisesEOp
  intro st wdata hillegal
  calc exec (.wr 0x004#10 wdata) st
      = writeCtrl wdata st := exec_wr_ctrl st wdata
    _ = .next (raise .op st) := writeCtrl_of_illFormed st ((wellFormedCommandWord_eq_false_iff wdata).mpr hillegal)
    _ = .next { st with eOp := true } := rfl

/-! ## What a busy core refuses -/

/-- 44_host_commands.md R114: each of the commands 1 to 6 is a dispatch, with the command's own needs and start. -/
theorem exists_exec_eq_dispatch {c : Instr}
    (hc : c = .init ∨ c = .encipher ∨ c = .keyPw ∨ c = .keySalt ∨ c = .ekskey ∨ c = .crypt) :
    ∃ n start, ∀ st, exec c st = .next (dispatch n start st) := by
  obtain rfl | rfl | rfl | rfl | rfl | rfl := hc <;> exact ⟨_, _, fun _ => rfl⟩

theorem exec_command_busy {c : Instr} {st : State} (hbusy : st.busy = true)
    (hc : c = .init ∨ c = .encipher ∨ c = .keyPw ∨ c = .keySalt ∨ c = .ekskey ∨ c = .crypt) :
    exec c st = .next (raise .busy st) := by
  obtain ⟨n, start, hdispatch⟩ := exists_exec_eq_dispatch hc
  rw [hdispatch, dispatch_busy n start st hbusy]

theorem writeOperand_busy {st : State} (store : State → State) (hbusy : st.busy = true) :
    writeOperand store st = raise .busy st :=
  if_pos hbusy

theorem mapped_of_operandAddress {addr : BitVec 10} (h : operandAddress addr) : ¬ reservedOrMisaligned addr := by
  unfold operandAddress at h
  unfold reservedOrMisaligned
  omega

/-- 44_host_commands.md R113: the registers at operand addresses are those that `writeOperand` guards; the other five
kinds are at other addresses. -/
theorem exec_wr_operand_busy {addr : BitVec 10} {st : State} (wdata : Word) (hbusy : st.busy = true)
    (h : operandAddress addr) : exec (.wr addr wdata) st = .next (raise .busy st) := by
  obtain ⟨reg, hreg⟩ := exists_regAt_of_mapped (mapped_of_operandAddress h)
  have haddr := regAddr_of_regAt addr reg hreg
  subst haddr
  unfold operandAddress at h
  cases reg with
  | id | ctrl | status | ien => exact absurd h (by decide)
  | ctext i => simp only [regAddr, BitVec.toNat_ofNat] at h; omega
  | cost | keylen | salt | lr0 | lr1 | key => simp only [exec, execWr, hreg, writeOperand_busy _ hbusy]

/-! ## What never raises `E_BUSY` -/

/-- 44_host_commands.md R112: the one flag a read can set is `E_ADDR`. -/
theorem exec_rd_eBusy (st : State) (addr : BitVec 10) :
    ∃ t, exec (.rd addr) st = .next t ∧ t.eBusy = st.eBusy := by
  by_cases h : reservedOrMisaligned addr
  · exact ⟨_, exec_rd_unmapped st h, rfl⟩
  · exact ⟨_, exec_rd_mapped st h, rfl⟩

/-- 44_host_commands.md R123: `ABORT` leaves the error flags as they are. -/
theorem exec_abort_eBusy (st : State) : ∃ t, exec .abort st = .next t ∧ t.eBusy = st.eBusy := ⟨_, rfl, rfl⟩

/-- Settles O11: what is refused is refused by `dispatch` or by `writeOperand`; of the accesses that never set the
flag, the `STATUS` write can clear it and the others keep it. -/
theorem busyCoreRefusesAccesses : Obligations.BusyCoreRefusesAccesses := by
  unfold Obligations.BusyCoreRefusesAccesses
  refine ⟨fun st c hbusy hc => exec_command_busy hbusy hc,
    fun st addr wdata hbusy haddr => exec_wr_operand_busy wdata hbusy haddr, ?_⟩
  rintro st i (⟨addr, rfl⟩ | rfl | rfl | ⟨wdata, rfl⟩ | ⟨wdata, rfl⟩)
  · obtain ⟨t, hexec, hflag⟩ := exec_rd_eBusy st addr
    exact ⟨t, hexec, hflag.le⟩
  · exact ⟨st, exec_nop st, id⟩
  · obtain ⟨t, hexec, hflag⟩ := exec_abort_eBusy st
    exact ⟨t, hexec, hflag.le⟩
  · refine ⟨_, exec_wr_status st wdata, fun hset => ?_⟩
    rw [writeOnesToClear_eBusy, Bool.and_eq_true] at hset
    exact hset.1
  · exact ⟨_, exec_wr_ien st wdata, id⟩

end Sys2Proof.Machine
/-! PROOFS. Encodings (30_encoding.md R50 to R55, R58, R60): the first level by the value of the word, the second
level by the format of what is presented. -/

namespace Sys2Proof

/-! ## `phase` codes -/

/-- 30_encoding.md R54: a code that has a phase is the code of that phase. -/
theorem phaseCode_of_phaseOfCode {w : BitVec 4} {p : Phase} (h : phaseOfCode w = some p) : phaseCode p = w := by
  unfold phaseOfCode at h
  split at h <;> cases h <;> exact BitVec.eq_of_toNat_eq (Eq.symm ‹_›)

theorem phaseOfCode_isSome_iff (w : BitVec 4) : (phaseOfCode w).isSome = true ↔ w.toNat ≤ 9 := by
  revert w
  decide

/-- 30_encoding.md R54: the encoding of the micro-operation a phase selects is the code of the phase. -/
theorem encode_phaseInstr (p : Phase) : encode (phaseInstr p) = .uop (phaseCode p) := by
  cases p <;> rfl

theorem decodeUop_phaseCode (p : Phase) : decodeUop (phaseCode p) = .ok (phaseInstr p) := by
  cases p <;> rfl

theorem decodeUop_eq_ok_iff (w : BitVec 4) (i : Instr) :
    decodeUop w = .ok i ↔ ∃ p, phaseOfCode w = some p ∧ phaseInstr p = i := by
  unfold decodeUop
  cases phaseOfCode w <;> simp

/-! ## Decoding and encoding are inverse -/

theorem decode_encode (i : Instr) : decode (encode i) = .ok i := by
  cases i with
  | rd addr => simp only [encode, decode, decodeBus_busWord, Bool.false_eq_true, if_false]
  | wr addr wdata => simp only [encode, decode, decodeBus_busWord, if_true]
  | _ => rfl

/-- 30_encoding.md R52: a command word is the only word of its command. -/
theorem encode_of_decodeCmd {w : BitVec 32} {i : Instr} (h : decodeCmd w = .ok i) : encode i = .cmd w := by
  rcases decodeCmd_cases w with ⟨rfl, hd⟩ | ⟨rfl, hd⟩ | ⟨rfl, hd⟩ | ⟨rfl, hd⟩ | ⟨rfl, hd⟩ | ⟨rfl, hd⟩ | ⟨rfl, hd⟩ |
    ⟨rfl, hd⟩ | ⟨_, hd⟩ <;> cases hd.symm.trans h <;> rfl

/-- 30_encoding.md R54: a phase code is the only code of its micro-operation. -/
theorem encode_of_decodeUop {w : BitVec 4} {i : Instr} (h : decodeUop w = .ok i) : encode i = .uop w := by
  obtain ⟨p, hp, rfl⟩ := (decodeUop_eq_ok_iff w i).mp h
  rw [encode_phaseInstr, phaseCode_of_phaseOfCode hp]

/-- Settles O57: `decode_encode`, and that a legal word or code is the only one of what it decodes to. -/
theorem decodeOfEncode : Obligations.DecodeOfEncode := by
  unfold Obligations.DecodeOfEncode
  exact ⟨decode_encode, fun _ _ => encode_of_decodeCmd, fun _ _ => encode_of_decodeUop⟩

/-! ## Two-level decoding -/

/-- A read is decoded at the first level, whatever its datum. -/
theorem decodeAccess_read (addr : BitVec 10) (wdata : Word) : decodeAccess (busWord false addr wdata) = .rd addr := by
  simp only [decodeAccess, decodeBus_busWord, Bool.false_eq_true, if_false]

/-- A write of a legal command word to `CTRL` is the command. -/
theorem decodeAccess_command {w : Word} {c : Instr} (h : decodeCmd w = .ok c) :
    decodeAccess (busWord true ctrlAddr w) = c := by
  simp only [decodeAccess, decodeBus_busWord, if_true, h]

/-- Every other write stays a write. -/
theorem decodeAccess_write {addr : BitVec 10} {wdata : Word} (h : (Instr.wr addr wdata).wellFormed) :
    decodeAccess (busWord true addr wdata) = .wr addr wdata := by
  have hbus : decodeBus (busWord true addr wdata) = .wr addr wdata := decodeBus_busWord true addr wdata
  unfold decodeAccess
  rw [hbus]
  by_cases haddr : addr = ctrlAddr
  · have hill : ¬ wellFormedCommandWord wdata = true := by simpa [Instr.wellFormed, illFormed, haddr] using h
    have hdec : decodeCmd wdata = .error (.illegalCommand wdata) := if_neg hill
    simp only [if_pos haddr, hdec]
  · simp only [if_neg haddr]

theorem fetchHost_portOfAccess (wr : Bool) (addr : BitVec 10) (wdata : Word) :
    fetchHost (portOfAccess (busWord wr addr wdata)) = some (decodeAccess (busWord wr addr wdata)) := by
  simp only [portOfAccess_busWord, fetchHost, if_true]

/-- What the host presents: a read with datum 0, a write, or the word of a command written to `CTRL`. -/
theorem accessWord_cases {i : Instr} {w : BitVec 43} (h : accessWord i = some w) :
    (∃ addr, i = .rd addr ∧ w = busWord false addr 0) ∨ (∃ addr wdata, i = .wr addr wdata ∧ w = busWord true addr wdata)
      ∨ ∃ c, decodeCmd c = .ok i ∧ w = busWord true ctrlAddr c := by
  unfold accessWord at h
  have hdec := decode_encode i
  split at h
  next b henc =>
    cases h
    cases i <;> cases henc
    · exact .inl ⟨_, rfl, rfl⟩
    · exact .inr (.inl ⟨_, _, rfl, rfl⟩)
  next c henc =>
    cases h
    rw [henc] at hdec
    exact .inr (.inr ⟨c, hdec, rfl⟩)
  next => cases h

/-- 30_encoding.md R58, R60: what is presented is fetched. -/
theorem fetchHost_of_accessWord {i : Instr} {w : BitVec 43} (hwf : i.wellFormed) (h : accessWord i = some w) :
    fetchHost (portOfAccess w) = some i := by
  obtain ⟨addr, rfl, rfl⟩ | ⟨addr, wdata, rfl, rfl⟩ | ⟨c, hdec, rfl⟩ := accessWord_cases h
  · rw [fetchHost_portOfAccess, decodeAccess_read]
  · rw [fetchHost_portOfAccess, decodeAccess_write hwf]
  · rw [fetchHost_portOfAccess, decodeAccess_command hdec]

theorem fetchHost_read {inp : PortIn} (hsel : inp.sel = true) (hwr : inp.wr = false) :
    fetchHost inp = some (.rd inp.addr) := by
  simp only [fetchHost, hsel, if_true, hwr, decodeAccess_read]

theorem fetchHost_unselected {inp : PortIn} (hsel : inp.sel = false) : fetchHost inp = none := by
  simp only [fetchHost, hsel, Bool.false_eq_true, if_false]

/-- Settles O58: the three formats of what is presented are decoded back by `decodeAccess`, and the ports of a cycle
without `sel` carry nothing. -/
theorem fetchOfPresentedInstruction : Obligations.FetchOfPresentedInstruction := by
  unfold Obligations.FetchOfPresentedInstruction
  exact ⟨fun _ _ => fetchHost_of_accessWord, fun _ => fetchHost_read, fun _ => fetchHost_unselected⟩

/-! ## Which words decode -/

theorem exists_decodeCmd_iff (w : BitVec 32) : (∃ i, decodeCmd w = .ok i) ↔ w.toNat ≤ 7 := by
  rw [← wellFormedCommandWord_iff]
  constructor
  · rintro ⟨i, hi⟩
    by_contra hill
    cases hi.symm.trans (if_neg hill)
  · intro hwf
    have hle := (wellFormedCommandWord_iff w).mp hwf
    rcases decodeCmd_cases w with h | h | h | h | h | h | h | h | ⟨hge, _⟩
    case inr.inr.inr.inr.inr.inr.inr.inr => omega
    all_goals exact ⟨_, h.2⟩

theorem exists_decodeUop_iff (w : BitVec 4) : (∃ i, decodeUop w = .ok i) ↔ w.toNat ≤ 9 := by
  simp only [decodeUop_eq_ok_iff, ← phaseOfCode_isSome_iff, Option.isSome_iff_exists]
  exact ⟨fun ⟨_, p, hp, _⟩ => ⟨p, hp⟩, fun ⟨p, hp⟩ => ⟨_, p, hp, rfl⟩⟩

/-- Settles O59: the two decoders answer exactly on the values of the two tables. -/
theorem illegalEncodingsAreRefused : Obligations.IllegalEncodingsAreRefused := by
  unfold Obligations.IllegalEncodingsAreRefused
  exact ⟨exists_decodeCmd_iff, exists_decodeUop_iff⟩

/-- Settles O60: each clause is an evaluation of the decoder, or of a code, on the literals of the tables. -/
theorem knownWordsDecode : Obligations.KnownWordsDecode := by
  unfold Obligations.KnownWordsDecode
  refine ⟨?read, ?write, ?crypt, ?commands, ?cmd8, ?cmd16, ?phases, ?phase10, rfl, rfl, rfl⟩ <;> decide

end Sys2Proof
/-! PROOFS. The functions: the word stream of a salt and of a long string (40_wordstream.md R67, R68), `Encipher`
(41_feistel.md R74 to R76) and the passes of `Crypt` (43_costloop.md R107). -/

namespace Sys2Proof.Machine

/-! ## Streams -/

/-- 20_memory.md R40: a word is its four bytes, most significant first. -/
theorem packBytes_byteOf (w : Word) : packBytes (byteOf w 0) (byteOf w 1) (byteOf w 2) (byteOf w 3) = w := by
  apply BitVec.eq_of_getLsbD_eq
  intro i hi
  simp only [packBytes, byteOf, BitVec.getLsbD_append, BitVec.getLsbD_extractLsb']
  grind

/-- Byte `4*q + n` of the salt is byte `n` of register `q`, also when both are reduced to the sixteen bytes. -/
theorem saltString_getD (salt : Vector Word 4) (j : Nat) (n : Fin 4) :
    (saltString salt).getD ((4 * j + n.val) % 16) 0 = byteOf salt[j % 4] n := by
  have hlt : (4 * j + n.val) % 16 < 16 := Nat.mod_lt _ (by omega)
  have hq : (4 * j + n.val) % 16 / 4 = j % 4 := by omega
  have hr : (4 * j + n.val) % 16 % 4 = n.val := by omega
  simp [saltString, saltByte, List.getD_eq_getElem?_getD, hlt, hq, hr]

/-- 40_wordstream.md R67: the stream of the salt bytes at a multiple of 4 is a register. -/
theorem streamWord_saltString (salt : Vector Word 4) (j : Nat) : streamWord (saltString salt) (4 * j) = salt[j % 4] := by
  rw [streamWord, saltString_length]
  exact (congr (congr (congr (congrArg packBytes (saltString_getD salt j 0)) (saltString_getD salt j 1))
    (saltString_getD salt j 2)) (saltString_getD salt j 3)).trans (packBytes_byteOf _)

/-- Settles O32: the statement is `streamWord_saltString`. -/
theorem saltStreamReadsRegisters : Obligations.SaltStreamReadsRegisters := by
  unfold Obligations.SaltStreamReadsRegisters
  exact streamWord_saltString

/-- An index below `n` reads the same byte of a string as of its first `n` bytes, and neither wraps. -/
theorem getD_mod_take {b : List Byte} {n k : Nat} (hn : n < b.length) (hk : k < n) :
    b.getD (k % b.length) 0 = (b.take n).getD (k % (b.take n).length) 0 := by
  have hlen : (b.take n).length = n := by simpa using hn.le
  rw [hlen, Nat.mod_eq_of_lt hk, Nat.mod_eq_of_lt (by omega), List.getD_eq_getElem?_getD, List.getD_eq_getElem?_getD,
    List.getElem?_take_of_lt hk]

/-- Settles O33: the last byte read is byte `4 * 17 + 3 = 71`, so no index wraps. -/
theorem seventyTwoBytesSuffice : Obligations.SeventyTwoBytesSuffice := by
  unfold Obligations.SeventyTwoBytesSuffice
  intro b hlen i hi
  have hbyte (k : Nat) (hk : k < 4) := getD_mod_take hlen (show 4 * i + k < 72 by omega)
  simp only [streamWord]
  rw [hbyte 1 (by omega), hbyte 2 (by omega), hbyte 3 (by omega)]
  exact congrArg (packBytes · _ _ _) (hbyte 0 (by omega))

/-! ## `RoundStep` and `Encipher` are bijections -/

/-- The block before a round step: rounds 2 to 15 undo themselves, the first and the last undo their whitening
besides (41_feistel.md R76 (a)). -/
def roundStepInv (rnd : Fin 18) (ps : Schedule) (b : Block) : Block :=
  if rnd.val = 1 then ⟨b.l ^^^ ps.p[0], b.r ^^^ feistelF b.l ps.sbox ^^^ ps.p[1]⟩
  else if rnd.val = 16 then
    ⟨b.r ^^^ feistelF (b.l ^^^ ps.p[17]) ps.sbox ^^^ ps.p[16], b.l ^^^ ps.p[17]⟩
  else roundStep rnd b ps

theorem xor_cancel_two (x y z : Word) : x ^^^ y ^^^ z ^^^ y ^^^ z = x := by grind


/-- A round other than the first and the last is its own inverse. -/
theorem roundStep_involutive (rnd : Fin 18) (ps : Schedule) (b : Block) (h1 : rnd.val ≠ 1) (h16 : rnd.val ≠ 16) :
    roundStep rnd (roundStep rnd b ps) ps = b := by
  rcases Nat.mod_two_eq_zero_or_one rnd.val with heven | hodd
  · simp only [roundStep_even _ _ heven h16, xor_cancel_two]
  · simp only [roundStep_odd _ _ hodd h1, xor_cancel_two]

theorem roundStepInv_roundStep (rnd : Fin 18) (ps : Schedule) (b : Block) :
    roundStepInv rnd ps (roundStep rnd b ps) = b := by
  unfold roundStepInv
  by_cases h1 : rnd.val = 1
  · simp only [if_pos h1, roundStep_first _ _ h1, xor_cancel_right, xor_cancel_two]
  · by_cases h16 : rnd.val = 16
    · simp only [if_neg h1, if_pos h16, roundStep_last _ _ h16, xor_cancel_right, xor_cancel_two]
    · rw [if_neg h1, if_neg h16, roundStep_involutive rnd ps b h1 h16]

theorem block_finite : Finite Block :=
  Finite.of_injective (fun b : Block => (b.l, b.r)) fun b c h => by
    cases b
    cases c
    simpa using h

theorem roundStep_bijective (rnd : Fin 18) (ps : Schedule) : Function.Bijective fun b : Block => roundStep rnd b ps :=
  have := block_finite
  Finite.injective_iff_bijective.mp (Function.LeftInverse.injective (roundStepInv_roundStep rnd ps))

theorem encipherRounds_bijective (n : Nat) (hn : n ≤ 16) (ps : Schedule) :
    Function.Bijective fun b : Block => encipherRounds n hn b ps := by
  induction n with
  | zero => exact Function.bijective_id
  | succ n ih =>
    simp only [encipherRounds_succ]
    exact (roundStep_bijective ⟨n + 1, by omega⟩ ps).comp (ih (by omega))

/-- Settles O29: each round step is undone by `roundStepInv`, hence a bijection of the finitely many blocks, and
`Encipher` is sixteen of them. -/
theorem encipherIsBijective : Obligations.EncipherIsBijective := by
  unfold Obligations.EncipherIsBijective
  exact fun ps => ⟨fun rnd _ _ => roundStep_bijective rnd ps, encipherRounds_bijective 16 (by omega) ps⟩

/-! ## The sixteen rounds written out -/

/-- 41_feistel.md R74: the pair `(a, b)` of the unfolded loop after `n` rounds. -/
def unfoldedRounds (n : Nat) (hn : n ≤ 16) (blk : Block) (ps : Schedule) : Word × Word :=
  Nat.fold n
    (fun i hi ab =>
      if (i + 1) % 2 = 1 then (ab.1, ab.2 ^^^ feistelF ab.1 ps.sbox ^^^ ps.p[i + 1])
      else (ab.1 ^^^ feistelF ab.2 ps.sbox ^^^ ps.p[i + 1], ab.2))
    (blk.l ^^^ ps.p[0], blk.r)

theorem unfoldedRounds_succ (n : Nat) (hn : n + 1 ≤ 16) (blk : Block) (ps : Schedule) :
    unfoldedRounds (n + 1) hn blk ps =
      if (n + 1) % 2 = 1 then
        ((unfoldedRounds n (by omega) blk ps).1,
          (unfoldedRounds n (by omega) blk ps).2 ^^^ feistelF (unfoldedRounds n (by omega) blk ps).1 ps.sbox
            ^^^ ps.p[n + 1])
      else
        ((unfoldedRounds n (by omega) blk ps).1 ^^^ feistelF (unfoldedRounds n (by omega) blk ps).2 ps.sbox
            ^^^ ps.p[n + 1],
          (unfoldedRounds n (by omega) blk ps).2) := by
  simp only [unfoldedRounds, Nat.fold_succ]

/-- Up to round 15 the block is the pair of the loop: the input whitening is done in round 1. -/
theorem encipherRounds_eq_unfolded (n : Nat) (h1 : 1 ≤ n) (hn : n ≤ 15) (blk : Block) (ps : Schedule) :
    encipherRounds n (by omega) blk ps =
      ⟨(unfoldedRounds n (by omega) blk ps).1, (unfoldedRounds n (by omega) blk ps).2⟩ := by
  induction n, h1 using Nat.le_induction with
  | base =>
    rw [encipherRounds_succ, encipherRounds_zero, unfoldedRounds_succ, roundStep_first _ _ rfl]
    rfl
  | succ n h1 ih =>
    rw [encipherRounds_succ, unfoldedRounds_succ, ih (by omega)]
    rcases Nat.mod_two_eq_zero_or_one (n + 1) with heven | hodd
    · rw [if_neg (by omega), roundStep_even _ _ heven (show n + 1 ≠ 16 by omega)]
      rfl
    · rw [if_pos hodd, roundStep_odd _ _ hodd (show n + 1 ≠ 1 by omega)]
      rfl

/-- Round 16 adds the output whitening and exchanges the halves of the block after round 15. -/
theorem encipher_of_round_fifteen {blk b : Block} {ps : Schedule} (h : encipherRounds 15 (by omega) blk ps = b) :
    encipher blk ps = ⟨b.r ^^^ ps.p[17], b.l ^^^ feistelF b.r ps.sbox ^^^ ps.p[16]⟩ := by
  rw [encipher, encipherRounds_succ 15, h, roundStep_last _ _ rfl]

/-- Round 16 of the loop changes `a`. -/
theorem unfoldedRounds_of_round_fifteen {blk : Block} {ab : Word × Word} {ps : Schedule}
    (h : unfoldedRounds 15 (by omega) blk ps = ab) :
    unfoldedRounds 16 (by omega) blk ps = (ab.1 ^^^ feistelF ab.2 ps.sbox ^^^ ps.p[16], ab.2) := by
  rw [unfoldedRounds_succ 15, h, if_neg (by omega)]

theorem encipher_eq_unfolded (blk : Block) (ps : Schedule) :
    encipher blk ps =
      ⟨(unfoldedRounds 16 (by omega) blk ps).2 ^^^ ps.p[17], (unfoldedRounds 16 (by omega) blk ps).1⟩ := by
  have hblock := encipherRounds_eq_unfolded 15 (by omega) (by omega) blk ps
  generalize hab : unfoldedRounds 15 (by omega) blk ps = ab at hblock
  rw [encipher_of_round_fifteen hblock, unfoldedRounds_of_round_fifteen hab]

/-- Settles O27: `encipher_eq_unfolded`, whose pair is the loop of the statement. -/
theorem encipherIsTheUnfoldedLoop : Obligations.EncipherIsTheUnfoldedLoop := by
  unfold Obligations.EncipherIsTheUnfoldedLoop
  exact encipher_eq_unfolded

/-! ## With S-boxes of zeros -/

theorem feistelF_of_zero_boxes {s : SBoxes} (h : ∀ (b : Fin 4) (j : Fin 256), s[b][j] = 0) (x : Word) :
    feistelF x s = 0 := by
  have hread (b : Nat) (hb : b < 4) (i : BitVec 8) : bankRead s[b] i = 0 :=
    (bankRead_of_toNat_eq s[b] (j := ⟨i.toNat, i.isLt⟩) rfl).trans (h ⟨b, hb⟩ _)
  rw [feistelF, hread 0, hread 1, hread 2, hread 3]
  decide

/-- Settles O30: without `F` the unfolded loop XORs the words of `P` into its two halves in turn. -/
theorem encipherWithZeroSBoxes : Obligations.EncipherWithZeroSBoxes := by
  unfold Obligations.EncipherWithZeroSBoxes
  intro blk ps hzero
  rw [encipher_eq_unfolded]
  simp [unfoldedRounds, Nat.fold_succ, feistelF_of_zero_boxes hzero]

/-! ## The original constants -/

/-- `F` under the original S-boxes, from the rows of 15_constants.md R32: only the four words it reads. -/
def feistelFOrig (x : Word) : Word :=
  ((sOrigWord 0 ⟨(byteOf x 0).toNat, (byteOf x 0).isLt⟩ + sOrigWord 1 ⟨(byteOf x 1).toNat, (byteOf x 1).isLt⟩)
      ^^^ sOrigWord 2 ⟨(byteOf x 2).toNat, (byteOf x 2).isLt⟩)
    + sOrigWord 3 ⟨(byteOf x 3).toNat, (byteOf x 3).isLt⟩

theorem feistelF_sOrig (x : Word) : feistelF x sOrig = feistelFOrig x := by
  simp only [feistelF, feistelFOrig, bankRead, sOrig, Vector.getElem_ofFn]
  rfl

theorem pOrig_getElem (i : Nat) (hi : i < 18) : pOrig[i] = pOrigWord ⟨i, hi⟩ := by
  simp only [pOrig, Vector.getElem_ofFn]

/-- Settles O28: the unfolded loop over the words of `P_ORIG` and `S_ORIG` that it reads is run by the kernel. -/
theorem encipherOfZeroBlock : Obligations.EncipherOfZeroBlock := by
  unfold Obligations.EncipherOfZeroBlock
  rw [encipher_eq_unfolded]
  simp only [unfoldedRounds, scheduleOrig, feistelF_sOrig, pOrig_getElem]
  decide +kernel

/-! ## The passes of `Crypt` -/

/-- Chunk `c` of six words. -/
def chunkOf (ct : Vector Word 6) (c : Fin 3) : Block := ⟨ct[2 * c.val], ct[2 * c.val + 1]⟩

/-- 43_costloop.md R101: step 4 for one chunk changes that chunk only. -/
theorem chunkOf_encryptChunk (ps : Schedule) (ct : Vector Word 6) (c d : Fin 3) :
    chunkOf (encryptChunk ps c ct) d = if d = c then encipher (chunkOf ct c) ps else chunkOf ct d := by
  unfold chunkOf encryptChunk
  by_cases h : d = c
  · subst h
    rw [if_pos rfl]
    simp
  · have hne : c.val ≠ d.val := fun hv => h (Fin.ext hv.symm)
    rw [if_neg h]
    simp only [Vector.getElem_set]
    rw [if_neg (by omega), if_neg (by omega), if_neg (by omega), if_neg (by omega)]

/-- One pass enciphers every chunk once. -/
theorem chunkOf_encryptPass (ps : Schedule) (ct : Vector Word 6) (c : Fin 3) :
    chunkOf (encryptPass ps ct) c = encipher (chunkOf ct c) ps := by
  simp only [encryptPass, chunkOf_encryptChunk]
  fin_cases c <;> simp

theorem chunkOf_encryptPasses (ps : Schedule) (ct : Vector Word 6) (c : Fin 3) (n : Nat) :
    chunkOf ((encryptPass ps)^[n] ct) c = (fun b => encipher b ps)^[n] (chunkOf ct c) :=
  Function.Semiconj.iterate_right (f := fun ct => chunkOf ct c) (fun ct => chunkOf_encryptPass ps ct c) n ct

/-- Settles O34: a pass acts on each chunk as `Encipher`, so the iterates agree. -/
theorem passOrderDoesNotMatter : Obligations.PassOrderDoesNotMatter := by
  unfold Obligations.PassOrderDoesNotMatter
  exact fun ps ct c => chunkOf_encryptPasses ps ct c 64

end Sys2Proof.Machine
/-! PROOFS. The micro-operations (41_feistel.md R73, 42_keyschedule.md R80 to R85, 43_costloop.md R95 to R100). One
equation for each gives its next state for every value of its counter within the range of the rule; the statements, and
later the sequencer's invariant, are read off these equations. -/

namespace Sys2Proof.Machine

/-! ## What ends a run -/

theorem endInit_of_init {st : State} (h : st.op = .init) : endInit st = finish st := by
  simp only [endInit, h]

theorem endInit_of_crypt {st : State} (h : st.op = .crypt) : endInit st = startSched .eks st := by
  simp only [endInit, h]

theorem endSched_of_command {st : State} (h : st.op = .keyPw ∨ st.op = .keySalt ∨ st.op = .ekskey) :
    endSched st = finish st := by
  obtain h | h | h := h <;> simp only [endSched, h]

theorem endSched_of_eks {st : State} (ho : st.op = .crypt) (hs : st.sched = .eks) :
    endSched st = startSched .kpw { st with iter := iterationCount st } := by
  simp only [endSched, ho, hs]

theorem endSched_of_kpw {st : State} (ho : st.op = .crypt) (hs : st.sched = .kpw) :
    endSched st = startSched .ksalt st := by
  simp only [endSched, ho, hs]

theorem endSched_of_last {st : State} (ho : st.op = .crypt) (hs : st.sched = .ksalt) (hi : st.iter = 1) :
    endSched st = { st with iter := 0, sched := .none, phase := .cload } := by
  simp only [endSched, ho, hs, hi, if_true]

/-- What ends a run stores nothing. -/
theorem endInit_schedule (st : State) : (endInit st).schedule = st.schedule := by
  obtain ⟨_, e⟩ | ⟨_, e⟩ | ⟨_, _, e⟩ := endInit_cases st <;> rw [e] <;> rfl

theorem endSched_schedule (st : State) : (endSched st).schedule = st.schedule := by
  obtain ⟨_, e⟩ | ⟨_, _, e⟩ | ⟨_, _, e⟩ | ⟨_, _, _, e⟩ | ⟨_, _, _, e⟩ | ⟨_, e⟩ := endSched_cases st <;> rw [e] <;> rfl

/-- 43_costloop.md R97: the iteration count is the power of two of the low five bits of `COST`. -/
theorem iterationCount_eq (st : State) : iterationCount st = BitVec.ofNat 32 (2 ^ (st.cost.toNat % 32)) := by
  have hlow : (st.cost.extractLsb' 0 5).toNat = st.cost.toNat % 32 := by
    simp only [BitVec.extractLsb'_toNat, Nat.shiftRight_zero, Nat.reducePow]
  rw [← BitVec.toNat_inj]
  simp only [iterationCount, BitVec.shiftLeft_eq', BitVec.toNat_shiftLeft, hlow, BitVec.toNat_ofNat, Nat.shiftLeft_eq,
    Nat.mod_mul_mod, Nat.one_mul]

/-! ## The equations -/

/-- 43_costloop.md R95. -/
theorem exec_uInit {st : State} (k : Fin 1042) (h : st.widx.toNat = k.val) :
    exec .uInit st = .next
      (if k.val < 1041 then { storeWord k (romWord k) st with widx := st.widx + 1 }
        else endInit { storeWord k (romWord k) st with psv := true }) := by
  simp only [exec, execUInit, h, Fin.eta, dif_pos k.isLt]
  split <;> rfl

/-- 42_keyschedule.md R80. -/
theorem exec_uXorp {st : State} {w : Word} (i : Fin 18) (h : st.widx.toNat = i.val) (hw : xorpOperand st = some w) :
    exec .uXorp st = .next
      (if i.val < 17 then
        { st with
          p := st.p.set i.val (st.p[i.val] ^^^ w), koff := if st.sched = .ksalt then st.koff else nextKoff st,
          widx := st.widx + 1, sidx := if st.sched = .ksalt then st.sidx + 1 else st.sidx }
      else
        { st with
          p := st.p.set i.val (st.p[i.val] ^^^ w), koff := if st.sched = .ksalt then st.koff else nextKoff st,
          widx := 0, sidx := 0, l := 0, r := 0, rnd := 1, phase := blockPhase st.sched }) := by
  simp only [exec, execUXorp, h, hw, dif_pos i.isLt]
  split <;> rfl

/-- 41_feistel.md R73. -/
theorem exec_uRound {st : State} (rnd : Fin 18) (h : st.rnd.toNat = rnd.val) (h1 : 1 ≤ rnd.val) (h16 : rnd.val ≤ 16) :
    exec .uRound st = .next
      (if rnd.val < 16 then { withBlock (roundStep rnd ⟨st.l, st.r⟩ st.schedule) st.schedule st with rnd := st.rnd + 1 }
      else if st.sched ≠ .none then
        { withBlock (roundStep rnd ⟨st.l, st.r⟩ st.schedule) st.schedule st with phase := .st0 }
      else if st.op = .encipher then finish (withBlock (roundStep rnd ⟨st.l, st.r⟩ st.schedule) st.schedule st)
      else { withBlock (roundStep rnd ⟨st.l, st.r⟩ st.schedule) st.schedule st with phase := .bst }) := by
  simp only [exec, execURound, h, Fin.eta, dif_pos (And.intro h1 h16)]
  repeat' split
  all_goals rfl

/-- 42_keyschedule.md R85. -/
theorem exec_uSt1 {st : State} (k : Fin 1042) (h : st.widx.toNat + 1 = k.val) :
    exec .uSt1 st = .next
      (if k.val < 1041 then
        { storeWord k st.r st with widx := st.widx + 2, rnd := 1, phase := blockPhase st.sched }
      else endSched (storeWord k st.r st)) := by
  split
  · exact execUSt1_more st k h ‹_›
  · obtain rfl : (⟨1041, Nat.lt_succ_self 1041⟩ : Fin 1042) = k := Fin.ext (show 1041 = k.val by omega)
    exact execUSt1_last st (show st.widx.toNat = 1040 from Nat.succ.inj h)

/-- 43_costloop.md R100. -/
theorem exec_uBst {st : State} (c : Fin 3) (h : st.chunk.toNat = c.val) :
    exec .uBst st = .next
      (if c.val < 2 then
        { st with
          ctext := (st.ctext.set (2 * c.val) st.l).set (2 * c.val + 1) st.r, chunk := st.chunk + 1, phase := .bld }
      else if st.pass.toNat < 63 then
        { st with
          ctext := (st.ctext.set (2 * c.val) st.l).set (2 * c.val + 1) st.r, chunk := 0, pass := st.pass + 1,
          phase := .bld }
      else finish { st with ctext := (st.ctext.set (2 * c.val) st.l).set (2 * c.val + 1) st.r }) := by
  simp only [exec, execUBst, h, dif_pos c.isLt]
  repeat' split
  all_goals rfl

theorem exec_uBld {st : State} (c : Fin 3) (h : st.chunk.toNat = c.val) :
    exec .uBld st = .next
      { st with l := st.ctext[2 * c.val], r := st.ctext[2 * c.val + 1], rnd := 1, phase := .round } :=
  execUBld_eq st c h

/-! ## Counters out of range -/

/-- Settles O15: each guard fails, so the micro-operation takes its last branch; `U_XORP` within range stops for want of
an operand. -/
theorem countersOutOfRangeStop : Obligations.CountersOutOfRangeStop := by
  unfold Obligations.CountersOutOfRangeStop
  intro st
  refine ⟨fun h => ⟨dif_neg (by omega), dif_neg (by omega)⟩, fun h => dif_neg (by omega), fun h => dif_neg (by omega),
    ?keyLength, fun h => dif_neg (by omega), fun h => ⟨dif_neg (by omega), dif_neg (by omega)⟩⟩
  case keyLength =>
    intro hw hs hk
    have hop : xorpOperand st = none := by
      rw [xorpOperand, if_neg hs, keyWord, if_neg (mt (keylenLegal_iff st).mp hk)]
    have hlt : st.widx.toNat < 18 := by omega
    simp only [exec, execUXorp, dif_pos hlt, hop]

/-! ## `U_INIT` -/

/-- Settles O16: by `exec_uInit` the word is stored in either case, and `endInit` says what follows the last one. -/
theorem uInitCopiesOneWord : Obligations.UInitCopiesOneWord := by
  unfold Obligations.UInitCopiesOneWord
  intro st hw
  obtain ⟨k, hk⟩ : ∃ k : Fin 1042, st.widx.toNat = k.val := ⟨⟨st.widx.toNat, by omega⟩, rfl⟩
  have hstore (j : Fin 1042) : psRead (storeWord k (romWord k) st).schedule j =
      if j.val = k.val then romWord j else psRead st.schedule j := by
    rw [psRead_storeWord]
    split
    · rw [Fin.ext ‹j.val = k.val›]
    · rfl
  rw [hk]
  refine ⟨_, exec_uInit k hk, ?_⟩
  by_cases hlt : k.val < 1041
  · rw [if_pos hlt]
    exact ⟨hstore, fun _ => rfl, fun h => absurd h hlt.ne, fun h => absurd h hlt.ne⟩
  · rw [if_neg hlt]
    refine ⟨?words, fun h => absurd h hlt, fun _ ho => ?init, fun _ ho => ?crypt⟩
    case words =>
      intro j
      rw [endInit_schedule]
      exact hstore j
    case init =>
      rw [endInit_of_init (st := { storeWord k (romWord k) st with psv := true }) ho]
      rfl
    case crypt =>
      rw [endInit_of_crypt (st := { storeWord k (romWord k) st with psv := true }) ho]
      rfl

/-! ## `U_XORP` -/

/-- 42_keyschedule.md R80: the operand of `U_XORP` where it is defined. -/
theorem xorpOperand_eq {st : State} (hk : st.sched ≠ .ksalt → 1 ≤ st.keylen.toNat ∧ st.keylen.toNat ≤ 72) :
    xorpOperand st = some
      (if st.sched = .ksalt then saltWord st st.sidx
        else streamWord (keyString st.key st.keylen.toNat) st.koff.toNat) := by
  unfold xorpOperand
  by_cases hs : st.sched = .ksalt
  · rw [if_pos hs, if_pos hs]
  · rw [if_neg hs, if_neg hs, keyWord_eq st (hk hs)]

/-- Settles O17: the operand is `xorpOperand_eq`, the next state `exec_uXorp`, and the new offset `nextKoff_toNat`. -/
theorem uXorpMixesOneWord : Obligations.UXorpMixesOneWord := by
  unfold Obligations.UXorpMixesOneWord
  intro st hw hk
  obtain ⟨i, hi⟩ : ∃ i : Fin 18, st.widx.toNat = i.val := ⟨⟨st.widx.toNat, by omega⟩, rfl⟩
  have hset (w : Word) (j : Fin 18) :
      (st.p.set i.val (st.p[i.val] ^^^ w))[j] = if j.val = i.val then st.p[j] ^^^ w else st.p[j] := by
    rw [Fin.getElem_fin, Vector.getElem_set]
    by_cases hij : j = i
    · subst hij
      simp
    · have hne : i.val ≠ j.val := fun h => hij (Fin.ext h.symm)
      rw [if_neg hne, if_neg hne.symm, Fin.getElem_fin]
  have hkoff (hs : st.sched ≠ .ksalt) :
      (if st.sched = .ksalt then st.koff else nextKoff st).toNat = (st.koff.toNat + 4) % st.keylen.toNat := by
    rw [if_neg hs, nextKoff_toNat st (hk hs)]
  rw [hi]
  refine ⟨_, exec_uXorp i hi (xorpOperand_eq hk), ?_⟩
  by_cases hlt : i.val < 17
  · rw [if_pos hlt]
    exact ⟨hset _, fun hs => if_pos hs, hkoff, fun _ => rfl, fun h => absurd h hlt.ne⟩
  · rw [if_neg hlt]
    exact ⟨hset _, fun hs => if_pos hs, hkoff, fun h => absurd h hlt, fun _ => rfl⟩

/-! ## `U_SALT` -/

/-- Settles O18: the second salt index and the new `sidx` wrap modulo 4, as numbers of two bits do. -/
theorem uSaltMixesTwoWords : Obligations.USaltMixesTwoWords := by
  unfold Obligations.USaltMixesTwoWords
  intro st
  have hnext : (st.sidx + 1).toNat = (st.sidx.toNat + 1) % 4 := BitVec.toNat_add st.sidx 1
  have hsidx : st.sidx + 2 = BitVec.ofNat 2 ((st.sidx.toNat + 2) % 4) := by
    rw [← BitVec.toNat_inj, BitVec.toNat_ofNat]
    exact (BitVec.toNat_add st.sidx 2).trans (Nat.mod_mod _ _).symm
  simp only [exec, execUSalt, saltWord, hnext, hsidx]

/-! ## `U_ROUND` -/

/-- Settles O19: the four branches of `exec_uRound`, each with the block of the round step. -/
theorem uRoundPerformsOneRound : Obligations.URoundPerformsOneRound := by
  unfold Obligations.URoundPerformsOneRound
  intro st rnd hr h1 h16
  refine ⟨_, exec_uRound rnd hr.symm h1 h16, ?_⟩
  by_cases hlt : rnd.val < 16
  · rw [if_pos hlt]
    exact ⟨rfl, fun _ => rfl, fun h => absurd h hlt.ne, fun h => absurd h hlt.ne, fun h => absurd h hlt.ne⟩
  · rw [if_neg hlt]
    by_cases hs : st.sched = .none
    · rw [if_neg (not_not.mpr hs)]
      by_cases ho : st.op = .encipher
      · rw [if_pos ho]
        exact ⟨rfl, fun h => absurd h hlt, fun _ hn => absurd hs hn, fun _ _ _ => rfl,
          fun _ _ hc => by rw [ho] at hc; cases hc⟩
      · rw [if_neg ho]
        exact ⟨rfl, fun h => absurd h hlt, fun _ hn => absurd hs hn, fun _ _ he => absurd he ho, fun _ _ _ => rfl⟩
    · rw [if_pos hs]
      exact ⟨rfl, fun h => absurd h hlt, fun _ _ => rfl, fun _ hn => absurd hn hs, fun _ hn => absurd hn hs⟩

/-! ## `U_ST1` -/

/-- Settles O21: by `exec_uSt1` the word is stored in either case; after the last block `endSched` is a case for each
`op` and `sched`. -/
theorem uSt1StoresSecondWord : Obligations.USt1StoresSecondWord := by
  unfold Obligations.USt1StoresSecondWord
  intro st hw
  obtain ⟨k, hk⟩ : ∃ k : Fin 1042, st.widx.toNat + 1 = k.val := ⟨⟨st.widx.toNat + 1, by omega⟩, rfl⟩
  refine ⟨_, exec_uSt1 k hk, ?_⟩
  rw [hk]
  by_cases hlt : k.val < 1041
  · rw [if_pos hlt]
    exact ⟨fun j => psRead_storeWord k j st.r st, fun _ => rfl, fun h => by omega⟩
  · rw [if_neg hlt]
    refine ⟨fun j => ?words, fun h => by omega, fun _ => ⟨?command, ?eks, ?kpw, ?last, ?again⟩⟩
    case words =>
      rw [endSched_schedule]
      exact psRead_storeWord k j st.r st
    case command =>
      intro ho
      rw [endSched_of_command (st := storeWord k st.r st) ho]
      rfl
    case eks =>
      intro ho hs
      rw [endSched_of_eks (st := storeWord k st.r st) ho hs, ← iterationCount_eq]
      rfl
    case kpw =>
      intro ho hs
      rw [endSched_of_kpw (st := storeWord k st.r st) ho hs]
      rfl
    case last =>
      intro ho hs hi
      rw [endSched_of_last (st := storeWord k st.r st) ho hs hi]
      rfl
    case again =>
      intro ho hs hi
      rw [endSched_again (storeWord k st.r st) ho hs hi]
      rfl

/-! ## `U_CLOAD` and `U_BST` -/

/-- Settles O22: the words of the statement are those of `cOrig`. -/
theorem uCloadLoadsConstant : Obligations.UCloadLoadsConstant := by
  unfold Obligations.UCloadLoadsConstant
  intro st
  rfl

/-- Settles O24: the three branches of `exec_uBst`, each with the two words of the chunk stored. -/
theorem uBstStoresChunk : Obligations.UBstStoresChunk := by
  unfold Obligations.UBstStoresChunk
  intro st hc
  obtain ⟨c, hcv⟩ : ∃ c : Fin 3, st.chunk.toNat = c.val := ⟨⟨st.chunk.toNat, by omega⟩, rfl⟩
  have hset (i : Fin 6) : ((st.ctext.set (2 * c.val) st.l).set (2 * c.val + 1) st.r)[i] =
      if i.val = 2 * c.val then st.l else if i.val = 2 * c.val + 1 then st.r else st.ctext[i] := by
    simp only [Fin.getElem_fin, Vector.getElem_set]
    grind
  rw [hcv]
  refine ⟨_, exec_uBst c hcv, ?_⟩
  by_cases hlt : c.val < 2
  · rw [if_pos hlt]
    exact ⟨hset, fun _ => rfl, fun h => absurd h hlt.ne, fun h => absurd h hlt.ne⟩
  · rw [if_neg hlt]
    by_cases hp : st.pass.toNat < 63
    · rw [if_pos hp]
      exact ⟨hset, fun h => absurd h hlt, fun _ _ => rfl, fun _ h => absurd h hp.ne⟩
    · rw [if_neg hp]
      exact ⟨hset, fun h => absurd h hlt, fun _ h => absurd h hp, fun _ _ => rfl⟩

end Sys2Proof.Machine
/-! PROOFS. The host's accesses and commands (20_memory.md R36, R39; 44_host_commands.md R113 to R115, R123, R124): a
write by the register at its address, a command by the outcome of its dispatch. -/

namespace Sys2Proof.Machine

/-! ## Addresses and the register map -/

/-- The register at an address known by its number. -/
theorem regAt_of_toNat {addr : BitVec 10} {n : Nat} (reg : Reg) (haddr : addr.toNat = n)
    (hreg : regAddr reg = BitVec.ofNat 10 n) : regAt addr = some reg := by
  obtain ⟨-, rfl⟩ := BitVec.toNat_eq_nat.mp haddr
  rw [← hreg, regAt_regAddr]

/-- Settles O3: the addresses without a register are `regAt_eq_none_iff`, and the literal addresses are those of
`regAddr`. -/
theorem registerMapIsExact : Obligations.RegisterMapIsExact := by
  unfold Obligations.RegisterMapIsExact
  exact ⟨regAt_eq_none_iff, regAt_regAddr .id, regAt_regAddr .ctrl, regAt_regAddr .status, regAt_regAddr .ien,
    regAt_regAddr .cost, regAt_regAddr .keylen, fun i => regAt_regAddr (.salt i), regAt_regAddr .lr0,
    regAt_regAddr .lr1, fun i => regAt_regAddr (.ctext i), fun i => regAt_regAddr (.key i)⟩

/-! ## Writes -/

/-- 44_host_commands.md R113: what has no writable register raises `E_ADDR`. -/
theorem exec_wr_readOnly {addr : BitVec 10} (st : State) (wdata : Word)
    (h : reservedOrMisaligned addr ∨ addr = 0x000#10 ∨ ∃ i : Fin 6, addr.toNat = 0x040 + 4 * i.val) :
    exec (.wr addr wdata) st = .next (raise .addr st) := by
  obtain h | rfl | ⟨i, hi⟩ := h
  · simp only [exec, execWr, (regAt_eq_none_iff addr).mpr h]
  · simp only [exec, execWr, show regAt 0x000#10 = some .id from regAt_regAddr .id]
  · simp only [exec, execWr, regAt_of_toNat (.ctext i) hi rfl]

theorem writeOperand_idle {st : State} (store : State → State) (hidle : st.busy = false) :
    writeOperand store st = store st := by
  simp only [writeOperand, hidle, Bool.false_eq_true, if_false]

/-- A register file after one write: the written word at its own index, every other word as before. -/
theorem vector_set_getElem {n : Nat} (v : Vector Word n) (i j : Fin n) (w : Word) :
    (v.set i.val w)[j] = if j = i then w else v[j] := by
  rw [Fin.getElem_fin, Vector.getElem_set, Fin.getElem_fin]
  simp only [Fin.ext_iff, eq_comm]

/-- Settles O6: `exec` of a write is `execWr` at the register of the address; an operand register goes through
`writeOperand`, which refuses while busy and stores when idle. -/
theorem writeEffectByRegister : Obligations.WriteEffectByRegister := by
  unfold Obligations.WriteEffectByRegister
  intro st addr wdata
  refine ⟨exec_wr_readOnly st wdata, ?ien, fun haddr hbusy => exec_wr_operand_busy wdata hbusy haddr, fun hidle => ?idle⟩
  case ien =>
    rintro rfl
    exact exec_wr_ien st wdata
  have hstore {reg : Reg} (hreg : regAt addr = some reg) :
      exec (.wr addr wdata) st = exec (.wr (regAddr reg) wdata) st := by
    rw [regAddr_of_regAt addr reg hreg]
  refine ⟨?cost, ?keylen, ?lr0, ?lr1, ?salt, ?key⟩
  case cost | keylen | lr0 | lr1 =>
    rintro rfl
    exact congrArg Host.Outcome.next (writeOperand_idle _ hidle)
  case salt =>
    intro i hi
    rw [hstore (regAt_of_toNat (.salt i) hi rfl)]
    simp only [exec, execWr, regAt_regAddr, writeOperand_idle _ hidle]
    exact ⟨_, rfl, rfl, fun j => vector_set_getElem st.salt i j wdata⟩
  case key =>
    intro i hi
    rw [hstore (regAt_of_toNat (.key i) hi rfl)]
    simp only [exec, execWr, regAt_regAddr, writeOperand_idle _ hidle]
    exact ⟨_, rfl, rfl, fun j => vector_set_getElem st.key i j wdata⟩

theorem and_not_eq_ite (flag bit : Bool) : (flag && !bit) = if bit = true then false else flag := by
  cases bit <;> simp

/-- Settles O7: the next state is `writeOnesToClear`, each of whose seven bits is kept unless it is written 1. -/
theorem statusWriteClearsFlags : Obligations.StatusWriteClearsFlags := by
  unfold Obligations.StatusWriteClearsFlags
  intro st wdata
  exact ⟨_, exec_wr_status st wdata, rfl, and_not_eq_ite _ _, and_not_eq_ite _ _, and_not_eq_ite _ _,
    and_not_eq_ite _ _, and_not_eq_ite _ _, and_not_eq_ite _ _, and_not_eq_ite _ _⟩

/-- 44_host_commands.md R114: a write of a legal word to `CTRL` is the command. -/
theorem exec_wr_ctrl_command {w : Word} {c : Instr} (st : State) (h : decodeCmd w = .ok c) :
    exec (.wr 0x004#10 w) st = exec c st := by
  simp only [exec_wr_ctrl, writeCtrl_eq, h]

/-- Settles O9: the words 0 to 7 are the encodings of the eight commands, so they decode to them. -/
theorem ctrlWriteIsTheCommand : Obligations.CtrlWriteIsTheCommand := by
  unfold Obligations.CtrlWriteIsTheCommand
  have hcmd (c : Instr) (w : Word) (h : encode c = .cmd w) : decodeCmd w = .ok c := by
    have hdec := decode_encode c
    rwa [h] at hdec
  exact fun st => ⟨exec_wr_ctrl_command st (hcmd .nop _ rfl), exec_wr_ctrl_command st (hcmd .init _ rfl),
    exec_wr_ctrl_command st (hcmd .encipher _ rfl), exec_wr_ctrl_command st (hcmd .keyPw _ rfl),
    exec_wr_ctrl_command st (hcmd .keySalt _ rfl), exec_wr_ctrl_command st (hcmd .ekskey _ rfl),
    exec_wr_ctrl_command st (hcmd .crypt _ rfl), exec_wr_ctrl_command st (hcmd .abort _ rfl)⟩

/-! ## Dispatch -/

/-- 44_host_commands.md R114 step 6. -/
theorem dispatch_accepted {n : Needs} {st : State} (start : State → State) (hidle : st.busy = false)
    (hs : badSeq n st = false) (hl : badLen n st = false) (hc : badCost n st = false) :
    dispatch n start st = start st := by
  simp only [dispatch, hidle, hs, hl, hc, Bool.false_eq_true, Bool.or_self, if_false]

/-- 44_host_commands.md R114 step 5. -/
theorem dispatch_refused {n : Needs} {st : State} (start : State → State) (hidle : st.busy = false)
    (h : (badSeq n st || badLen n st || badCost n st) = true) : dispatch n start st = refuseCommand n st := by
  simp only [dispatch, hidle, h, Bool.false_eq_true, if_false, if_true]

theorem keylenLegal_eq_false {st : State} (h : ¬ (1 ≤ st.keylen.toNat ∧ st.keylen.toNat ≤ 72)) :
    keylenLegal st = false := decide_eq_false h

theorem costLegal_eq_false {st : State} (h : ¬ (4 ≤ st.cost.toNat ∧ st.cost.toNat ≤ 31)) : costLegal st = false :=
  decide_eq_false h

section
variable {st : State} (hidle : st.busy = false)
include hidle

theorem exec_init_accepted : exec .init st = .next (startInit (accept .init st)) :=
  congrArg Host.Outcome.next (dispatch_accepted _ hidle rfl rfl rfl)

theorem exec_encipher_accepted (hpsv : st.psv = true) :
    exec .encipher st = .next (startEncipher (accept .encipher st)) :=
  congrArg Host.Outcome.next (dispatch_accepted _ hidle (by simp only [badSeq, hpsv]; rfl) rfl rfl)

theorem exec_keySalt_accepted (hpsv : st.psv = true) :
    exec .keySalt st = .next (startSched .ksalt (accept .keySalt st)) :=
  congrArg Host.Outcome.next (dispatch_accepted _ hidle (by simp only [badSeq, hpsv]; rfl) rfl rfl)

theorem exec_keyPw_accepted (hpsv : st.psv = true) (hk : 1 ≤ st.keylen.toNat ∧ st.keylen.toNat ≤ 72) :
    exec .keyPw st = .next (startSched .kpw (accept .keyPw st)) :=
  congrArg Host.Outcome.next (dispatch_accepted _ hidle (by simp only [badSeq, hpsv]; rfl)
    (by simp only [badLen, (keylenLegal_iff st).mpr hk]; rfl) rfl)

theorem exec_ekskey_accepted (hpsv : st.psv = true) (hk : 1 ≤ st.keylen.toNat ∧ st.keylen.toNat ≤ 72) :
    exec .ekskey st = .next (startSched .eks (accept .ekskey st)) :=
  congrArg Host.Outcome.next (dispatch_accepted _ hidle (by simp only [badSeq, hpsv]; rfl)
    (by simp only [badLen, (keylenLegal_iff st).mpr hk]; rfl) rfl)

theorem exec_crypt_accepted (hk : 1 ≤ st.keylen.toNat ∧ st.keylen.toNat ≤ 72)
    (hc : 4 ≤ st.cost.toNat ∧ st.cost.toNat ≤ 31) : exec .crypt st = .next (startInit (accept .crypt st)) :=
  congrArg Host.Outcome.next (dispatch_accepted _ hidle rfl (by simp only [badLen, (keylenLegal_iff st).mpr hk]; rfl)
    (by simp only [badCost, (costLegal_iff st).mpr hc]; rfl))

end

/-- Settles O10: each of the six is accepted, and its start is the assignment of the statement. -/
theorem acceptanceOfCommands : Obligations.AcceptanceOfCommands := by
  unfold Obligations.AcceptanceOfCommands
  exact fun st hidle => ⟨⟨_, exec_init_accepted hidle, rfl⟩, fun hpsv => exec_encipher_accepted hidle hpsv,
    fun hpsv h1 h72 => exec_keyPw_accepted hidle hpsv ⟨h1, h72⟩, fun hpsv => exec_keySalt_accepted hidle hpsv,
    fun hpsv h1 h72 => exec_ekskey_accepted hidle hpsv ⟨h1, h72⟩,
    fun h1 h72 h4 h31 => ⟨_, exec_crypt_accepted hidle ⟨h1, h72⟩ ⟨h4, h31⟩, rfl⟩⟩

/-- The refusal of a command, as the state in which the flags of the checks that fail are set. -/
theorem next_dispatch_refused {n : Needs} {st t : State} (start : State → State) (hidle : st.busy = false)
    (hbad : (badSeq n st || badLen n st || badCost n st) = true) (ht : refuseCommand n st = t) :
    Host.Outcome.next (φ := Fault) (ρ := Refusal) (dispatch n start st) = .next t := by
  rw [dispatch_refused start hidle hbad, ht]

/-- Settles O12: each command is a dispatch that is refused; the checks it has say which flags `refuseCommand` sets. -/
theorem preconditionsRaiseTheirFlags : Obligations.PreconditionsRaiseTheirFlags := by
  unfold Obligations.PreconditionsRaiseTheirFlags
  intro st hidle
  have legal (hk : 1 ≤ st.keylen.toNat ∧ st.keylen.toNat ≤ 72) : keylenLegal st = true := (keylenLegal_iff st).mpr hk
  refine ⟨fun hpsv => ?_, fun hpsv => ?_, ?keyed, fun hk hc => ?_, fun hk hc => ?_, fun hk hc => ?_⟩
  case keyed =>
    rintro c (rfl | rfl)
    all_goals
      refine ⟨fun hpsv hk => ?_, fun hpsv hk => ?_, fun hpsv hk => ?_⟩
      · refine next_dispatch_refused _ hidle ?_ ?_ <;>
          simp [refuseCommand, badSeq, badLen, badCost, hpsv, legal hk]
      · refine next_dispatch_refused _ hidle ?_ ?_ <;>
          simp [refuseCommand, badSeq, badLen, badCost, hpsv, keylenLegal_eq_false hk]
      · refine next_dispatch_refused _ hidle ?_ ?_ <;>
          simp [refuseCommand, badSeq, badLen, badCost, hpsv, keylenLegal_eq_false hk]
  · refine next_dispatch_refused _ hidle ?_ ?_ <;> simp [refuseCommand, badSeq, badLen, badCost, hpsv]
  · refine next_dispatch_refused _ hidle ?_ ?_ <;> simp [refuseCommand, badSeq, badLen, badCost, hpsv]
  · refine next_dispatch_refused _ hidle ?_ ?_ <;>
      simp [refuseCommand, badSeq, badLen, badCost, keylenLegal_eq_false hk, (costLegal_iff st).mpr hc]
  · refine next_dispatch_refused _ hidle ?_ ?_ <;>
      simp [refuseCommand, badSeq, badLen, badCost, legal hk, costLegal_eq_false hc]
  · refine next_dispatch_refused _ hidle ?_ ?_ <;>
      simp [refuseCommand, badSeq, badLen, badCost, keylenLegal_eq_false hk, costLegal_eq_false hc]

/-- Settles O13: the next state is written out in `execAbort`. -/
theorem abortClearsTheEngine : Obligations.AbortClearsTheEngine := by
  unfold Obligations.AbortClearsTheEngine
  exact fun st => ⟨_, rfl, fun i => Vector.getElem_replicate i.isLt, rfl⟩

end Sys2Proof.Machine
/-! PROOFS. The clock step (44_host_commands.md R110). `Cycle` names the five ways a step can answer, with what each
gives; the statements about one cycle are cases over it. -/

namespace Sys2Proof.Machine

/-! ## The five cycles -/

/-- The host part of a cycle without reset: the access, if there is one. -/
def hostPart (st : State) : Host.Outcome State Fault Refusal :=
  match fetchHost (currentPorts st) with
  | none => .next (beginCycle st)
  | some h => exec h (beginCycle st)

theorem hostPart_none {st : State} (h : fetchHost (currentPorts st) = none) : hostPart st = .next (beginCycle st) := by
  simp only [hostPart, h]

theorem hostPart_some {st : State} {i : Instr} (h : fetchHost (currentPorts st) = some i) :
    hostPart st = exec i (beginCycle st) := by
  simp only [hostPart, h]

/-- How a step from `st` can answer `t`. -/
inductive Cycle (st t : State) : Prop where
  /-- the reset cycle -/
  | reset (hrst : (currentPorts st).rst = true) (ht : t = resetCycle (beginCycle st))
  /-- no transaction on an idle core -/
  | quiet (hrst : (currentPorts st).rst = false) (hidle : st.busy = false) (hnone : fetchHost (currentPorts st) = none)
      (ht : t = beginCycle st)
  /-- a transaction on an idle core -/
  | access (h : Instr) (hrst : (currentPorts st).rst = false) (hidle : st.busy = false)
      (hfetch : fetchHost (currentPorts st) = some h) (hexec : exec h (beginCycle st) = .next t)
  /-- the abort of a running command -/
  | abort (hrst : (currentPorts st).rst = false) (hbusy : st.busy = true) (habort : abortNow (currentPorts st))
      (hexec : exec .abort (beginCycle st) = .next t)
  /-- a micro-operation, with whatever the host does besides: `th` is the host part's state, `te` the engine's -/
  | engine (th te : State) (hbusy : st.busy = true) (hquiet : undisturbed (currentPorts st))
      (hth : th = takeHost th (beginCycle st)) (hdone : th.done = true → st.done = true)
      (hinputs : th.inputs = st.inputs.tail) (hirq : th.out.irq = irqLine st)
      (hhost : hostPart st = .next th)
      (hte : exec (phaseInstr st.phase) (beginCycle st) = .next te) (ht : t = afterHost th te)

/-- `step_busy`, with the host part by name. -/
theorem step_engine_part {st : State} (hb : st.busy = true) (hu : undisturbed (currentPorts st)) :
    ∃ th, hostPart st = .next th ∧ th = takeHost th (beginCycle st) ∧ (th.done = true → st.done = true)
      ∧ th.inputs = st.inputs.tail ∧ th.out.irq = irqLine st
      ∧ ∀ te, exec (phaseInstr st.phase) (beginCycle st) = .next te → step st = .next (afterHost th te) := by
  obtain ⟨th, hth, hdone, hin, hirq, hnone, hsome, hstep⟩ := step_busy st hb hu
  refine ⟨th, ?_, hth, hdone, hin, hirq, fun te hte => by rw [hstep, hte]⟩
  cases hf : fetchHost (currentPorts st) with
  | none => rw [hostPart_none hf, hnone hf]
  | some i => rw [hostPart_some hf, hsome i hf]

theorem cycle_of_step {st t : State} (h : step st = .next t) : Cycle st t := by
  obtain ⟨hr, e⟩ | ⟨hr, hb, ⟨hf, e⟩ | ⟨i, hf, e⟩⟩ | ⟨hr, hb, ha, e⟩ | ⟨hb, hu⟩ := step_cases st
  · rw [e] at h
    exact .reset hr (by cases h; rfl)
  · rw [e] at h
    exact .quiet hr hb hf (by cases h; rfl)
  · exact .access i hr hb hf (e ▸ h)
  · exact .abort hr hb ha (e ▸ h)
  · obtain ⟨th, hhost, hth, hdone, hin, hirq, hstep⟩ := step_engine_part hb hu
    have hanswer : ∃ te, exec (phaseInstr st.phase) (beginCycle st) = .next te := by
      obtain ⟨_, _, _, _, _, _, _, e⟩ := step_busy st hb hu
      rw [e] at h
      split at h
      next te hte => exact ⟨te, hte⟩
      next => cases h
      next => cases h
    obtain ⟨te, hte⟩ := hanswer
    exact .engine th te hb hu hth hdone hin hirq hhost hte (Host.Outcome.next.inj (h.symm.trans (hstep te hte)))

/-- An engine cycle whose micro-operation answers has a next state. -/
theorem step_of_engine {st te : State} (hb : st.busy = true) (hu : undisturbed (currentPorts st))
    (hte : exec (phaseInstr st.phase) (beginCycle st) = .next te) :
    ∃ th, hostPart st = .next th ∧ step st = .next (afterHost th te) := by
  obtain ⟨th, hhost, -, -, -, -, hstep⟩ := step_engine_part hb hu
  exact ⟨th, hhost, hstep te hte⟩

theorem step_quiet {st : State} (hr : (currentPorts st).rst = false) (hf : fetchHost (currentPorts st) = none)
    (hb : st.busy = false) : step st = .next (beginCycle st) := by
  unfold step
  rw [hr, hf, fetchEngine_idle st hb]
  rfl

/-- The frame of the micro-operation of an engine cycle, seen from the pre-edge state. -/
theorem cycle_engine_frame {st te : State} (hb : st.busy = true)
    (hte : exec (phaseInstr st.phase) (beginCycle st) = .next te) : EngineFrame (beginCycle st) te :=
  engine_frame st.phase (beginCycle st) te hb hte

theorem beginCycle_of_inputs {st : State} {inp : PortIn} {rest : List PortIn} (h : st.inputs = inp :: rest) :
    currentPorts st = inp ∧ beginCycle st = { st with inputs := rest, out := ⟨0, st.ien && st.done⟩ } := by
  simp only [currentPorts, beginCycle, h, List.headD_cons, List.tail_cons, irqLine, and_self]

/-! ## Reset, and the decoded instruction -/

/-- Settles O2: the reset cycle of `step_reset`; the inputs consumed and the outputs driven are those of
`beginCycle`. -/
theorem resetCycleGivesResetState : Obligations.ResetCycleGivesResetState := by
  unfold Obligations.ResetCycleGivesResetState
  intro st inp rest hin hrst
  obtain ⟨hports, hbegin⟩ := beginCycle_of_inputs hin
  refine ⟨_, step_reset st (by rw [hports]; exact hrst), ?_⟩
  rw [hbegin]
  exact ⟨rfl, rfl, rfl⟩

/-- Settles O35: an idle core runs what `fetchHost` gives, a busy one without a transaction what the phase encodes, and
an idle one without a transaction `U_IDLE`. -/
theorem stepRunsTheDecodedInstruction : Obligations.StepRunsTheDecodedInstruction := by
  unfold Obligations.StepRunsTheDecodedInstruction
  refine ⟨?presented, fun st hr hs hw hb => step_idle st _ hr (fetchHost_read hs hw) hb, ?engine, ?quiet⟩
  case presented =>
    intro st i w rest hwf hw hin hb
    obtain ⟨hports, hbegin⟩ := beginCycle_of_inputs hin
    rw [← hbegin]
    refine step_idle st i ?_ ?_ hb
    · rw [hports]
      rfl
    · rw [hports]
      exact fetchHost_of_accessWord hwf hw
  case engine =>
    intro st i hr hs hb hi
    obtain rfl : phaseInstr st.phase = i := Except.ok.inj ((decodeUop_phaseCode st.phase).symm.trans hi)
    rw [step_noTransaction st hr hs, fetchEngine_busy st hb]
    rfl
  case quiet =>
    intro st hr hs hb
    rw [step_noTransaction st hr hs, fetchEngine_idle st hb]
    rfl

/-! ## Simultaneous parts -/

/-- Settles O36: `step_busy` with its host part the given `th`; what the micro-operation leaves alone is its frame. -/
theorem stepIsSimultaneous : Obligations.StepIsSimultaneous := by
  unfold Obligations.StepIsSimultaneous
  intro st te th h hb hr hf ha hth hte
  have hu : undisturbed (currentPorts st) :=
    ⟨hr, fun habort => ha (Option.some.inj (hf.symm.trans ((fetchHost_abort_iff _).mpr habort)))⟩
  obtain ⟨th', hhost, hframe, -, hinputs, -, hstep⟩ := step_engine_part hb hu
  rw [hostPart_some hf] at hhost
  obtain rfl : th' = th := Host.Outcome.next.inj (hhost.symm.trans hth)
  have hengine := cycle_engine_frame hb hte
  have hin : th'.inputs = te.inputs := hinputs.trans hengine.inputs.symm
  refine ⟨⟨_, hstep te hte, ?_⟩, ?host, ?engine⟩
  · simp only [afterHost, takeHost, hin]
  case host =>
    have hin' : th'.inputs = (beginCycle st).inputs := hinputs
    conv => lhs; rw [hframe]
    simp only [takeHost, hin']
  case engine =>
    obtain ⟨-, -, -, -, hien, hop, hbusy, hcost, hkeylen, hseq, haddr, -, -, -, hout, -, -⟩ := hengine
    simp only [beginCycle_ien, beginCycle_eOp, beginCycle_eBusy, beginCycle_eCost, beginCycle_eKeylen, beginCycle_eSeq,
      beginCycle_eAddr] at hien hop hbusy hcost hkeylen hseq haddr
    rw [← hien, ← hop, ← hbusy, ← hcost, ← hkeylen, ← hseq, ← haddr, ← hout]

/-- Settles O37: `step_abort`, and the next state of `execAbort`. -/
theorem abortSuppressesTheEngine : Obligations.AbortSuppressesTheEngine := by
  unfold Obligations.AbortSuppressesTheEngine
  intro st hr ha
  have hstep := step_abort st hr ha
  exact ⟨hstep, _, hstep, rfl, rfl, rfl⟩

/-! ## The interrupt line -/

/-- Settles O38: `beginCycle` drives the line, and neither part of a cycle changes it after that. -/
theorem irqIsEnabledDone : Obligations.IrqIsEnabledDone := by
  unfold Obligations.IrqIsEnabledDone
  intro st t hstep
  cases cycle_of_step hstep with
  | reset _ ht => subst ht; rfl
  | quiet _ _ _ ht => subst ht; rfl
  | access h _ hidle hfetch hexec =>
    obtain ⟨t', hexec', hirq, -⟩ := exec_host_idle _ h (beginCycle st) hfetch hidle
    obtain rfl : t' = t := Host.Outcome.next.inj (hexec'.symm.trans hexec)
    exact hirq
  | abort _ _ _ hexec => cases hexec; rfl
  | engine th te _ _ _ _ _ hirq _ _ ht =>
    subst ht
    exact hirq

/-! ## The error flags -/

/-- An error flag of a state. -/
def errFlag : ErrFlag → State → Bool
  | .op => State.eOp | .busy => State.eBusy | .cost => State.eCost | .keylen => State.eKeylen | .seq => State.eSeq
  | .addr => State.eAddr

/-- The bit of an error flag in `STATUS` (10_state.md R20). -/
def errBit : ErrFlag → Nat
  | .op => 8 | .busy => 9 | .cost => 10 | .keylen => 11 | .seq => 12 | .addr => 13

theorem errFlag_raise (e e' : ErrFlag) (st : State) : errFlag e (raise e' st) = (errFlag e st || decide (e = e')) := by
  cases e <;> cases e' <;> simp [errFlag, raise]

theorem errFlag_writeOnesToClear (e : ErrFlag) (w : Word) (st : State) :
    errFlag e (writeOnesToClear w st) = (errFlag e st && !w.getLsbD (errBit e)) := by
  cases e <;> rfl

/-- An error flag depends on the six flags of the state alone. -/
theorem errFlag_afterHost (e : ErrFlag) (x st : State) : errFlag e (afterHost x st) = errFlag e x := by
  cases e <;> rfl

/-- No error flag falls from `s` to `t`. -/
def FlagsKept (s t : State) : Prop := ∀ e, errFlag e s = true → errFlag e t = true

theorem FlagsKept.of_eq {s t : State} (h : ∀ e, errFlag e t = errFlag e s) : FlagsKept s t := fun e he => (h e).trans he

theorem flagsKept_raise (e : ErrFlag) (st : State) : FlagsKept st (raise e st) := by
  intro e' h
  rw [errFlag_raise, h, Bool.true_or]

/-- A dispatch whose start leaves the flags alone can only set flags. -/
theorem flagsKept_dispatch {n : Needs} {start : State → State} {st : State}
    (hstart : ∀ e, errFlag e (start st) = errFlag e st) : FlagsKept st (dispatch n start st) := by
  obtain ⟨_, e⟩ | ⟨_, _, e⟩ | ⟨_, _, _, _, e⟩ := dispatch_cases n start st <;> rw [e]
  · exact flagsKept_raise .busy st
  · intro e h
    cases e <;> simp_all [errFlag, refuseCommand]
  · exact .of_eq hstart

theorem flagsKept_writeOperand {store : State → State} {st : State}
    (hstore : ∀ e, errFlag e (store st) = errFlag e st) : FlagsKept st (writeOperand store st) := by
  obtain ⟨_, e⟩ | ⟨_, e⟩ := writeOperand_cases store st <;> rw [e]
  · exact flagsKept_raise .busy st
  · exact .of_eq hstore

/-- No command lowers an error flag. -/
theorem flagsKept_of_decodeCmd {w : Word} {c : Instr} {st t : State} (hc : decodeCmd w = .ok c)
    (h : exec c st = .next t) : FlagsKept st t := by
  rcases decodeCmd_cases w with ⟨_, hd⟩ | ⟨_, hd⟩ | ⟨_, hd⟩ | ⟨_, hd⟩ | ⟨_, hd⟩ | ⟨_, hd⟩ | ⟨_, hd⟩ | ⟨_, hd⟩ | ⟨_, hd⟩ <;>
    cases hd.symm.trans hc <;> cases h
  case inl => exact .of_eq fun _ => rfl
  case inr.inr.inr.inr.inr.inr.inr.inl => exact .of_eq fun e => by cases e <;> rfl
  all_goals exact flagsKept_dispatch fun e => by cases e <;> rfl

/-- 60_exceptions.md R130: of all accesses only the `STATUS` write lowers an error flag. -/
theorem flagsKept_of_wr {addr : BitVec 10} {wdata : Word} {st t : State} (h : exec (.wr addr wdata) st = .next t) :
    FlagsKept st t ∨ (addr = 0x008#10 ∧ t = writeOnesToClear wdata st) := by
  cases hreg : regAt addr with
  | none =>
    simp only [exec, execWr, hreg] at h
    cases h
    exact .inl (flagsKept_raise .addr st)
  | some reg =>
    have haddr := regAddr_of_regAt addr reg hreg
    simp only [exec, execWr, hreg] at h
    cases reg with
    | id | ctext i => cases h; exact .inl (flagsKept_raise .addr st)
    | ctrl =>
      simp only [writeCtrl_eq] at h
      split at h
      next c hc => exact .inl (flagsKept_of_decodeCmd hc h)
      next => cases h; exact .inl (flagsKept_raise .op st)
    | status => cases h; exact .inr ⟨haddr.symm, rfl⟩
    | ien => cases h; exact .inl (.of_eq fun e => by cases e <;> rfl)
    | cost | keylen | salt i | lr0 | lr1 | key i =>
      cases h
      exact .inl (flagsKept_writeOperand fun e => by cases e <;> rfl)

theorem flagsKept_of_rd {addr : BitVec 10} {st t : State} (h : exec (.rd addr) st = .next t) : FlagsKept st t := by
  simp only [exec, execRd] at h
  split at h <;> cases h
  · exact .of_eq fun e => by cases e <;> rfl
  · intro e he
    rw [errFlag_raise, Bool.or_eq_true]
    exact .inl (by cases e <;> exact he)

/-- A flag that falls in an access was written 1 in `STATUS`. -/
theorem status_write_of_flag_falls {inp : PortIn} {h : Instr} {st t : State} {e : ErrFlag}
    (hf : fetchHost inp = some h) (hexec : exec h st = .next t) (h1 : errFlag e st = true) (h0 : errFlag e t = false) :
    inp.sel = true ∧ inp.wr = true ∧ inp.addr = 0x008#10 ∧ inp.wdata.getLsbD (errBit e) = true := by
  have hfalls : ¬ FlagsKept st t := fun hk => by rw [hk e h1] at h0; cases h0
  have hwrite {addr wdata} (hw : exec (.wr addr wdata) st = .next t) :
      addr = 0x008#10 ∧ wdata.getLsbD (errBit e) = true := by
    obtain hk | ⟨ha, rfl⟩ := flagsKept_of_wr hw
    · exact absurd hk hfalls
    · rw [errFlag_writeOnesToClear, h1] at h0
      exact ⟨ha, by simpa using h0⟩
  obtain ⟨hsel, hcases⟩ := fetchHost_cases inp h hf
  obtain ⟨_, rfl⟩ | ⟨hwr, _, rfl⟩ | ⟨hwr, _, _, rfl⟩ | ⟨_, _, hc⟩ := hcases
  · exact absurd (flagsKept_of_rd hexec) hfalls
  · exact ⟨hsel, hwr, hwrite hexec⟩
  · exact ⟨hsel, hwr, hwrite hexec⟩
  · exact absurd (flagsKept_of_decodeCmd hc hexec) hfalls

/-- The flags of the list of O39, by name. -/
theorem exists_errFlag_of_mem {n : Nat} {f : State → Bool}
    (h : (n, f) ∈ [(8, State.eOp), (9, State.eBusy), (10, State.eCost), (11, State.eKeylen), (12, State.eSeq),
      (13, State.eAddr)]) : ∃ e, errBit e = n ∧ errFlag e = f := by
  simp only [List.mem_cons, Prod.mk.injEq, List.not_mem_nil, or_false] at h
  obtain ⟨rfl, rfl⟩ | ⟨rfl, rfl⟩ | ⟨rfl, rfl⟩ | ⟨rfl, rfl⟩ | ⟨rfl, rfl⟩ | ⟨rfl, rfl⟩ := h
  exacts [⟨.op, rfl, rfl⟩, ⟨.busy, rfl, rfl⟩, ⟨.cost, rfl, rfl⟩, ⟨.keylen, rfl, rfl⟩, ⟨.seq, rfl, rfl⟩,
    ⟨.addr, rfl, rfl⟩]

/-- Without reset, a flag is that of the pre-edge state, or an access of the cycle has changed it. -/
theorem errFlag_cycle {st t : State} (hr : (currentPorts st).rst = false) (h : Cycle st t) (e : ErrFlag) :
    errFlag e t = errFlag e (beginCycle st)
      ∨ ∃ i th, fetchHost (currentPorts st) = some i ∧ exec i (beginCycle st) = .next th ∧ errFlag e th = errFlag e t := by
  cases h with
  | reset hrst => rw [hr] at hrst; cases hrst
  | quiet _ _ _ ht => exact .inl (by rw [ht])
  | access i _ _ hf hexec => exact .inr ⟨i, t, hf, hexec, rfl⟩
  | abort _ _ ha hexec => exact .inr ⟨.abort, t, (fetchHost_abort_iff _).mpr ha, hexec, rfl⟩
  | engine th te _ _ _ _ _ _ hhost _ ht =>
    subst ht
    rw [errFlag_afterHost]
    cases hf : fetchHost (currentPorts st) with
    | none => exact .inl (by cases (hostPart_none hf).symm.trans hhost; rfl)
    | some i => exact .inr ⟨i, th, rfl, (hostPart_some hf).symm.trans hhost, rfl⟩

/-- Settles O39: a flag changes only through an access, and of the accesses only the `STATUS` write lowers one. -/
theorem errorFlagsAreSticky : Obligations.ErrorFlagsAreSticky := by
  unfold Obligations.ErrorFlagsAreSticky
  rintro st t _ rfl hr hstep n f hmem
  obtain ⟨e, rfl, rfl⟩ := exists_errFlag_of_mem hmem
  have hbegin : errFlag e (beginCycle st) = errFlag e st := by cases e <;> rfl
  obtain heq | ⟨i, th, hf, hexec, heq⟩ := errFlag_cycle hr (cycle_of_step hstep) e
  · rw [heq, hbegin]
    exact ⟨fun h1 h0 => Bool.noConfusion (h1.symm.trans h0), fun _ => rfl⟩
  · rw [← heq, ← hbegin]
    refine ⟨status_write_of_flag_falls hf hexec, fun hsel => ?_⟩
    rw [(fetchHost_cases _ i hf).1] at hsel
    cases hsel

/-! ## What the host cannot reach -/

/-- Settles O40: an abort and the two parts of an engine cycle leave the operands alone. -/
theorem operandsAreFrozenWhileBusy : Obligations.OperandsAreFrozenWhileBusy := by
  unfold Obligations.OperandsAreFrozenWhileBusy
  intro st t hb hr hstep
  cases cycle_of_step hstep with
  | reset hrst => rw [hr] at hrst; cases hrst
  | quiet _ hidle => rw [hb] at hidle; cases hidle
  | access _ _ hidle => rw [hb] at hidle; cases hidle
  | abort _ _ _ hexec => cases hexec; exact ⟨rfl, rfl, rfl, rfl⟩
  | engine th te _ _ _ _ _ _ _ hte ht =>
    subst ht
    have hframe := cycle_engine_frame hb hte
    exact ⟨hframe.cost, hframe.keylen, hframe.salt, hframe.key⟩

/-- Settles O41: what would change `P` or `S` of an idle core (reset, `ABORT`, the start of `INIT` and `CRYPT`) clears
`PSV`; the other accesses touch neither. -/
theorem hostCannotReachTheSchedule : Obligations.HostCannotReachTheSchedule := by
  unfold Obligations.HostCannotReachTheSchedule
  intro st t hidle hstep hpsv
  cases cycle_of_step hstep with
  | reset _ ht => subst ht; cases hpsv
  | quiet _ _ _ ht => subst ht; exact ⟨rfl, hpsv⟩
  | access h _ _ hf hexec =>
    obtain ⟨t', hexec', -, hcases⟩ := exec_host_idle _ h (beginCycle st) hf hidle
    obtain rfl : t' = t := Host.Outcome.next.inj (hexec'.symm.trans hexec)
    obtain ht | ⟨_, rfl⟩ | ⟨_, hp, rfl⟩ | ⟨_, hp, _, rfl⟩ | ⟨_, hp, rfl⟩ | ⟨_, hp, _, rfl⟩ | ⟨_, _, _, rfl⟩ | ⟨_, habort⟩ :=
      hcases
    · rw [ht] at hpsv ⊢
      exact ⟨rfl, hpsv⟩
    · cases hpsv
    · exact ⟨rfl, hp⟩
    · exact ⟨rfl, hp⟩
    · exact ⟨rfl, hp⟩
    · exact ⟨rfl, hp⟩
    · cases hpsv
    · cases habort
      cases hpsv
  | abort _ hb => rw [hidle] at hb; cases hb
  | engine _ _ hb => rw [hidle] at hb; cases hb

/-! ## What a read hides -/

/-- 60_exceptions.md R142: the value of a register as the bus shows it. -/
theorem readReg_of_hostAgree {s t : State} (h : HostAgree s t) (reg : Reg) : readReg s reg = readReg t reg := by
  obtain ⟨hbusy, hdone, hpsv, h1, h2, h3, h4, h5, h6, hop, hphase, hien, hcost, hkeylen, hsalt, hhidden⟩ := h
  have hide {u v : Word} (huv : s.busy = false → v = u) : hiddenWhileBusy s u = hiddenWhileBusy t v := by
    unfold hiddenWhileBusy
    rw [hbusy]
    split
    · rfl
    · exact (huv (by simpa using ‹¬ s.busy = true›)).symm
  cases reg with
  | id | ctrl | key i => rfl
  | status => simp only [readReg, statusWord, hbusy, hdone, hpsv, h1, h2, h3, h4, h5, h6, hop, hphase]
  | ien => simp only [readReg, hien]
  | cost => exact hcost.symm
  | keylen => exact hkeylen.symm
  | salt i => simp only [readReg, hsalt]
  | lr0 => exact hide fun hidle => (hhidden hidle).1
  | lr1 => exact hide fun hidle => (hhidden hidle).2.1
  | ctext i => exact hide fun hidle => by rw [(hhidden hidle).2.2]

/-- Settles O47: a read answers `readValue`, which is the value of a register or 0. -/
theorem readsHideSecrets : Obligations.ReadsHideSecrets := by
  unfold Obligations.ReadsHideSecrets
  intro s t h
  refine ⟨fun addr => ?_, ?_⟩
  · obtain ⟨s', hs, hsdata⟩ := exec_rd_rdata s addr
    obtain ⟨t', ht, htdata⟩ := exec_rd_rdata t addr
    refine ⟨s', t', hs, ht, ?_⟩
    rw [hsdata, htdata]
    unfold readValue
    cases regAt addr with
    | none => rfl
    | some reg => exact readReg_of_hostAgree h reg
  · obtain ⟨-, hdone, -, -, -, -, -, -, -, -, -, hien, -⟩ := h
    rw [irqLine, irqLine, hdone, hien]

end Sys2Proof.Machine
/-! PROOFS. The sequencer's invariant (10_state.md R24, R25; 43_costloop.md R108). What each micro-operation does from a
state with the invariant is said once, in `EngineOk`; the invariant along a run, the table of transitions and what
changes `CTEXT` are read off it. -/

namespace Sys2Proof.Machine

/-! ## The invariant, taken apart -/

/-- The iteration counter while the cost loop runs (10_state.md R25). -/
def IterInv (st : State) : Prop :=
  st.op = .crypt → st.sched = .kpw ∨ st.sched = .ksalt → 1 ≤ st.iter.toNat ∧ st.iter.toNat ≤ 2 ^ st.cost.toNat

/-- What a micro-operation makes of a state with the invariant. -/
structure EngineOk (st te : State) : Prop where
  phaseInv : PhaseInv te
  iterInv : te.busy = true → IterInv te
  table : te.phase = tableNextPhase st
  ctext : st.op ≠ .crypt → te.ctext = st.ctext

theorem SeqInv.phaseInv {st : State} (h : SeqInv st) : PhaseInv st := h.1

theorem SeqInv.done {st : State} (h : SeqInv st) (hb : st.busy = true) : st.done = false := (h.2 hb).1

theorem SeqInv.operandInv {st : State} (h : SeqInv st) (hb : st.busy = true) : OperandInv st := (h.2 hb).2

theorem SeqInv.iterInv {st : State} (h : SeqInv st) (hb : st.busy = true) : IterInv st := (h.operandInv hb).2.2

/-- 10_state.md R24: an idle core is in `PH_IDLE`, and only an idle core is. -/
theorem PhaseInv.idle_iff {st : State} (h : PhaseInv st) : st.busy = false ↔ st.phase = .idle := by
  unfold PhaseInv at h
  split at h <;> simp_all

theorem PhaseInv.sched_of_idle {st : State} (h : PhaseInv st) (hidle : st.busy = false) : st.sched = .none := by
  have hp := h.idle_iff.mp hidle
  simp only [PhaseInv, hp] at h
  exact h.2

/-- An idle core in `PH_IDLE` without a schedule run has the invariant, whatever else it holds. -/
theorem seqInv_of_idle {st : State} (hb : st.busy = false) (hp : st.phase = .idle) (hs : st.sched = .none) :
    SeqInv st := by
  refine ⟨?_, fun hbusy => Bool.noConfusion (hb.symm.trans hbusy)⟩
  simp only [PhaseInv, hp]
  exact ⟨hb, hs⟩

/-- A kind of run over the key bytes belongs to a command that checked `KEYLEN` (44_host_commands.md R114). -/
theorem keylen_of_runsKind {st : State} (hop : OperandInv st) (hrun : runsKind st.op st.sched)
    (hs : st.sched ≠ .ksalt) : 1 ≤ st.keylen.toNat ∧ st.keylen.toNat ≤ 72 := by
  refine hop.1 ?_
  cases ho : st.op <;> simp_all [runsKind]

theorem runsKind_ne_none {st : State} (hrun : runsKind st.op st.sched) : st.sched ≠ .none := by
  cases ho : st.op <;> simp_all [runsKind]

theorem rnd_one_legal : 1 ≤ (1 : BitVec 5).toNat ∧ (1 : BitVec 5).toNat ≤ 16 := by decide

/-! ## The micro-operations -/

section
variable {st : State} (hinv : SeqInv st) (hb : st.busy = true)
include hinv hb

theorem uInit_ok (hp : st.phase = .init) : ∃ te, exec .uInit st = .next te ∧ EngineOk st te := by
  have h := hinv.phaseInv
  simp only [PhaseInv, hp] at h
  obtain ⟨-, hpsv, ho, hs, hw⟩ := h
  obtain ⟨k, hk⟩ : ∃ k : Fin 1042, st.widx.toNat = k.val := ⟨⟨st.widx.toNat, by omega⟩, rfl⟩
  refine ⟨_, exec_uInit k hk, ?_⟩
  by_cases hlt : k.val < 1041
  · rw [if_pos hlt]
    have hnext : (st.widx + 1).toNat ≤ 1041 := by bv_omega
    refine ⟨?_, by simp [IterInv, hs], by simp [tableNextPhase, hp, hk, hlt], fun _ => rfl⟩
    simp only [PhaseInv, storeWord_phase, hp]
    exact ⟨hb, hpsv, ho, hs, hnext⟩
  · rw [if_neg hlt]
    obtain ho | ho := ho
    · rw [endInit_of_init (st := { storeWord k (romWord k) st with psv := true }) ho]
      exact ⟨by simp [PhaseInv], by simp, by simp [tableNextPhase, hp, hk, hlt, ho], fun _ => rfl⟩
    · have hlen := (hinv.operandInv hb).1 (by simp [ho])
      rw [endInit_of_crypt (st := { storeWord k (romWord k) st with psv := true }) ho]
      exact ⟨by simp [PhaseInv, hb, runsKind, ho]; omega, by simp [IterInv],
        by simp [tableNextPhase, hp, hk, hlt, ho], fun _ => rfl⟩

theorem uXorp_ok (hp : st.phase = .xorp) : ∃ te, exec .uXorp st = .next te ∧ EngineOk st te := by
  have h := hinv.phaseInv
  simp only [PhaseInv, hp] at h
  obtain ⟨-, hpsv, hrun, hw, hk⟩ := h
  have hlen := keylen_of_runsKind (hinv.operandInv hb) hrun
  have hiter := hinv.iterInv hb
  obtain ⟨i, hi⟩ : ∃ i : Fin 18, st.widx.toNat = i.val := ⟨⟨st.widx.toNat, by omega⟩, rfl⟩
  refine ⟨_, exec_uXorp i hi (xorpOperand_eq hlen), ?_⟩
  by_cases hlt : i.val < 17
  · rw [if_pos hlt]
    have hnext : (st.widx + 1).toNat ≤ 17 := by bv_omega
    have hkoff (hs : st.sched ≠ .ksalt) : (nextKoff st).toNat < st.keylen.toNat := by
      rw [nextKoff_toNat st (hlen hs)]
      exact Nat.mod_lt _ (hlen hs).1
    refine ⟨?_, fun _ => hiter, by simp [tableNextPhase, hp, hi, hlt], fun _ => rfl⟩
    simp only [PhaseInv, hp]
    refine ⟨hb, hpsv, hrun, hnext, fun hs => ?_⟩
    rw [if_neg hs]
    exact hkoff hs
  · rw [if_neg hlt]
    have hne := runsKind_ne_none hrun
    refine ⟨?_, fun _ => hiter, by simp [tableNextPhase, hp, hi, hlt, blockPhase], fun _ => rfl⟩
    by_cases hs : st.sched = .eks
    · simp [PhaseInv, blockPhase, hs, hb, hpsv, inRun, pairIndex, saltIndexOk, hs ▸ hrun]
    · simp [PhaseInv, blockPhase, hs, hb, hpsv, inRun, pairIndex, saltIndexOk, hrun]

theorem uSalt_ok (hp : st.phase = .salt) : ∃ te, exec .uSalt st = .next te ∧ EngineOk st te := by
  have h := hinv.phaseInv
  simp only [PhaseInv, hp] at h
  obtain ⟨-, hpsv, ⟨hrun, hpair, hsalt⟩, hs⟩ := h
  refine ⟨_, rfl, ?_, fun _ => hinv.iterInv hb, by simp [tableNextPhase, hp], fun _ => rfl⟩
  have hsidx : st.sidx + 2 = 0 ∨ st.sidx + 2 = 2 := by
    obtain h | h := hsalt hs <;> simp [h]
  exact ⟨hb, hpsv, rnd_one_legal.1, rnd_one_legal.2, .inl ⟨hrun, hpair, fun _ => hsidx⟩⟩

theorem uRound_ok (hp : st.phase = .round) : ∃ te, exec .uRound st = .next te ∧ EngineOk st te := by
  have h := hinv.phaseInv
  simp only [PhaseInv, hp] at h
  obtain ⟨-, hpsv, h1, h16, hwhat⟩ := h
  obtain ⟨rnd, hr⟩ : ∃ rnd : Fin 18, st.rnd.toNat = rnd.val := ⟨⟨st.rnd.toNat, by omega⟩, rfl⟩
  have hiter := hinv.iterInv hb
  refine ⟨_, exec_uRound rnd hr (by omega) (by omega), ?_⟩
  by_cases hlt : rnd.val < 16
  · rw [if_pos hlt]
    have hnext : 1 ≤ (st.rnd + 1).toNat ∧ (st.rnd + 1).toNat ≤ 16 := by bv_omega
    refine ⟨?_, fun _ => hiter, by simp [tableNextPhase, hp, hr, hlt, withBlock], fun _ => rfl⟩
    simp only [PhaseInv, withBlock, hp]
    exact ⟨hb, hpsv, hnext.1, hnext.2, hwhat⟩
  · rw [if_neg hlt]
    by_cases hs : st.sched = .none
    · rw [if_neg (not_not.mpr hs)]
      by_cases ho : st.op = .encipher
      · rw [if_pos ho]
        exact ⟨by simp [PhaseInv], by simp, by simp [tableNextPhase, hp, hr, hlt, hs, ho], fun _ => rfl⟩
      · rw [if_neg ho]
        obtain ⟨hrun, -, -⟩ | hpasses | ⟨he, -⟩ := hwhat
        · exact absurd hs (runsKind_ne_none hrun)
        · exact ⟨⟨hb, hpsv, hpasses⟩, fun _ => hiter, by simp [tableNextPhase, hp, hr, hlt, hs, ho], fun _ => rfl⟩
        · exact absurd he ho
    · rw [if_pos hs]
      obtain hrun | ⟨-, hn, -⟩ | ⟨-, hn⟩ := hwhat
      · exact ⟨⟨hb, hpsv, hrun⟩, fun _ => hiter, by simp [tableNextPhase, hp, hr, hlt, hs], fun _ => rfl⟩
      · exact absurd hn hs
      · exact absurd hn hs

theorem uSt0_ok (hp : st.phase = .st0) : ∃ te, exec .uSt0 st = .next te ∧ EngineOk st te := by
  have h := hinv.phaseInv
  simp only [PhaseInv, hp] at h
  obtain ⟨-, hpsv, hrun⟩ := h
  have hw : st.widx.toNat < 1042 := Nat.lt_of_le_of_lt hrun.2.1.2 (by omega)
  exact ⟨_, exec_uSt0 st ⟨st.widx.toNat, hw⟩ rfl, ⟨hb, hpsv, hrun⟩, fun _ => hinv.iterInv hb,
    by simp [tableNextPhase, hp], fun _ => rfl⟩

/-- 43_costloop.md R96: after the last block of a run the command completes, or `CRYPT` starts the next run or goes on
to `U_CLOAD`; the iteration counter is loaded after the `SCH_EKS` run and counted down after each `SCH_KSALT` run. -/
theorem endSched_ok (hp : st.phase = .st1) (hw : ¬ st.widx.toNat < 1040) (k : Fin 1042) (v : Word) :
    EngineOk st (endSched (storeWord k v st)) := by
  have h := hinv.phaseInv
  simp only [PhaseInv, hp] at h
  obtain ⟨-, hpsv, hrun, -, -⟩ := h
  have hiter := hinv.iterInv hb
  obtain ⟨hlen, hcost, -⟩ := hinv.operandInv hb
  have hstart (ho : st.op = .crypt) : (0 : BitVec 7).toNat < st.keylen.toNat := (hlen (.inr (.inr ho))).1
  obtain ⟨ho, e⟩ | ⟨ho, hk, e⟩ | ⟨ho, hk, e⟩ | ⟨ho, hk, hi, e⟩ | ⟨ho, hk, hi, e⟩ | ⟨ho, e⟩ :=
    endSched_cases (storeWord k v st) <;>
    simp only [storeWord_op, storeWord_sched] at ho <;> rw [e]
  case inl =>
    refine ⟨⟨rfl, rfl⟩, by simp, ?_, fun _ => rfl⟩
    obtain ho | ho | ho := ho <;> simp [tableNextPhase, hp, hw, ho]
  case inr.inl =>
    have hcount : (iterationCount st).toNat = 2 ^ st.cost.toNat := iterationCount_toNat st (hcost ho).2
    refine ⟨⟨hb, hpsv, ?_, Nat.zero_le 17, fun _ => hstart ho⟩, fun _ _ _ => ?_, ?_, fun _ => rfl⟩
    · simp [runsKind, ho]
    · exact ⟨hcount ▸ Nat.one_le_two_pow, hcount.le⟩
    · rw [storeWord_sched] at hk
      simp [tableNextPhase, hp, hw, ho, hk]
  case inr.inr.inl =>
    rw [storeWord_sched] at hk
    refine ⟨⟨hb, hpsv, ?_, Nat.zero_le 17, fun hne => absurd rfl hne⟩, fun _ _ _ => hiter ho (.inl hk), ?_, fun _ => rfl⟩
    · simp [runsKind, ho]
    · simp [tableNextPhase, hp, hw, ho, hk]
  case inr.inr.inr.inl =>
    rw [storeWord_sched] at hk
    rw [storeWord_iter] at hi
    refine ⟨⟨hb, hpsv, ho, rfl⟩, by simp [IterInv], ?_, fun _ => rfl⟩
    simp [tableNextPhase, hp, hw, ho, hk, hi]
  case inr.inr.inr.inr.inl =>
    rw [storeWord_sched] at hk
    rw [storeWord_iter] at hi
    have hrange := hiter ho (.inr hk)
    have hpred : 1 ≤ (st.iter - 1).toNat ∧ (st.iter - 1).toNat ≤ 2 ^ st.cost.toNat := by
      have hne : st.iter.toNat ≠ 1 := fun h => hi (BitVec.eq_of_toNat_eq h)
      have hsub : (st.iter - 1).toNat = st.iter.toNat - 1 := BitVec.toNat_sub_of_le hrange.1
      omega
    have hi' : ¬ st.iter = 1#32 := hi
    refine ⟨⟨hb, hpsv, ?_, Nat.zero_le 17, fun _ => hstart ho⟩, fun _ _ _ => hpred, ?_, fun _ => rfl⟩
    · simp [runsKind, ho]
    · simp [tableNextPhase, hp, hw, ho, hk, hi']
  case inr.inr.inr.inr.inr =>
    refine absurd hrun ?_
    obtain ho | ho | ho | ⟨ho, hk⟩ := ho <;> simp_all [runsKind]

theorem uSt1_ok (hp : st.phase = .st1) : ∃ te, exec .uSt1 st = .next te ∧ EngineOk st te := by
  have h := hinv.phaseInv
  simp only [PhaseInv, hp] at h
  obtain ⟨-, hpsv, hrun, ⟨heven, hw⟩, hsalt⟩ := h
  obtain ⟨k, hk⟩ : ∃ k : Fin 1042, st.widx.toNat + 1 = k.val := ⟨⟨st.widx.toNat + 1, by omega⟩, rfl⟩
  refine ⟨_, exec_uSt1 k hk, ?_⟩
  by_cases hlt : k.val < 1041
  · rw [if_pos hlt]
    have hlt' : st.widx.toNat < 1040 := by omega
    have hnext : pairIndex (st.widx + 2) := by
      unfold pairIndex
      bv_omega
    have htable : blockPhase st.sched = tableNextPhase st := by simp [tableNextPhase, hp, hlt', blockPhase]
    refine ⟨?_, fun _ => hinv.iterInv hb, htable, fun _ => rfl⟩
    by_cases hs : st.sched = .eks
    · simp only [PhaseInv, blockPhase, storeWord_sched, if_pos hs]
      exact ⟨hb, hpsv, ⟨hrun, hnext, hsalt⟩, hs⟩
    · simp only [PhaseInv, blockPhase, storeWord_sched, if_neg hs]
      exact ⟨hb, hpsv, rnd_one_legal.1, rnd_one_legal.2, .inl ⟨hrun, hnext, hsalt⟩⟩
  · rw [if_neg hlt]
    exact endSched_ok hinv hb hp (by omega) k st.r

theorem uCload_ok (hp : st.phase = .cload) : ∃ te, exec .uCload st = .next te ∧ EngineOk st te := by
  have h := hinv.phaseInv
  simp only [PhaseInv, hp] at h
  obtain ⟨-, hpsv, ho, hs⟩ := h
  exact ⟨_, rfl, ⟨hb, hpsv, ho, hs, Nat.zero_le 2⟩, fun _ => hinv.iterInv hb, by simp [tableNextPhase, hp],
    fun hne => absurd ho hne⟩

theorem uBld_ok (hp : st.phase = .bld) : ∃ te, exec .uBld st = .next te ∧ EngineOk st te := by
  have h := hinv.phaseInv
  simp only [PhaseInv, hp] at h
  obtain ⟨-, hpsv, hpasses⟩ := h
  have hc : st.chunk.toNat < 3 := Nat.lt_succ_of_le hpasses.2.2
  exact ⟨_, exec_uBld ⟨st.chunk.toNat, hc⟩ rfl, ⟨hb, hpsv, rnd_one_legal.1, rnd_one_legal.2, .inr (.inl hpasses)⟩,
    fun _ => hinv.iterInv hb, by simp [tableNextPhase, hp], fun _ => rfl⟩

theorem uBst_ok (hp : st.phase = .bst) : ∃ te, exec .uBst st = .next te ∧ EngineOk st te := by
  have h := hinv.phaseInv
  simp only [PhaseInv, hp] at h
  obtain ⟨-, hpsv, ho, hs, hc⟩ := h
  obtain ⟨c, hcv⟩ : ∃ c : Fin 3, st.chunk.toNat = c.val := ⟨⟨st.chunk.toNat, by omega⟩, rfl⟩
  have hiter := hinv.iterInv hb
  refine ⟨_, exec_uBst c hcv, ?_⟩
  by_cases hlt : c.val < 2
  · rw [if_pos hlt]
    have hnext : (st.chunk + 1).toNat ≤ 2 := by bv_omega
    exact ⟨⟨hb, hpsv, ho, hs, hnext⟩, fun _ => hiter, by simp [tableNextPhase, hp, hcv, hlt], fun hne => absurd ho hne⟩
  · rw [if_neg hlt]
    by_cases hpass : st.pass.toNat < 63
    · rw [if_pos hpass]
      exact ⟨⟨hb, hpsv, ho, hs, Nat.zero_le 2⟩, fun _ => hiter, by simp [tableNextPhase, hp, hcv, hlt, hpass],
        fun hne => absurd ho hne⟩
    · rw [if_neg hpass]
      exact ⟨⟨rfl, rfl⟩, by simp, by simp [tableNextPhase, hp, hcv, hlt, hpass], fun hne => absurd ho hne⟩

/-- From a state with the invariant the micro-operation of the phase answers. -/
theorem engine_ok : ∃ te, exec (phaseInstr st.phase) st = .next te ∧ EngineOk st te := by
  cases hp : st.phase with
  | idle => exact Bool.noConfusion (hb.symm.trans (hinv.phaseInv.idle_iff.mpr hp))
  | init => exact uInit_ok hinv hb hp
  | xorp => exact uXorp_ok hinv hb hp
  | salt => exact uSalt_ok hinv hb hp
  | round => exact uRound_ok hinv hb hp
  | st0 => exact uSt0_ok hinv hb hp
  | st1 => exact uSt1_ok hinv hb hp
  | cload => exact uCload_ok hinv hb hp
  | bld => exact uBld_ok hinv hb hp
  | bst => exact uBst_ok hinv hb hp

end

/-! ## The invariant is kept -/

/-- 43_costloop.md R108: what the engine part of a cycle gives has the invariant, since the frame keeps the operands and
`DONE`. -/
theorem EngineOk.seqInv {st te : State} (hinv : SeqInv st) (hb : st.busy = true) (hframe : EngineFrame st te)
    (hok : EngineOk st te) : SeqInv te := by
  obtain ⟨hlen, hcost, -⟩ := hinv.operandInv hb
  refine ⟨hok.phaseInv, fun hbusy => ⟨?_, ?_, ?_, hok.iterInv hbusy⟩⟩
  · rw [hframe.done, if_pos hbusy]
    exact hinv.done hb
  · rw [hframe.op, hframe.keylen]
    exact hlen
  · rw [hframe.op, hframe.cost]
    exact hcost

/-- The invariant speaks of no field the host part of a busy cycle writes but `DONE`, which that part only clears. -/
theorem seqInv_afterHost {th te : State} (hdone : th.done = false) (hinv : SeqInv te) : SeqInv (afterHost th te) := by
  refine ⟨hinv.1, fun hbusy => ⟨?_, (hinv.2 hbusy).2⟩⟩
  exact (if_pos (show te.busy = true from hbusy)).trans hdone

/-- Settles O44: the reset state is idle, in `PH_IDLE`, without a schedule run. -/
theorem invariantHoldsAtReset : Obligations.InvariantHoldsAtReset := by
  unfold Obligations.InvariantHoldsAtReset
  exact seqInv_of_idle rfl rfl rfl

/-- 44_host_commands.md R115: a command that is accepted starts in a state with the invariant; its preconditions are what
`OperandInv` asks of it. -/
theorem seqInv_of_access {st t : State} {h : Instr} {inp : PortIn} (hinv : SeqInv st) (hidle : st.busy = false)
    (hf : fetchHost inp = some h) (hexec : exec h st = .next t) : SeqInv t := by
  have hp := hinv.phaseInv.idle_iff.mp hidle
  have hs := hinv.phaseInv.sched_of_idle hidle
  obtain ⟨t', hexec', -, hcases⟩ := exec_host_idle inp h st hf hidle
  obtain rfl : t' = t := Host.Outcome.next.inj (hexec'.symm.trans hexec)
  have hlegal (hl : keylenLegal st = true) := (keylenLegal_iff st).mp hl
  obtain ht | ⟨_, rfl⟩ | ⟨_, hpsv, rfl⟩ | ⟨_, hpsv, hl, rfl⟩ | ⟨_, hpsv, rfl⟩ | ⟨_, hpsv, hl, rfl⟩ | ⟨_, hl, hc, rfl⟩ |
    ⟨_, habort⟩ := hcases
  · rw [ht]
    exact seqInv_of_idle hidle hp hs
  · exact ⟨⟨rfl, rfl, .inl rfl, rfl, Nat.zero_le _⟩, fun _ => ⟨rfl, by simp [OperandInv]⟩⟩
  · exact ⟨⟨rfl, hpsv, rnd_one_legal.1, rnd_one_legal.2, .inr (.inr ⟨rfl, rfl⟩)⟩, fun _ => ⟨rfl, by simp [OperandInv]⟩⟩
  · exact ⟨⟨rfl, hpsv, rfl, Nat.zero_le _, fun _ => (hlegal hl).1⟩, fun _ => ⟨rfl, by simp [OperandInv, hlegal hl]⟩⟩
  · exact ⟨⟨rfl, hpsv, rfl, Nat.zero_le _, fun hne => absurd rfl hne⟩, fun _ => ⟨rfl, by simp [OperandInv]⟩⟩
  · exact ⟨⟨rfl, hpsv, rfl, Nat.zero_le _, fun _ => (hlegal hl).1⟩, fun _ => ⟨rfl, by simp [OperandInv, hlegal hl]⟩⟩
  · refine ⟨⟨rfl, rfl, .inr rfl, rfl, Nat.zero_le _⟩, fun _ => ⟨rfl, ?_⟩⟩
    exact ⟨fun _ => hlegal hl, fun _ => (costLegal_iff st).mp hc, fun _ hrun => by obtain h | h := hrun <;> cases h⟩
  · cases habort
    exact seqInv_of_idle rfl rfl rfl

/-- A step from a state with the invariant answers. -/
theorem exists_step {st : State} (hinv : SeqInv st) : ∃ t, step st = .next t := by
  obtain ⟨_, e⟩ | ⟨_, hb, ⟨_, e⟩ | ⟨h, hf, e⟩⟩ | ⟨_, _, _, e⟩ | ⟨hb, hu⟩ := step_cases st
  · exact ⟨_, e⟩
  · exact ⟨_, e⟩
  · obtain ⟨t, ht, -⟩ := exec_host_idle _ h (beginCycle st) hf hb
    exact ⟨t, e.trans ht⟩
  · exact ⟨_, e⟩
  · obtain ⟨te, hte, -⟩ := engine_ok (st := beginCycle st) hinv hb
    obtain ⟨th, -, e⟩ := step_of_engine hb hu hte
    exact ⟨_, e⟩

/-- What the engine part of a cycle from a state with the invariant gives. -/
theorem engineOk_of_exec {st te : State} (hinv : SeqInv st) (hb : st.busy = true)
    (hte : exec (phaseInstr st.phase) (beginCycle st) = .next te) : EngineOk (beginCycle st) te := by
  obtain ⟨te', hte', hok⟩ := engine_ok (st := beginCycle st) hinv hb
  obtain rfl : te' = te := Host.Outcome.next.inj (hte'.symm.trans hte)
  exact hok

theorem seqInv_of_step {st t : State} (hinv : SeqInv st) (hstep : step st = .next t) : SeqInv t := by
  cases cycle_of_step hstep with
  | reset _ ht => subst ht; exact seqInv_of_idle rfl rfl rfl
  | quiet _ _ _ ht => subst ht; exact hinv
  | access h _ hidle hf hexec => exact seqInv_of_access (st := beginCycle st) hinv hidle hf hexec
  | abort _ _ _ hexec => cases hexec; exact seqInv_of_idle rfl rfl rfl
  | engine th te hb _ _ hdone _ _ _ hte ht =>
    subst ht
    have hth : th.done = false := Bool.eq_false_iff.mpr fun h => Bool.noConfusion ((hinv.done hb).symm.trans (hdone h))
    exact seqInv_afterHost hth
      ((engineOk_of_exec hinv hb hte).seqInv (st := beginCycle st) hinv hb (cycle_engine_frame hb hte))

/-- Settles O45: a step answers by `exists_step`, and what it answers has the invariant by `seqInv_of_step`. -/
theorem stepIsTotalAndKeepsInvariant : Obligations.StepIsTotalAndKeepsInvariant := by
  unfold Obligations.StepIsTotalAndKeepsInvariant
  intro st hinv
  obtain ⟨t, ht⟩ := exists_step hinv
  exact ⟨t, ht, seqInv_of_step hinv ht⟩

/-- A run from a state with the invariant answers, and keeps it. -/
theorem cycles_of_seqInv (n : Nat) {st : State} (hinv : SeqInv st) : ∃ t, cycles n st = .next t ∧ SeqInv t := by
  induction n generalizing st with
  | zero => exact ⟨st, rfl, hinv⟩
  | succ n ih =>
    obtain ⟨u, hu, hinv'⟩ := stepIsTotalAndKeepsInvariant st hinv
    obtain ⟨t, ht, htinv⟩ := ih hinv'
    exact ⟨t, by rw [cycles_succ, hu]; exact ht, htinv⟩

/-- Settles O46: the reset state has the invariant, with any list of inputs, and `cycles_of_seqInv` carries it along. -/
theorem everyHostSequenceRuns : Obligations.EveryHostSequenceRuns := by
  unfold Obligations.EveryHostSequenceRuns
  exact fun n ins => cycles_of_seqInv n (seqInv_of_idle rfl rfl rfl)

/-! ## The table of transitions, and `CTEXT` -/

/-- Settles O43: the phase after an engine cycle is the one of `EngineOk.table`. -/
theorem phaseFollowsTheTable : Obligations.PhaseFollowsTheTable := by
  unfold Obligations.PhaseFollowsTheTable
  intro st t hinv hb hu hstep
  cases cycle_of_step hstep with
  | reset hrst => exact Bool.noConfusion (hu.1.symm.trans hrst)
  | quiet _ hidle => exact Bool.noConfusion (hb.symm.trans hidle)
  | access _ _ hidle => exact Bool.noConfusion (hb.symm.trans hidle)
  | abort _ _ habort => exact absurd habort hu.2
  | engine th te _ _ _ _ _ _ _ hte ht =>
    subst ht
    exact (engineOk_of_exec hinv hb hte).table

/-- Settles O42: an access to an idle core writes no word of `CTEXT`, and a micro-operation does so in `CRYPT` only. -/
theorem onlyCryptAndAbortChangeCtext : Obligations.OnlyCryptAndAbortChangeCtext := by
  unfold Obligations.OnlyCryptAndAbortChangeCtext
  intro st t hinv hu hnot hstep
  cases cycle_of_step hstep with
  | reset hrst => exact Bool.noConfusion (hu.1.symm.trans hrst)
  | quiet _ _ _ ht => subst ht; rfl
  | access h _ hidle hf hexec =>
    obtain ⟨t', hexec', -, hcases⟩ := exec_host_idle _ h (beginCycle st) hf hidle
    obtain rfl : t' = t := Host.Outcome.next.inj (hexec'.symm.trans hexec)
    obtain ht | ⟨_, rfl⟩ | ⟨_, _, rfl⟩ | ⟨_, _, _, rfl⟩ | ⟨_, _, rfl⟩ | ⟨_, _, _, rfl⟩ | ⟨_, _, _, rfl⟩ | ⟨rfl, _⟩ := hcases
    · rw [ht]
      rfl
    case inr.inr.inr.inr.inr.inr.inr => exact absurd ((fetchHost_abort_iff _).mp hf) hu.2
    all_goals rfl
  | abort _ _ habort => exact absurd habort hu.2
  | engine th te hb _ _ _ _ _ _ hte ht =>
    subst ht
    exact (engineOk_of_exec hinv hb hte).ctext fun ho => hnot ⟨hb, ho⟩

end Sys2Proof.Machine
/-! PROOFS. Two runs compared (43_costloop.md R106; 93_implementation_defined.md U1; 70_reset_and_hazards.md R155). In
each of the three, one state of the pair is the other with some fields replaced (`takeHost`, `withSchedule`,
`takeData`), and every part of a cycle is shown to pass that replacement through. -/

namespace Sys2Proof.Machine

/-! ## A host access as an operation on the state -/

/-- The operations a host access other than `ABORT` can come to (44_host_commands.md R112 to R115, R124). -/
inductive HostOp : (State → State) → Prop where
  | nothing : HostOp id
  | raise (e : ErrFlag) : HostOp (raise e)
  | refuse (n : Needs) : HostOp (refuseCommand n)
  | startInit (c : CmdOp) : HostOp fun s => startInit (accept c s)
  | startEncipher : HostOp fun s => startEncipher (accept .encipher s)
  | startSched (kind : SchedKind) (c : CmdOp) : HostOp fun s => startSched kind (accept c s)
  | read (addr : BitVec 10) : HostOp fun s => { s with out := { s.out with rdata := readValue s addr } }
  | readUnmapped (addr : BitVec 10) :
    HostOp fun s => Machine.raise .addr { s with out := { s.out with rdata := readValue s addr } }
  | status (w : Word) : HostOp (writeOnesToClear w)
  | ien (b : Bool) : HostOp fun s => { s with ien := b }
  | cost (w : Word) : HostOp fun s => { s with cost := w }
  | keylen (w : Word) : HostOp fun s => { s with keylen := w }
  | salt (i : Fin 4) (w : Word) : HostOp fun s => { s with salt := s.salt.set i.val w }
  | lr0 (w : Word) : HostOp fun s => { s with l := w }
  | lr1 (w : Word) : HostOp fun s => { s with r := w }
  | key (i : Fin 18) (w : Word) : HostOp fun s => { s with key := s.key.set i.val w }

/-- The two states give the same answers to the checks of an access: `BUSY`, and the preconditions of commands. -/
structure SameChecks (s t : State) : Prop where
  busy : t.busy = s.busy
  psv : t.psv = s.psv
  keylen : keylenLegal t = keylenLegal s
  cost : costLegal t = costLegal s

theorem SameChecks.refl (s : State) : SameChecks s s := ⟨rfl, rfl, rfl, rfl⟩

/-- On every state with the same checks the dispatch of a command is the same operation. -/
theorem dispatch_hostOp (n : Needs) {start : State → State} (hstart : HostOp start) (s : State) :
    ∃ f, HostOp f ∧ ∀ t, SameChecks s t → dispatch n start t = f t := by
  obtain ⟨hb, -⟩ | ⟨hb, hbad, -⟩ | ⟨hb, hs, hl, hc, -⟩ := dispatch_cases n start s
  · exact ⟨_, .raise .busy, fun t h => dispatch_busy n start t (h.busy.trans hb)⟩
  · refine ⟨_, .refuse n, fun t h => dispatch_refused start (h.busy.trans hb) ?_⟩
    simpa [badSeq, badLen, badCost, h.psv, h.keylen, h.cost, or_assoc] using hbad
  · refine ⟨_, hstart, fun t h => dispatch_accepted start (h.busy.trans hb) ?_ ?_ ?_⟩
    · simpa only [badSeq, h.psv] using hs
    · simpa only [badLen, h.keylen] using hl
    · simpa only [badCost, h.cost] using hc

theorem writeOperand_hostOp {store : State → State} (hstore : HostOp store) (s : State) :
    ∃ f, HostOp f ∧ ∀ t, SameChecks s t → writeOperand store t = f t := by
  obtain ⟨hb, -⟩ | ⟨hb, -⟩ := writeOperand_cases store s
  · exact ⟨_, .raise .busy, fun t h => writeOperand_busy store (h.busy.trans hb)⟩
  · exact ⟨_, hstore, fun t h => writeOperand_idle store (h.busy.trans hb)⟩

theorem exec_command_hostOp {w : Word} {c : Instr} (hc : decodeCmd w = .ok c) (ha : c ≠ .abort) (s : State) :
    ∃ f, HostOp f ∧ ∀ t, SameChecks s t → exec c t = .next (f t) := by
  have hdispatch (n : Needs) {start : State → State} (hstart : HostOp start) :
      ∃ f, HostOp f ∧ ∀ t, SameChecks s t →
        Host.Outcome.next (φ := Fault) (ρ := Refusal) (dispatch n start t) = .next (f t) := by
    obtain ⟨f, hf, h⟩ := dispatch_hostOp n hstart s
    exact ⟨f, hf, fun t ht => congrArg _ (h t ht)⟩
  rcases decodeCmd_cases w with ⟨_, hd⟩ | ⟨_, hd⟩ | ⟨_, hd⟩ | ⟨_, hd⟩ | ⟨_, hd⟩ | ⟨_, hd⟩ | ⟨_, hd⟩ | ⟨_, hd⟩ | ⟨_, hd⟩ <;>
    cases hd.symm.trans hc
  · exact ⟨_, .nothing, fun _ _ => rfl⟩
  · exact hdispatch _ (.startInit .init)
  · exact hdispatch _ .startEncipher
  · exact hdispatch _ (.startSched .kpw .keyPw)
  · exact hdispatch _ (.startSched .ksalt .keySalt)
  · exact hdispatch _ (.startSched .eks .ekskey)
  · exact hdispatch _ (.startInit .crypt)
  · exact absurd rfl ha

theorem exec_wr_hostOp {addr : BitVec 10} {wdata : Word} (ha : addr = ctrlAddr → 8 ≤ wdata.toNat) (s : State) :
    ∃ f, HostOp f ∧ ∀ t, SameChecks s t → exec (.wr addr wdata) t = .next (f t) := by
  have hoperand {store : State → State} (hstore : HostOp store) :
      ∃ f, HostOp f ∧ ∀ t, SameChecks s t →
        Host.Outcome.next (φ := Fault) (ρ := Refusal) (writeOperand store t) = .next (f t) := by
    obtain ⟨f, hf, h⟩ := writeOperand_hostOp hstore s
    exact ⟨f, hf, fun t ht => congrArg _ (h t ht)⟩
  simp only [exec, execWr]
  cases hreg : regAt addr with
  | none => exact ⟨_, .raise .addr, fun _ _ => rfl⟩
  | some reg =>
    cases reg with
    | id | ctext i => exact ⟨_, .raise .addr, fun _ _ => rfl⟩
    | ctrl =>
      have h8 := ha (regAddr_of_regAt addr _ hreg).symm
      have hill : wellFormedCommandWord wdata = false :=
        Bool.eq_false_iff.mpr fun h => absurd ((wellFormedCommandWord_iff wdata).mp h) (by omega)
      exact ⟨_, .raise .op, fun t _ => writeCtrl_of_illFormed t hill⟩
    | status => exact ⟨_, .status wdata, fun _ _ => rfl⟩
    | ien => exact ⟨_, .ien (wdata.getLsbD 0), fun _ _ => rfl⟩
    | cost => exact hoperand (.cost wdata)
    | keylen => exact hoperand (.keylen wdata)
    | salt i => exact hoperand (.salt i wdata)
    | lr0 => exact hoperand (.lr0 wdata)
    | lr1 => exact hoperand (.lr1 wdata)
    | key i => exact hoperand (.key i wdata)

/-- A host access other than `ABORT` always answers, and `BUSY` and the preconditions alone choose the operation. -/
theorem exec_hostOp {inp : PortIn} {h : Instr} (hf : fetchHost inp = some h) (ha : h ≠ .abort) (s : State) :
    ∃ f, HostOp f ∧ ∀ t, SameChecks s t → exec h t = .next (f t) := by
  obtain ⟨_, rfl⟩ | ⟨_, hne, rfl⟩ | ⟨_, _, h8, rfl⟩ | ⟨_, _, hc⟩ := (fetchHost_cases inp h hf).2
  · simp only [exec, execRd]
    cases regAt inp.addr with
    | none => exact ⟨_, .readUnmapped inp.addr, fun _ _ => rfl⟩
    | some reg => exact ⟨_, .read inp.addr, fun _ _ => rfl⟩
  · exact exec_wr_hostOp (fun h => absurd h hne) s
  · exact exec_wr_hostOp (fun _ => h8) s
  · exact exec_command_hostOp hc ha s

/-! ## Bus activity -/

/-- Settles O50: the second state is the first with the fields of `takeHost` replaced, which `engine_takeHost` passes
through the micro-operation and the host part overwrites. -/
theorem hostActivityDoesNotDisturbRun : Obligations.HostActivityDoesNotDisturbRun := by
  unfold Obligations.HostActivityDoesNotDisturbRun
  intro s t s' ha hb hu hut hstep
  cases cycle_of_step hstep with
  | reset hrst => exact Bool.noConfusion (hu.1.symm.trans hrst)
  | quiet _ hidle => exact Bool.noConfusion (hb.symm.trans hidle)
  | access _ _ hidle => exact Bool.noConfusion (hb.symm.trans hidle)
  | abort _ _ habort => exact absurd habort hu.2
  | engine th te _ _ _ _ _ _ _ hte hs' =>
    have hbt : t.busy = true := by rw [ha]; exact hb
    have hpt : t.phase = s.phase := by rw [ha]
    have hbegin : beginCycle t = takeHost (beginCycle t) (beginCycle s) := by
      conv => lhs; rw [ha]
      rfl
    have hte' : exec (phaseInstr t.phase) (beginCycle t) = .next (afterHost (beginCycle t) te) := by
      rw [hpt, hbegin, engine_takeHost s.phase _ (beginCycle s) hb, hte]
      rfl
    obtain ⟨th', -, ht⟩ := step_of_engine hbt hut hte'
    refine ⟨_, ht, ?_⟩
    subst hs'
    rfl

/-! ## Unspecified words -/

/-- The state with another schedule. -/
def withSchedule (ps : Schedule) (st : State) : State := { st with p := ps.p, sbox := ps.sbox }

theorem withSchedule_self (st : State) : withSchedule st.schedule st = st := rfl

theorem agreeBelow_refl (n : Nat) (ps : Schedule) : agreeBelow n ps ps := fun _ _ => rfl

/-- 10_state.md R29: the second state is the first with another schedule, and which words may differ. -/
theorem agreeButUnspecified_iff (s t : State) :
    AgreeButUnspecified s t ↔ ∃ ps, t = withSchedule ps s ∧ (s.psv = true → ps = s.schedule)
      ∧ (s.phase = .init → agreeBelow s.widx.toNat s.schedule ps) := by
  constructor
  · rintro ⟨ht, hpsv, hinit⟩
    exact ⟨t.schedule, ht, hpsv, hinit⟩
  · rintro ⟨ps, rfl, hpsv, hinit⟩
    exact ⟨rfl, hpsv, hinit⟩

theorem agreeButUnspecified_refl (st : State) : AgreeButUnspecified st st :=
  ⟨rfl, fun _ => rfl, fun _ => agreeBelow_refl _ _⟩

/-- The schedule is neither read nor partly written by a host access. -/
theorem HostOp.withSchedule {f : State → State} (hf : HostOp f) (ps : Schedule) (st : State) :
    f (withSchedule ps st) = Machine.withSchedule (f (Machine.withSchedule ps st)).schedule (f st) := by
  have hread (addr : BitVec 10) : readValue (Machine.withSchedule ps st) addr = readValue st addr := by
    unfold readValue
    split
    · rename_i reg _
      cases reg <;> rfl
    · rfl
  cases hf with
  | raise e => cases e <;> rfl
  | read addr | readUnmapped addr => simp only [hread]; rfl
  | _ => rfl

/-- An operation on an idle core enters `PH_INIT` with `widx` 0 only. -/
theorem HostOp.widx_of_init {f : State → State} (hf : HostOp f) {st : State} (hst : st.phase ≠ .init)
    (h : (f st).phase = .init) : (f st).widx = 0 := by
  cases hf with
  | startInit c => rfl
  | raise e => exact absurd ((raise_phase e st).symm.trans h) hst
  | readUnmapped addr => exact absurd ((raise_phase .addr _).symm.trans h) hst
  | startEncipher | startSched kind c => cases h
  | _ => exact absurd h hst

/-- 43_costloop.md R95: `U_INIT` writes the word at `widx` in both states, so one more word agrees; after the last one
all do. -/
theorem uInit_agree {st te : State} {ps : Schedule} (hpsv : st.psv = false)
    (hag : agreeBelow st.widx.toNat st.schedule ps) (hw : st.widx.toNat ≤ 1041) (hte : exec .uInit st = .next te) :
    ∃ te', exec .uInit (withSchedule ps st) = .next te' ∧ AgreeButUnspecified te te' := by
  obtain ⟨k, hk⟩ : ∃ k : Fin 1042, st.widx.toNat = k.val := ⟨⟨st.widx.toNat, by omega⟩, rfl⟩
  have hagree : agreeBelow (k.val + 1) (psWrite st.schedule k (romWord k)) (psWrite ps k (romWord k)) := by
    intro j hj
    rw [psRead_psWrite, psRead_psWrite]
    split
    · rfl
    · exact hag j (by omega)
  have hte' := exec_uInit (st := withSchedule ps st) k hk
  rw [exec_uInit k hk] at hte
  cases hte
  refine ⟨_, hte', ?_⟩
  by_cases hlt : k.val < 1041
  · rw [if_pos hlt, if_pos hlt]
    have hnext : (st.widx + 1).toNat = k.val + 1 := by bv_omega
    refine (agreeButUnspecified_iff _ _).mpr ⟨psWrite ps k (romWord k), rfl, ?_, fun _ => ?_⟩
    · exact fun h => Bool.noConfusion (hpsv.symm.trans h)
    · show agreeBelow (st.widx + 1).toNat (psWrite st.schedule k (romWord k)) _
      rwa [hnext]
  · have heq : psWrite st.schedule k (romWord k) = psWrite ps k (romWord k) :=
      schedule_ext _ _ fun j => hagree j (by omega)
    have hstore : storeWord k (romWord k) (withSchedule ps st) = storeWord k (romWord k) st := by
      show withSchedule (psWrite ps k (romWord k)) st = withSchedule (psWrite st.schedule k (romWord k)) st
      rw [heq]
    rw [if_neg hlt, if_neg hlt, hstore]
    exact agreeButUnspecified_refl _

/-- The host part of a busy cycle changes the same fields in the same way in both states. -/
theorem hostPart_withSchedule {st th : State} (ps : Schedule) (hu : undisturbed (currentPorts st))
    (hth : hostPart st = .next th) : ∃ qs, hostPart (withSchedule ps st) = .next (withSchedule qs th) := by
  have hports : currentPorts (withSchedule ps st) = currentPorts st := rfl
  cases hf : fetchHost (currentPorts st) with
  | none =>
    cases (hostPart_none hf).symm.trans hth
    exact ⟨ps, hostPart_none (by rw [hports, hf])⟩
  | some i =>
    have ha : i ≠ .abort := by
      rintro rfl
      exact hu.2 ((fetchHost_abort_iff _).mp hf)
    obtain ⟨f, hop, hexec⟩ := exec_hostOp hf ha (beginCycle st)
    have hexecPs := hexec (withSchedule ps (beginCycle st)) ⟨rfl, rfl, rfl, rfl⟩
    rw [hop.withSchedule] at hexecPs
    cases ((hostPart_some hf).symm.trans hth).symm.trans (hexec (beginCycle st) (.refl _))
    exact ⟨_, (hostPart_some (by rw [hports, hf])).trans hexecPs⟩

/-- The invariant: a busy core without a valid schedule is in `PH_INIT` (10_state.md R21). -/
theorem SeqInv.init_of_no_schedule {st : State} (hinv : SeqInv st) (hb : st.busy = true) (hpsv : st.psv = false) :
    st.phase = .init ∧ st.widx.toNat ≤ 1041 := by
  have h := hinv.phaseInv
  unfold PhaseInv at h
  split at h <;> simp_all

/-- Settles O48: with a valid schedule the two states are equal; without, an idle core passes the schedule through each
access or replaces it, and a busy one is in `PH_INIT`, where `uInit_agree` applies. -/
theorem unspecifiedTablesAreUnobservable : Obligations.UnspecifiedTablesAreUnobservable := by
  unfold Obligations.UnspecifiedTablesAreUnobservable
  intro s t s' hinv hagree hstep
  obtain ⟨ps, rfl, hsame, hbelow⟩ := (agreeButUnspecified_iff s t).mp hagree
  by_cases hv : s.psv = true
  · rw [hsame hv, withSchedule_self]
    exact ⟨s', hstep, agreeButUnspecified_refl s', rfl⟩
  have hpsv : s.psv = false := by simpa using hv
  cases cycle_of_step hstep with
  | reset hrst ht =>
    subst ht
    exact ⟨_, step_reset (withSchedule ps s) hrst, agreeButUnspecified_refl (resetCycle (beginCycle s)), rfl⟩
  | quiet hrst hidle hnone ht =>
    subst ht
    exact ⟨_, step_quiet (st := withSchedule ps s) hrst hnone hidle,
      (agreeButUnspecified_iff _ _).mpr ⟨ps, rfl, hsame, hbelow⟩, rfl⟩
  | access i hrst hidle hf hexec =>
    have hstep' := step_idle (withSchedule ps s) i hrst hf hidle
    by_cases ha : i = .abort
    · subst ha
      exact ⟨s', hstep'.trans hexec, agreeButUnspecified_refl s', rfl⟩
    · obtain ⟨f, hop, hall⟩ := exec_hostOp hf ha (beginCycle s)
      cases hexec.symm.trans (hall _ (.refl _))
      have hexecPs := hall (withSchedule ps (beginCycle s)) ⟨rfl, rfl, rfl, rfl⟩
      rw [hop.withSchedule] at hexecPs
      have hphase : (beginCycle s).phase ≠ .init := by
        rw [beginCycle_phase, hinv.phaseInv.idle_iff.mp hidle]
        decide
      refine ⟨_, hstep'.trans hexecPs, (agreeButUnspecified_iff _ _).mpr ⟨_, rfl, fun h => ?_, fun h k hk => ?_⟩, rfl⟩
      · exact absurd (hostCannotReachTheSchedule s _ hidle hstep h).2 hv
      · rw [hop.widx_of_init hphase h] at hk
        exact absurd hk (Nat.not_lt_zero _)
  | abort hrst _ habort hexec =>
    exact ⟨s', (step_abort (withSchedule ps s) hrst habort).trans hexec, agreeButUnspecified_refl s', rfl⟩
  | engine th te hb hu _ _ _ _ hhost hte ht =>
    subst ht
    obtain ⟨hp, hw⟩ := hinv.init_of_no_schedule hb hpsv
    rw [hp] at hte
    obtain ⟨te', hte', hag⟩ := uInit_agree (st := beginCycle s) hpsv (hbelow hp) hw hte
    obtain ⟨qs, rfl, hqpsv, hqinit⟩ := (agreeButUnspecified_iff te te').mp hag
    obtain ⟨qs', hhost'⟩ := hostPart_withSchedule ps hu hhost
    obtain ⟨th', hth', hstep'⟩ := step_of_engine (st := withSchedule ps s) (te := withSchedule qs te) hb hu (by
      rw [show (withSchedule ps s).phase = .init from hp]
      exact hte')
    cases hhost'.symm.trans hth'
    exact ⟨_, hstep', (agreeButUnspecified_iff _ _).mpr ⟨qs, rfl, hqpsv, hqinit⟩, rfl⟩

/-! ## Data -/

/-- `st` with every field that the timing may not depend on taken from `x` (70_reset_and_hazards.md R155): the block,
the tables, the password, its length, the salt, the offsets into them, and what only the host sees. -/
def takeData (x st : State) : State :=
  { st with
    l := x.l, r := x.r, p := x.p, sbox := x.sbox, ctext := x.ctext, key := x.key, salt := x.salt, keylen := x.keylen
    koff := x.koff, sidx := x.sidx, ien := x.ien, eOp := x.eOp, eBusy := x.eBusy, eCost := x.eCost
    eKeylen := x.eKeylen, eSeq := x.eSeq, eAddr := x.eAddr, epoch := x.epoch, inputs := x.inputs, out := x.out }

/-- The two states differ in data alone, and in `KEYLEN` within its legality. -/
structure DataDiffer (s t : State) : Prop where
  eq : t = takeData t s
  legal : keylenLegal t = keylenLegal s

theorem timingAgree_iff (s t : State) :
    TimingAgree s t ↔ DataDiffer s t ∧ List.Forall₂ SamePortTiming s.inputs t.inputs := by
  constructor
  · rintro ⟨hbusy, hdone, hpsv, hop, hphase, hsched, hwidx, hrnd, hiter, hpass, hchunk, hcost, hlegal, hin⟩
    refine ⟨⟨?_, hlegal⟩, hin⟩
    simp only [takeData, ← hbusy, ← hdone, ← hpsv, ← hop, ← hphase, ← hsched, ← hwidx, ← hrnd, ← hiter, ← hpass,
      ← hchunk, ← hcost]
  · rintro ⟨⟨heq, hlegal⟩, hin⟩
    refine ⟨?_, ?_, ?_, ?_, ?_, ?_, ?_, ?_, ?_, ?_, ?_, ?_, hlegal, hin⟩ <;> rw [heq] <;> rfl

theorem DataDiffer.sameChecks {s t : State} (h : DataDiffer s t) : SameChecks s t := by
  obtain ⟨heq, hlegal⟩ := h
  exact ⟨by rw [heq]; rfl, by rw [heq]; rfl, hlegal, by rw [heq]; rfl⟩

/-- A host access passes a difference in data through. -/
theorem HostOp.dataDiffer {f : State → State} (hf : HostOp f) {s t : State} (h : DataDiffer s t) :
    DataDiffer (f s) (f t) := by
  obtain ⟨heq, hlegal⟩ := h
  constructor
  · rw [heq]
    cases hf with
    | raise e => cases e <;> rfl
    | _ => rfl
  · cases hf with
    | raise e => cases e <;> exact hlegal
    | keylen w => rfl
    | _ => exact hlegal

theorem dataDiffer_writeOperand {f g : State → State} {s t : State} (h : DataDiffer s t)
    (hfg : DataDiffer (f s) (g t)) : DataDiffer (writeOperand f s) (writeOperand g t) := by
  obtain ⟨hb, e⟩ | ⟨hb, e⟩ := writeOperand_cases f s <;> rw [e]
  · rw [writeOperand_busy g (h.sameChecks.busy.trans hb)]
    exact (HostOp.raise .busy).dataDiffer h
  · rwa [writeOperand_idle g (h.sameChecks.busy.trans hb)]

/-- The registers of password, salt and block. -/
theorem regAt_of_dataAddress {addr : BitVec 10} (h : dataAddress addr) :
    (∃ i, regAt addr = some (.salt i)) ∨ regAt addr = some .lr0 ∨ regAt addr = some .lr1
      ∨ ∃ i, regAt addr = some (.key i) := by
  obtain ⟨hal, ⟨hge, hle⟩ | h | h | ⟨hge, hle⟩⟩ := h
  · obtain ⟨i, hi⟩ := exists_index_of_aligned (n := 4) hal rfl hge (by omega)
    exact .inl ⟨i, regAt_of_toNat (.salt i) hi rfl⟩
  · exact .inr (.inl (regAt_of_toNat .lr0 h rfl))
  · exact .inr (.inr (.inl (regAt_of_toNat .lr1 h rfl)))
  · obtain ⟨i, hi⟩ := exists_index_of_aligned (n := 18) hal rfl hge (by omega)
    exact .inr (.inr (.inr ⟨i, regAt_of_toNat (.key i) hi rfl⟩))

/-- Writes to one register whose data may differ. -/
def DataWrite (addr : BitVec 10) (w w' : Word) : Prop :=
  dataAddress addr ∨ (addr = 0x014#10
    ∧ ((1 ≤ w.toNat ∧ w.toNat ≤ 72) ↔ (1 ≤ w'.toNat ∧ w'.toNat ≤ 72)))

theorem exec_dataWrite {addr : BitVec 10} {w w' : Word} {s t : State} (hd : DataWrite addr w w')
    (h : DataDiffer s t) :
    ∃ u v, exec (.wr addr w) s = .next u ∧ exec (.wr addr w') t = .next v ∧ DataDiffer u v := by
  have heq := h.eq
  simp only [exec, execWr]
  obtain hd | ⟨rfl, hiff⟩ := hd
  · obtain ⟨i, hreg⟩ | hreg | hreg | ⟨i, hreg⟩ := regAt_of_dataAddress hd <;> rw [hreg] <;>
      exact ⟨_, _, rfl, rfl, dataDiffer_writeOperand h ⟨by rw [heq]; rfl, h.legal⟩⟩
  · rw [show regAt 0x014#10 = some .keylen from regAt_regAddr .keylen]
    exact ⟨_, _, rfl, rfl, dataDiffer_writeOperand h ⟨by rw [heq]; rfl, decide_eq_decide.mpr hiff.symm⟩⟩

/-! ## Ports that differ in data -/

theorem samePortTiming_refl (a : PortIn) : SamePortTiming a a := ⟨rfl, rfl, rfl, rfl, .inl rfl⟩

theorem samePortTiming_head_tail {l l' : List PortIn} (h : List.Forall₂ SamePortTiming l l') :
    SamePortTiming (l.headD portIdle) (l'.headD portIdle) ∧ List.Forall₂ SamePortTiming l.tail l'.tail := by
  cases h with
  | nil => exact ⟨samePortTiming_refl portIdle, .nil⟩
  | cons hhead htail => exact ⟨hhead, htail⟩

theorem ctrlAddr_not_dataWrite {addr : BitVec 10} {w w' : Word} (h : DataWrite addr w w') : addr ≠ ctrlAddr := by
  rintro rfl
  obtain ⟨-, h⟩ | ⟨h, -⟩ := h
  · have hnum : (ctrlAddr).toNat = 4 := rfl
    omega
  · cases h

/-- The two cycles carry the same access, or writes of two data to one data register. -/
theorem fetchHost_samePortTiming {a b : PortIn} (h : SamePortTiming a b) :
    fetchHost b = fetchHost a
      ∨ ∃ addr w w', fetchHost a = some (.wr addr w) ∧ fetchHost b = some (.wr addr w') ∧ DataWrite addr w w' := by
  obtain ⟨ra, sa, wa, aa, da⟩ := a
  obtain ⟨rb, sb, wb, ab, db⟩ := b
  obtain ⟨rfl, rfl, rfl, rfl, hdata⟩ : rb = ra ∧ sb = sa ∧ wb = wa ∧ ab = aa ∧ (db = da ∨ DataWrite aa da db) := h
  obtain rfl | hdata := hdata
  · exact .inl rfl
  · cases sb
    · exact .inl rfl
    · cases wb
      · have hread (w : Word) : fetchHost ⟨rb, true, false, ab, w⟩ = some (.rd ab) := fetchHost_read rfl rfl
        exact .inl ((hread db).trans (hread da).symm)
      · have hne := ctrlAddr_not_dataWrite hdata
        have hwf (w : Word) : (Instr.wr ab w).wellFormed := if_neg fun hc => hne hc.1
        have hfetch (w : Word) : fetchHost ⟨rb, true, true, ab, w⟩ = some (.wr ab w) :=
          congrArg some (decodeAccess_write (hwf w))
        exact .inr ⟨ab, da, db, hfetch da, hfetch db, hdata⟩

/-- The second cycle's access passes a difference in data through, and aborts only if the first one's does. -/
theorem exec_samePortTiming {a b : PortIn} {i : Instr} {s t u : State} (hp : SamePortTiming a b)
    (hf : fetchHost a = some i) (ha : i ≠ .abort) (h : DataDiffer s t) (hexec : exec i s = .next u) :
    ∃ j v, fetchHost b = some j ∧ j ≠ .abort ∧ exec j t = .next v ∧ DataDiffer u v := by
  obtain heq | ⟨addr, w, w', hfa, hfb, hd⟩ := fetchHost_samePortTiming hp
  · obtain ⟨f, hop, hall⟩ := exec_hostOp hf ha s
    cases hexec.symm.trans (hall s (.refl s))
    exact ⟨i, f t, heq.trans hf, ha, hall t h.sameChecks, hop.dataDiffer h⟩
  · obtain ⟨u', v, hu, hv, hdiff⟩ := exec_dataWrite hd h
    cases hf.symm.trans hfa
    cases hexec.symm.trans hu
    exact ⟨_, v, hfb, by simp, hv, hdiff⟩

theorem fetchHost_eq_none_iff (inp : PortIn) : fetchHost inp = none ↔ inp.sel = false := by
  cases hs : inp.sel <;> simp [fetchHost, hs]

theorem fetchHost_none_samePortTiming {a b : PortIn} (hp : SamePortTiming a b) (hf : fetchHost a = none) :
    fetchHost b = none :=
  (fetchHost_eq_none_iff b).mpr (hp.2.1.trans ((fetchHost_eq_none_iff a).mp hf))

theorem abortNow_samePortTiming {a b : PortIn} (hp : SamePortTiming a b) : abortNow b ↔ abortNow a := by
  rw [← fetchHost_abort_iff, ← fetchHost_abort_iff]
  obtain heq | ⟨addr, w, w', hfa, hfb, -⟩ := fetchHost_samePortTiming hp
  · rw [heq]
  · rw [hfa, hfb]
    simp

/-! ## The engine and data -/

theorem uInit_range {st te : State} (h : exec .uInit st = .next te) : st.widx.toNat < 1042 := by
  by_contra hge
  cases ((countersOutOfRangeStop st).1 (by omega)).1.symm.trans h

theorem uSt0_range {st te : State} (h : exec .uSt0 st = .next te) : st.widx.toNat < 1042 := by
  by_contra hge
  cases ((countersOutOfRangeStop st).1 (by omega)).2.symm.trans h

theorem uSt1_range {st te : State} (h : exec .uSt1 st = .next te) : st.widx.toNat + 1 < 1042 := by
  by_contra hge
  cases ((countersOutOfRangeStop st).2.1 (by omega)).symm.trans h

theorem uXorp_range {st te : State} (h : exec .uXorp st = .next te) :
    st.widx.toNat < 18 ∧ (st.sched ≠ .ksalt → keylenLegal st = true) := by
  obtain ⟨-, -, hindex, hlength, -⟩ := countersOutOfRangeStop st
  have hw : st.widx.toNat < 18 := by
    by_contra hge
    cases (hindex (by omega)).symm.trans h
  refine ⟨hw, fun hs => (keylenLegal_iff st).mpr ?_⟩
  by_contra hk
  cases (hlength (by omega) hs hk).symm.trans h

theorem uRound_range {st te : State} (h : exec .uRound st = .next te) : 1 ≤ st.rnd.toNat ∧ st.rnd.toNat ≤ 16 := by
  by_contra hout
  obtain ⟨-, -, -, -, hround, -⟩ := countersOutOfRangeStop st
  cases (hround (by omega)).symm.trans h

theorem chunk_range {st te : State} (h : exec .uBld st = .next te ∨ exec .uBst st = .next te) :
    st.chunk.toNat < 3 := by
  by_contra hge
  obtain ⟨-, -, -, -, -, hchunk⟩ := countersOutOfRangeStop st
  obtain ⟨hld, hst⟩ := hchunk (by omega)
  obtain h | h := h
  · cases hld.symm.trans h
  · cases hst.symm.trans h

theorem endInit_takeData (x st : State) : endInit (takeData x st) = takeData (endInit (takeData x st)) (endInit st) := by
  have hop : (takeData x st).op = st.op := rfl
  unfold endInit
  rw [hop]
  cases st.op <;> rfl

theorem endSched_takeData (x st : State) :
    endSched (takeData x st) = takeData (endSched (takeData x st)) (endSched st) := by
  have hop : (takeData x st).op = st.op := rfl
  have hsched : (takeData x st).sched = st.sched := rfl
  have hiter : (takeData x st).iter = st.iter := rfl
  unfold endSched
  rw [hop, hsched, hiter]
  cases st.op with
  | crypt =>
    cases st.sched with
    | ksalt =>
      dsimp only
      split <;> rfl
    | _ => rfl
  | _ => rfl

/-- A micro-operation passes a difference in data through: its counters, `op` and `sched` alone choose its branch. -/
theorem exec_takeData {ph : Phase} {x st te : State} (hlegal : keylenLegal (takeData x st) = keylenLegal st)
    (hte : exec (phaseInstr ph) st = .next te) :
    ∃ te', exec (phaseInstr ph) (takeData x st) = .next te' ∧ te' = takeData te' te := by
  cases ph with
  | idle => cases hte; exact ⟨_, rfl, rfl⟩
  | init =>
    have hw := uInit_range hte
    have hexec := exec_uInit (st := takeData x st) ⟨st.widx.toNat, hw⟩ rfl
    cases (exec_uInit ⟨st.widx.toNat, hw⟩ rfl).symm.trans hte
    refine ⟨_, hexec, ?_⟩
    split
    · rfl
    · exact endInit_takeData { storeWord _ _ (takeData x st) with psv := true } { storeWord _ _ st with psv := true }
  | xorp =>
    obtain ⟨hw, hk⟩ := uXorp_range hte
    have hop := xorpOperand_eq (st := st) fun hs => (keylenLegal_iff st).mp (hk hs)
    have hop' := xorpOperand_eq (st := takeData x st) fun hs => (keylenLegal_iff _).mp (hlegal.trans (hk hs))
    have hexec := exec_uXorp (st := takeData x st) ⟨st.widx.toNat, hw⟩ rfl hop'
    cases (exec_uXorp ⟨st.widx.toNat, hw⟩ rfl hop).symm.trans hte
    refine ⟨_, hexec, ?_⟩
    split <;> rfl
  | salt => cases hte; exact ⟨_, rfl, rfl⟩
  | round =>
    obtain ⟨h1, h16⟩ := uRound_range hte
    have hexec := exec_uRound (st := takeData x st) ⟨st.rnd.toNat, by omega⟩ rfl h1 h16
    cases (exec_uRound ⟨st.rnd.toNat, by omega⟩ rfl h1 h16).symm.trans hte
    refine ⟨_, hexec, ?_⟩
    simp only [show (takeData x st).sched = st.sched from rfl, show (takeData x st).op = st.op from rfl]
    repeat' split
    all_goals rfl
  | st0 =>
    have hw := uSt0_range hte
    cases (exec_uSt0 st ⟨st.widx.toNat, hw⟩ rfl).symm.trans hte
    exact ⟨_, exec_uSt0 (takeData x st) ⟨st.widx.toNat, hw⟩ rfl, rfl⟩
  | st1 =>
    have hw := uSt1_range hte
    have hexec := exec_uSt1 (st := takeData x st) ⟨st.widx.toNat + 1, hw⟩ rfl
    cases (exec_uSt1 ⟨st.widx.toNat + 1, hw⟩ rfl).symm.trans hte
    refine ⟨_, hexec, ?_⟩
    split
    · rfl
    · exact endSched_takeData (storeWord _ _ (takeData x st)) (storeWord _ _ st)
  | cload => cases hte; exact ⟨_, rfl, rfl⟩
  | bld =>
    have hc := chunk_range (.inl hte)
    cases (exec_uBld ⟨st.chunk.toNat, hc⟩ rfl).symm.trans hte
    exact ⟨_, exec_uBld (st := takeData x st) ⟨st.chunk.toNat, hc⟩ rfl, rfl⟩
  | bst =>
    have hc := chunk_range (.inr hte)
    have hexec := exec_uBst (st := takeData x st) ⟨st.chunk.toNat, hc⟩ rfl
    cases (exec_uBst ⟨st.chunk.toNat, hc⟩ rfl).symm.trans hte
    refine ⟨_, hexec, ?_⟩
    simp only [show (takeData x st).pass = st.pass from rfl]
    repeat' split
    all_goals rfl

/-- `KEYLEN` stays what it is in the engine part, so its legality does. -/
theorem EngineFrame.legal {st te : State} (h : EngineFrame st te) : keylenLegal te = keylenLegal st := by
  simp only [keylenLegal, h.keylen]

theorem exec_engine_dataDiffer {ph : Phase} {s t te : State} (hb : s.busy = true) (h : DataDiffer s t)
    (hte : exec (phaseInstr ph) s = .next te) :
    ∃ te', exec (phaseInstr ph) t = .next te' ∧ DataDiffer te te' := by
  have hbt : t.busy = true := h.sameChecks.busy.trans hb
  obtain ⟨te', hte', hdata⟩ := exec_takeData (x := t) (h.eq ▸ h.legal) hte
  rw [← h.eq] at hte'
  refine ⟨te', hte', hdata, ?_⟩
  rw [(engine_frame ph t te' hbt hte').legal, (engine_frame ph s te hb hte).legal, h.legal]

/-! ## Timing -/

theorem DataDiffer.beginCycle {s t : State} (h : DataDiffer s t) : DataDiffer (beginCycle s) (beginCycle t) := by
  refine ⟨?_, h.legal⟩
  rw [h.eq]
  rfl

theorem DataDiffer.afterHost {th th' te te' : State} (hth : DataDiffer th th') (hte : DataDiffer te te') :
    DataDiffer (afterHost th te) (afterHost th' te') := by
  refine ⟨?_, hte.legal⟩
  rw [hte.eq, hth.eq]
  rfl

/-- The host parts of two cycles with the same timing. -/
theorem hostPart_samePortTiming {s t th : State} (hp : SamePortTiming (currentPorts s) (currentPorts t))
    (hu : undisturbed (currentPorts s)) (h : DataDiffer s t) (hth : hostPart s = .next th) :
    ∃ th', hostPart t = .next th' ∧ DataDiffer th th' := by
  cases hf : fetchHost (currentPorts s) with
  | none =>
    cases (hostPart_none hf).symm.trans hth
    exact ⟨_, hostPart_none (fetchHost_none_samePortTiming hp hf), h.beginCycle⟩
  | some i =>
    have ha : i ≠ .abort := by
      rintro rfl
      exact hu.2 ((fetchHost_abort_iff _).mp hf)
    obtain ⟨j, v, hfj, -, hv, hdiff⟩ := exec_samePortTiming hp hf ha h.beginCycle ((hostPart_some hf).symm.trans hth)
    exact ⟨v, (hostPart_some hfj).trans hv, hdiff⟩

theorem exec_abort_dataDiffer {s t u : State} (h : DataDiffer s t) (hexec : exec .abort s = .next u) :
    ∃ v, exec .abort t = .next v ∧ DataDiffer u v := by
  cases hexec
  refine ⟨_, rfl, ?_, h.legal⟩
  rw [h.eq]
  rfl

theorem HostOp.inputs {f : State → State} (hf : HostOp f) (st : State) : (f st).inputs = st.inputs := by
  cases hf with
  | raise e => exact raise_inputs e st
  | _ => rfl

/-- A step consumes one cycle of the host's inputs. -/
theorem inputs_of_step {st t : State} (h : step st = .next t) : t.inputs = st.inputs.tail := by
  cases cycle_of_step h with
  | reset _ ht => subst ht; rfl
  | quiet _ _ _ ht => subst ht; rfl
  | access i _ _ hf hexec =>
    by_cases ha : i = .abort
    · subst ha
      cases hexec
      rfl
    · obtain ⟨f, hop, hall⟩ := exec_hostOp hf ha (beginCycle st)
      cases hexec.symm.trans (hall _ (.refl _))
      exact hop.inputs (beginCycle st)
  | abort _ _ _ hexec => cases hexec; rfl
  | engine th te _ _ _ _ hinputs _ _ _ ht => subst ht; exact hinputs

/-- Settles O49: each kind of cycle of the first state is one of the second too, and each part of it passes the
difference in data through. -/
theorem timingIsIndependentOfData : Obligations.TimingIsIndependentOfData := by
  unfold Obligations.TimingIsIndependentOfData
  intro s t s' hagree hstep
  obtain ⟨h, hin⟩ := (timingAgree_iff s t).mp hagree
  obtain ⟨hp, htail⟩ : SamePortTiming (currentPorts s) (currentPorts t) ∧ _ := samePortTiming_head_tail hin
  have hrst' : (currentPorts t).rst = (currentPorts s).rst := hp.1
  have hbusy : t.busy = s.busy := h.sameChecks.busy
  suffices hnext : ∃ t', step t = .next t' ∧ DataDiffer s' t' by
    obtain ⟨t', ht', hdiff⟩ := hnext
    refine ⟨t', ht', (timingAgree_iff s' t').mpr ⟨hdiff, ?_⟩⟩
    rwa [inputs_of_step hstep, inputs_of_step ht']
  cases cycle_of_step hstep with
  | reset hrst ht =>
    subst ht
    exact ⟨_, step_reset t (hrst'.trans hrst), rfl, rfl⟩
  | quiet hrst hidle hnone ht =>
    subst ht
    exact ⟨_, step_quiet (hrst'.trans hrst) (fetchHost_none_samePortTiming hp hnone) (hbusy.trans hidle), h.beginCycle⟩
  | access i hrst hidle hf hexec =>
    by_cases ha : i = .abort
    · subst ha
      obtain ⟨v, hv, hdiff⟩ := exec_abort_dataDiffer h.beginCycle hexec
      have habort := (abortNow_samePortTiming hp).mpr ((fetchHost_abort_iff _).mp hf)
      exact ⟨v, (step_abort t (hrst'.trans hrst) habort).trans hv, hdiff⟩
    · obtain ⟨j, v, hfj, -, hv, hdiff⟩ := exec_samePortTiming hp hf ha h.beginCycle hexec
      exact ⟨v, (step_idle t j (hrst'.trans hrst) hfj (hbusy.trans hidle)).trans hv, hdiff⟩
  | abort hrst _ habort hexec =>
    obtain ⟨v, hv, hdiff⟩ := exec_abort_dataDiffer h.beginCycle hexec
    exact ⟨v, (step_abort t (hrst'.trans hrst) ((abortNow_samePortTiming hp).mpr habort)).trans hv, hdiff⟩
  | engine th te hb hu _ _ _ _ hhost hte ht =>
    subst ht
    have hphase : t.phase = s.phase := by rw [h.eq]; rfl
    obtain ⟨th', hhost', hdiff⟩ := hostPart_samePortTiming hp hu h hhost
    obtain ⟨te', hte', hdiff'⟩ := exec_engine_dataDiffer (s := beginCycle s) hb h.beginCycle hte
    have hut : undisturbed (currentPorts t) := ⟨hrst'.trans hu.1, fun ha => hu.2 ((abortNow_samePortTiming hp).mp ha)⟩
    obtain ⟨th'', hth'', hstep'⟩ := step_of_engine (hbusy.trans hb) hut (hphase ▸ hte')
    cases hhost'.symm.trans hth''
    exact ⟨_, hstep', hdiff.afterHost hdiff'⟩

end Sys2Proof.Machine
/-! PROOFS. The commands as a whole (44_host_commands.md R117 to R122; 42_keyschedule.md R88, R91; 43_costloop.md R102,
R109). Each is its acceptance, a run of the engine alone, and `cycles_of_engineCycles`, by which the machine follows that
run whatever an undisturbing host does. -/

namespace Sys2Proof.Machine

/-! ## `INIT` and `ENCIPHER` -/

/-- 43_costloop.md R95: 1042 `U_INIT` leave the original schedule. -/
theorem engine_init_orig {st : State} (hb : st.busy = true) (hp : st.phase = .init) (hw : st.widx = 0) :
    engineCycles 1042 st =
      some (endInit { st with p := pOrig, sbox := sOrig, widx := BitVec.ofNat 11 1041, psv := true }) := by
  rw [engine_init st hb hp hw, initWords_all]
  rfl

/-- Settles O51: the run of `engine_init_orig` ends with `finish`. -/
theorem initLoadsTheConstants : Obligations.InitLoadsTheConstants := by
  unfold Obligations.InitLoadsTheConstants
  intro st hidle hu
  have hrun := engine_init_orig (st := startInit (accept .init st)) rfl rfl rfl
  rw [endInit_of_init (st := { startInit (accept .init st) with
    p := pOrig, sbox := sOrig, widx := BitVec.ofNat 11 1041, psv := true }) rfl] at hrun
  obtain ⟨t, hcycles, hagree, hbusy, hdone⟩ :=
    cycles_of_engineCycles 1042 (startInit (accept .init st)) (startInit (accept .init st)) _ rfl hu hrun
  have hd := hdone (by omega) rfl
  refine ⟨_, t, exec_init_accepted hidle, hcycles, hbusy, ?_⟩
  rw [hagree] at hd ⊢
  exact ⟨rfl, hd, rfl, rfl, rfl, rfl, rfl, rfl, rfl, rfl, rfl, rfl, rfl, rfl, rfl⟩

/-- Settles O52: the run of `engine_encipher_command`. -/
theorem encipherCommandEnciphers : Obligations.EncipherCommandEnciphers := by
  unfold Obligations.EncipherCommandEnciphers
  intro st hidle hpsv hu
  have hrun := engine_encipher_command (startEncipher (accept .encipher st)) rfl rfl rfl rfl rfl
  obtain ⟨t, hcycles, hagree, hbusy, hdone⟩ :=
    cycles_of_engineCycles 16 (startEncipher (accept .encipher st)) (startEncipher (accept .encipher st)) _ rfl hu hrun
  have hd := hdone (by omega) rfl
  refine ⟨_, t, exec_encipher_accepted hidle hpsv, hcycles, hbusy, ?_⟩
  rw [hagree] at hd ⊢
  exact ⟨rfl, rfl, hd, hpsv, rfl, rfl, rfl, rfl, rfl, rfl, rfl, rfl, rfl, rfl⟩

/-! ## Schedule runs -/

/-- 42_keyschedule.md R91: what a command that is one schedule run leaves behind, from the state `st` it was accepted
into, with the schedule `ps` that the run computes. -/
theorem schedule_command {n : Nat} {start st : State} {acc : Block × Schedule} {ps : Schedule} {kind : SchedKind}
    {koff : BitVec 7} {sidx : BitVec 2} (hn : 0 < n) (hu : undisturbedFor n start)
    (ho : st.op = .keyPw ∨ st.op = .keySalt ∨ st.op = .ekskey) (hps : acc.2 = ps)
    (hl : acc.1.l = acc.2.sbox[3][254]) (hr : acc.1.r = acc.2.sbox[3][255])
    (hrun : engineCycles n start = some (endSched (atEnd acc kind koff sidx st))) :
    ∃ t, cycles n start = .next t ∧ busyFor n start ∧ t.schedule = ps
      ∧ t.busy = false ∧ t.done = true ∧ t.psv = st.psv ∧ t.op = st.op ∧ t.phase = .idle ∧ t.sched = .none
      ∧ t.l = t.sbox[3][254] ∧ t.r = t.sbox[3][255]
      ∧ t.widx.toNat = 1040 ∧ t.rnd.toNat = 16 ∧ t.koff = koff ∧ t.sidx = sidx
      ∧ t.ctext = st.ctext ∧ t.key = st.key ∧ t.salt = st.salt ∧ t.cost = st.cost ∧ t.keylen = st.keylen := by
  rw [endSched_atEnd_finish acc kind koff sidx st ho] at hrun
  obtain ⟨t, hcycles, hbusy, hsched, htl, htr, hb, hd, hpsv, hop, hphase, hnone, hwidx, hrnd, hframe⟩ :=
    cycles_of_finished_run n hn start st acc kind koff sidx hu hrun
  have hsbox : t.sbox = acc.2.sbox := congrArg Schedule.sbox hsched
  refine ⟨t, hcycles, hbusy, hsched.trans hps, hb, hd, hpsv, hop, hphase, hnone, ?_, ?_, ?_, ?_, hframe⟩
  · rw [htl, hl, hsbox]
  · rw [htr, hr, hsbox]
  · rw [hwidx]
    rfl
  · rw [hrnd]
    rfl

/-- The key offset at the end of a run over the key bytes fits in its seven bits. -/
theorem koff_toNat {n : Nat} (h : 1 ≤ n ∧ n ≤ 72) : (BitVec.ofNat 7 (72 % n)).toNat = 72 % n := by
  have hlt : 72 % n < n := Nat.mod_lt _ h.1
  rw [BitVec.toNat_ofNat]
  exact Nat.mod_eq_of_lt (by omega)

/-- Settles O53: `KEY_PW` is the run of `engine_key_run`. -/
theorem keyPwComputesKey : Obligations.KeyPwComputesKey := by
  unfold Obligations.KeyPwComputesKey
  intro st hidle hpsv h1 h72 hu
  obtain ⟨acc, hps, hl, hr, hrun⟩ := engine_key_run (accept .keyPw st) rfl ⟨h1, h72⟩
  obtain ⟨t, hcycles, hbusy, hsched, hb, hd, hpsv', hop, hphase, hnone, htl, htr, hwidx, hrnd, hkoff, hsidx, hframe⟩ :=
    schedule_command (start := startSched .kpw (accept .keyPw st)) (st := accept .keyPw st) (by omega) hu (.inl rfl) hps hl hr hrun
  exact ⟨_, t, exec_keyPw_accepted hidle hpsv ⟨h1, h72⟩, hcycles, hbusy, hsched, hb, hd, hpsv'.trans hpsv, hop, hphase,
    hnone, htl, htr, hwidx, hrnd, hkoff ▸ koff_toNat ⟨h1, h72⟩, hsidx ▸ rfl, hframe⟩

/-- Settles O54: `KEY_SALT` is the run of `engine_salt_run`; the stream of the salt bytes is `streamWord_saltString`. -/
theorem keySaltComputesKey : Obligations.KeySaltComputesKey := by
  unfold Obligations.KeySaltComputesKey
  intro st hidle hpsv hu
  obtain ⟨acc, hps, hl, hr, hrun⟩ := engine_salt_run (accept .keySalt st) rfl (streamWord_saltString st.salt)
  obtain ⟨t, hcycles, hbusy, hsched, hb, hd, hpsv', hop, hphase, hnone, htl, htr, hwidx, hrnd, hkoff, hsidx, hframe⟩ :=
    schedule_command (start := startSched .ksalt (accept .keySalt st)) (st := accept .keySalt st) (by omega)
      hu (.inr (.inl rfl)) hps hl hr hrun
  exact ⟨_, t, exec_keySalt_accepted hidle hpsv, hcycles, hbusy, hsched, hb, hd, hpsv'.trans hpsv, hop, hphase,
    hnone, htl, htr, hwidx, hrnd, hkoff ▸ rfl, hsidx ▸ rfl, hframe⟩

/-- Settles O55: `EKSKEY` is the run of `engine_eks_run`. -/
theorem eksKeyComputesEksKey : Obligations.EksKeyComputesEksKey := by
  unfold Obligations.EksKeyComputesEksKey
  intro st hidle hpsv h1 h72 hu
  obtain ⟨acc, hps, hl, hr, hrun⟩ := engine_eks_run (accept .ekskey st) rfl ⟨h1, h72⟩
  obtain ⟨t, hcycles, hbusy, hsched, hb, hd, hpsv', hop, hphase, hnone, htl, htr, hwidx, hrnd, hkoff, hsidx, hframe⟩ :=
    schedule_command (start := startSched .eks (accept .ekskey st)) (st := accept .ekskey st) (by omega)
      hu (.inr (.inr rfl)) hps hl hr hrun
  exact ⟨_, t, exec_ekskey_accepted hidle hpsv ⟨h1, h72⟩, hcycles, hbusy, hsched, hb, hd, hpsv'.trans hpsv, hop, hphase,
    hnone, htl, htr, hwidx, hrnd, hkoff ▸ koff_toNat ⟨h1, h72⟩, hsidx ▸ rfl, hframe⟩

/-! ## `CRYPT` -/

/-- 43_costloop.md R95, R96: `CRYPT` starts with the constants, and goes on to its `SCH_EKS` run. -/
theorem engine_crypt_init (st : State) :
    ∃ u, engineCycles 1042 (startInit (accept .crypt st)) = some (startSched .eks u)
      ∧ u.schedule = scheduleOrig ∧ CryptFrame { st with psv := true } u := by
  have hrun := engine_init_orig (st := startInit (accept .crypt st)) rfl rfl rfl
  rw [endInit_of_crypt (st := { startInit (accept .crypt st) with
    p := pOrig, sbox := sOrig, widx := BitVec.ofNat 11 1041, psv := true }) rfl] at hrun
  exact ⟨_, hrun, rfl, rfl, rfl, rfl, rfl, rfl, rfl, rfl⟩

/-- 43_costloop.md R96, R97: the `SCH_EKS` run, after which the iteration counter is loaded. -/
theorem engine_crypt_eks {u : State} (hb : u.busy = true) (ho : u.op = .crypt)
    (hk : 1 ≤ u.keylen.toNat ∧ u.keylen.toNat ≤ 72) (hc : u.cost.toNat ≤ 31) :
    ∃ v, engineCycles 9917 (startSched .eks u) = some (startSched .kpw v)
      ∧ v.schedule = eksKeyFn (keyString u.key u.keylen.toNat) u.salt u.schedule
      ∧ v.iter.toNat = 2 ^ u.cost.toNat ∧ CryptFrame u v := by
  obtain ⟨acc, hps, -, -, hrun⟩ := engine_eks_run u hb hk
  rw [endSched_of_eks (st := atEnd acc .eks _ 2 u) ho rfl] at hrun
  exact ⟨_, hrun, hps, iterationCount_toNat u hc, hb, ho, rfl, rfl, rfl, rfl, rfl⟩

/-- 43_costloop.md R101, R102: the whole run of `CRYPT` up to the state in which its last `U_BST` completes it. -/
theorem engine_crypt (st : State) (hk : 1 ≤ st.keylen.toNat ∧ st.keylen.toNat ≤ 72) (hc : st.cost.toNat ≤ 31) :
    ∃ (ct : Vector Word 6) (b : Block) (t : State),
      engineCycles (cryptCycles st.cost.toNat) (startInit (accept .crypt st)) = some (finish (atChunk ct 63 2 .bst b 16 t))
        ∧ t.schedule = cryptSchedule (keyString st.key st.keylen.toNat) st.salt st.cost.toNat
        ∧ ct = cryptFn (keyString st.key st.keylen.toNat) st.salt st.cost.toNat
        ∧ b.l = ct[4] ∧ b.r = ct[5] ∧ CryptFrame { st with psv := true } t := by
  obtain ⟨u, hinit, hschedU, hframeU⟩ := engine_crypt_init st
  obtain ⟨hbU, hoU, -, hkeyU, hsaltU, hcostU, hkeylenU⟩ := id hframeU
  simp only at hkeyU hsaltU hcostU hkeylenU
  obtain ⟨v, heks, hschedV, hiterV, hframeUV⟩ := engine_crypt_eks hbU hoU (hkeylenU ▸ hk) (hcostU ▸ hc)
  have hframeV := hframeU.trans hframeUV
  obtain ⟨hbV, hoV, -, hkeyV, hsaltV, hcostV, hkeylenV⟩ := id hframeV
  simp only at hkeyV hsaltV hcostV hkeylenV
  obtain ⟨n, hn⟩ : ∃ n, 2 ^ st.cost.toNat = n + 1 := Nat.exists_eq_add_one.mpr (Nat.two_pow_pos _)
  obtain ⟨w, hloop, hschedW, hphaseW, hnoneW, hframeVW⟩ := engine_cost_loop n v hbV hoV (hkeylenV ▸ hk)
    (streamWord_saltString v.salt) (by rw [hiterV, hcostU, hn])
  have hframeW := hframeV.trans hframeVW
  obtain ⟨ct, b, hct, hl, hr, hpasses⟩ := engine_final_passes w hframeW.1 hphaseW hnoneW hframeW.2.1
  have hsched : w.schedule = cryptSchedule (keyString st.key st.keylen.toNat) st.salt st.cost.toNat := by
    rw [hschedW, hschedV, hschedU, hkeyU, hsaltU, hkeylenU, hkeyV, hsaltV, hkeylenV, cryptSchedule, hn]
  refine ⟨ct, b, w, ?_, hsched, ?_, hl, hr, hframeW⟩
  · have hcount : cryptCycles st.cost.toNat = 1042 + (9917 + (18792 * (n + 1) + (1 + 3456))) := by
      unfold cryptCycles
      omega
    rw [hcount, engineCycles_add _ _ _ _ hinit, engineCycles_add _ _ _ _ heks, engineCycles_add _ _ _ _ hloop, hpasses]
  · rw [hct, hsched, cryptFn]

/-- Settles O56: the run of `engine_crypt`, completed by `cycles_of_finished_passes`. -/
theorem cryptCommandComputesCrypt : Obligations.CryptCommandComputesCrypt := by
  unfold Obligations.CryptCommandComputesCrypt
  intro st hidle h1 h72 h4 h31 hu
  obtain ⟨ct, b, w, hrun, hschedW, hct, hl, hr, -, hop, hpsv, hkey, hsalt, hcost, hkeylen⟩ :=
    engine_crypt st ⟨h1, h72⟩ h31
  have hpos : 0 < cryptCycles st.cost.toNat := by
    unfold cryptCycles
    omega
  obtain ⟨t, hcycles, hbusy, htct, hsched, htl, htr, hb, hd, hpsv', hop', hphase, hkey', hsalt', hcost', hkeylen'⟩ :=
    cycles_of_finished_passes _ hpos (startInit (accept .crypt st)) w ct b hu hrun
  refine ⟨_, t, exec_crypt_accepted hidle ⟨h1, h72⟩ ⟨h4, h31⟩, hcycles, hbusy, htct.trans hct, hsched.trans hschedW, hb, hd,
    hpsv'.trans hpsv, hop'.trans hop, hphase, ?_, ?_, hkey'.trans hkey, hsalt'.trans hsalt, hcost'.trans hcost,
    hkeylen'.trans hkeylen⟩
  · rw [htl, hl, htct]
  · rw [htr, hr, htct]

end Sys2Proof.Machine
